-- ==== Sys2Proof/Word.lean ====
section
/-! DEFINITION. The word types of ECCENG: bytes, 32-bit bus and command words, 512-bit registers, and register indices. -/

namespace Sys2Proof

/-- One byte of EBUF or DIGEST (10_state.md R42, R43). -/
abbrev Byte := BitVec 8

/-- One 32-bit bus word or command word (00_scope.md R16). -/
abbrev Word := BitVec 32

/-- One big-integer register of `W_BIG = 512` bits (00_scope.md R8, R16). -/
abbrev Big := BitVec 512

/-- Index of a scalar register K0..K7 (30_encoding.md R101). -/
abbrev KIdx := Fin 8

/-- Index of a point register PR0..PR7 (30_encoding.md R101). -/
abbrev PIdx := Fin 8

end Sys2Proof
end

