-- ==== Sys2Proof/Config.lean ====
section
/-! DEFINITION. What the spec leaves open (00_scope.md R9): the library draws, the window's base and the interrupt routing. Each is an uninterpreted constant, so no proof can see its value. -/

namespace Sys2Proof

/-- The three answers of the Legendre test FLeg (40_field_ops.md R138, 90_conflicts.md C4). -/
inductive Legendre where
  | minusOne
  | zero
  | plusOne
deriving DecidableEq, Repr, Inhabited

/-- `PrimeOracle` (00_scope.md R9): FPrime's verdict on a composite input.
It is applied to the draw counter of `State`, so each invocation has a verdict of its own (40_field_ops.md R137).
Free value: assumption log 1. -/
opaque Config.primeOracle : Nat → Bool

/-- `LegOracle` (00_scope.md R9): FLeg's answer for a modulus that is not an odd prime (40_field_ops.md R138).
It is applied to the draw counter of `State`. Free value: assumption log 1. -/
opaque Config.legOracle : Nat → Legendre

/-- The number of the 4 KiB page at which the platform places the window (20_memory.md R81). -/
opaque Config.basePage : Nat

/-- `BASE`, the platform address of the register window, "must be a multiple of 4096" (20_memory.md R81). -/
def Config.base : Nat := 4096 * Config.basePage

/-- What the platform's interrupt controller decides for `irq`: "its interrupt number, priority and controller"
(00_scope.md R9), "number, priority, masking and edge or level handling" (60_exceptions.md R349). -/
structure IrqRouting where
  /-- which controller the wire goes to -/
  controller : Nat
  number : Nat
  priority : Nat
  /-- the controller masks the line -/
  masked : Bool
  /-- the controller takes edges, not the level -/
  edge : Bool
deriving DecidableEq, Repr, Inhabited

/-- `IRQ_LINE`: the routing of the `irq` output (00_scope.md R9, 60_exceptions.md R349; assumption log 7). -/
opaque Config.irqLine : IrqRouting

end Sys2Proof
end

