-- ==== Sys2Proof/Syntax.lean ====
section
/-! DEFINITION. The 32 commands of the command set (30_encoding.md R104), one constructor per row of spec/opcode_table.json. -/

namespace Sys2Proof

/-- CMD.CS, the Weierstrass curve select (30_encoding.md R100, R103). -/
inductive CurveSel where
  /-- CS = 0 -/
  | secp256k1
  /-- CS = 1, the form written `.U` -/
  | user
deriving DecidableEq, Repr

/-- CMD.CMP, the encoding form of W.ENC (30_encoding.md R100). -/
inductive EncForm where
  /-- CMP = 0 -/
  | uncompressed
  /-- CMP = 1, the form written `.C` -/
  | compressed
deriving DecidableEq, Repr

/-- CMD.MS, the modulus select (30_encoding.md R102). Values 5 to 7 are reserved:
they decode to a command that is not well formed and that ends with ILLEGAL_CMD (R106). -/
inductive ModSel where
  | p256
  | n256
  | p25519
  | n25519
  | up
  | rsv5
  | rsv6
  | rsv7
deriving DecidableEq, Repr

/-- One command. Operands stand in the order of the assembler (30_encoding.md R110).
A field the command does not use (R105) has no argument. -/
inductive Instr where
  | nop
  | ldc (kd : KIdx) (ms : ModSel)
  | wldg (pd : PIdx)
  | mldg (pd : PIdx)
  | h2i (kd : KIdx)
  | fadd (kd ka kb : KIdx) (ms : ModSel)
  | fsub (kd ka kb : KIdx) (ms : ModSel)
  | fmul (kd ka kb : KIdx) (ms : ModSel)
  | fpow (kd ka kb : KIdx) (ms : ModSel)
  | finv (kd ka : KIdx) (ms : ModSel)
  | fleg (kd ka : KIdx) (ms : ModSel)
  | fsqrt (kd ka : KIdx) (ms : ModSel)
  | fprime (ka : KIdx)
  | wcons
  | wadd (pd pa pb : PIdx) (cs : CurveSel)
  | wdbl (pd pa : PIdx) (cs : CurveSel)
  | wneg (pd pa : PIdx) (cs : CurveSel)
  | wmul (pd pa : PIdx) (ka : KIdx) (cs : CurveSel)
  | weval (kd ka : KIdx) (cs : CurveSel)
  | wvalid (pa : PIdx) (cs : CurveSel)
  | wenc (pa : PIdx) (form : EncForm)
  | wdec (pd : PIdx) (cs : CurveSel)
  | madd (pd pa pb : PIdx)
  | mdbl (pd pa : PIdx)
  | mmul (pd pa : PIdx) (ka : KIdx)
  | meval (pa : PIdx)
  | mvalid (pa : PIdx)
  | mrand (pd : PIdx)
  | maffx (kd : KIdx) (pa : PIdx)
  | ekeygen (pd : PIdx) (kd : KIdx)
  | esign (ka : KIdx)
  | everify (pa : PIdx)
deriving DecidableEq, Repr

end Sys2Proof
end

