-- ==== Sys2Proof/WellFormed.lean ====
section
/-! DEFINITION. The check on commands: a command that uses MS names a modulus that exists (30_encoding.md R102, R106). The other fields cannot be out of range, by their types. -/

namespace Sys2Proof

/-- MS values 0 to 4 select a modulus and 5 to 7 are reserved (30_encoding.md R102). -/
def ModSel.legal : ModSel → Bool
  | .p256 | .n256 | .p25519 | .n25519 | .up => true
  | .rsv5 | .rsv6 | .rsv7 => false

/-- The MS operand of the commands that use MS (30_encoding.md R104, column "fields used"). -/
def Instr.modSel? : Instr → Option ModSel
  | .ldc _ ms | .fadd _ _ _ ms | .fsub _ _ _ ms | .fmul _ _ _ ms | .fpow _ _ _ ms => some ms
  | .finv _ _ ms | .fleg _ _ ms | .fsqrt _ _ ms => some ms
  | .nop | .wldg _ | .mldg _ | .h2i _ | .fprime _ | .wcons => none
  | .wadd _ _ _ _ | .wdbl _ _ _ | .wneg _ _ _ | .wmul _ _ _ _ | .weval _ _ _ => none
  | .wvalid _ _ | .wenc _ _ | .wdec _ _ => none
  | .madd _ _ _ | .mdbl _ _ | .mmul _ _ _ | .meval _ | .mvalid _ | .mrand _ | .maffx _ _ => none
  | .ekeygen _ _ | .esign _ | .everify _ => none

/-- The CS operand of the commands that use CS (30_encoding.md R104, column "fields used"). -/
def Instr.curveSel? : Instr → Option CurveSel
  | .wadd _ _ _ cs | .wdbl _ _ cs | .wneg _ _ cs | .wmul _ _ _ cs | .weval _ _ cs => some cs
  | .wvalid _ cs | .wdec _ cs => some cs
  | .nop | .ldc _ _ | .wldg _ | .mldg _ | .h2i _ => none
  | .fadd _ _ _ _ | .fsub _ _ _ _ | .fmul _ _ _ _ | .fpow _ _ _ _ => none
  | .finv _ _ _ | .fleg _ _ _ | .fsqrt _ _ _ | .fprime _ | .wcons | .wenc _ _ => none
  | .madd _ _ _ | .mdbl _ _ | .mmul _ _ _ | .meval _ | .mvalid _ | .mrand _ | .maffx _ _ => none
  | .ekeygen _ _ | .esign _ | .everify _ => none

/-- A command is well formed when its MS operand, if it has one, is not a reserved value (30_encoding.md R106). -/
def Instr.wf (i : Instr) : Bool :=
  match i.modSel? with
  | some ms => ms.legal
  | none => true

end Sys2Proof
end

