-- ==== Sys2Proof/Decode.lean ====
section
/-! DEFINITION. The command decoder (30_encoding.md R100, R104, R106), total on 32-bit words, and the encoder (R110), both over one opcode table. -/

namespace Sys2Proof

/-- Why a word is no command (30_encoding.md R106). Both end the command with ILLEGAL_CMD. -/
inductive DecodeReject where
  /-- CMD[31:29] is not 0 -/
  | reservedBits
  /-- CMD[5:0] is not in the opcode map of R104 -/
  | reservedOpcode
deriving DecidableEq, Repr

/-- The operand fields of the one command format (30_encoding.md R100). -/
structure Fields where
  pd : PIdx
  pa : PIdx
  pb : PIdx
  kd : KIdx
  ka : KIdx
  kb : KIdx
  cs : CurveSel
  cmp : EncForm
  ms : ModSel
deriving DecidableEq, Repr

/-- The 3-bit field whose lowest bit is `lo`, "3-bit unsigned indices, 0 to 7" (30_encoding.md R101). -/
def field3 (w : Word) (lo : Nat) : Fin 8 := (w.extractLsb' lo 3).toFin

/-- CS, bit 24 (30_encoding.md R100). -/
def curveSelOfBit : Bool → CurveSel
  | false => .secp256k1
  | true => .user

/-- CMP, bit 25 (30_encoding.md R100). -/
def encFormOfBit : Bool → EncForm
  | false => .uncompressed
  | true => .compressed

/-- MS by its number (30_encoding.md R102). -/
def modSelOfBits : Fin 8 → ModSel
  | 0 => .p256
  | 1 => .n256
  | 2 => .p25519
  | 3 => .n25519
  | 4 => .up
  | 5 => .rsv5
  | 6 => .rsv6
  | 7 => .rsv7

/-- All operand fields of a word (30_encoding.md R100). -/
def fieldsOf (w : Word) : Fields where
  pd := field3 w 6
  pa := field3 w 9
  pb := field3 w 12
  kd := field3 w 15
  ka := field3 w 18
  kb := field3 w 21
  cs := curveSelOfBit (w.getLsbD 24)
  cmp := encFormOfBit (w.getLsbD 25)
  ms := modSelOfBits (field3 w 26)

/-- OP, bits 5:0: "A decoder reads OP from bits [5:0] alone" (30_encoding.md R100). -/
def opField (w : Word) : Nat := (w.extractLsb' 0 6).toNat

/-- RSV, bits 31:29, "reserved, must be 0" (30_encoding.md R100). -/
def rsvField (w : Word) : Nat := (w.extractLsb' 29 3).toNat

/-- One row of the opcode map: its OP value and the command it selects, reading only the fields of
the row's "fields used" column (30_encoding.md R104, R105). -/
structure OpRow where
  op : Nat
  build : Fields → Instr

/-- The opcode map: constant loads, control and field-operation invokers (30_encoding.md R104). -/
def opTableField : List OpRow :=
  [ ⟨0x00, fun _ => .nop⟩,
    ⟨0x01, fun f => .ldc f.kd f.ms⟩,
    ⟨0x02, fun f => .wldg f.pd⟩,
    ⟨0x03, fun f => .mldg f.pd⟩,
    ⟨0x04, fun f => .h2i f.kd⟩,
    ⟨0x08, fun f => .fadd f.kd f.ka f.kb f.ms⟩,
    ⟨0x09, fun f => .fsub f.kd f.ka f.kb f.ms⟩,
    ⟨0x0A, fun f => .fmul f.kd f.ka f.kb f.ms⟩,
    ⟨0x0B, fun f => .fpow f.kd f.ka f.kb f.ms⟩,
    ⟨0x0C, fun f => .finv f.kd f.ka f.ms⟩,
    ⟨0x0D, fun f => .fleg f.kd f.ka f.ms⟩,
    ⟨0x0E, fun f => .fsqrt f.kd f.ka f.ms⟩,
    ⟨0x0F, fun f => .fprime f.ka⟩ ]

/-- The opcode map: the Weierstrass engine (30_encoding.md R104). -/
def opTableWeierstrass : List OpRow :=
  [ ⟨0x10, fun _ => .wcons⟩,
    ⟨0x11, fun f => .wadd f.pd f.pa f.pb f.cs⟩,
    ⟨0x12, fun f => .wdbl f.pd f.pa f.cs⟩,
    ⟨0x13, fun f => .wneg f.pd f.pa f.cs⟩,
    ⟨0x14, fun f => .wmul f.pd f.pa f.ka f.cs⟩,
    ⟨0x15, fun f => .weval f.kd f.ka f.cs⟩,
    ⟨0x16, fun f => .wvalid f.pa f.cs⟩,
    ⟨0x17, fun f => .wenc f.pa f.cmp⟩,
    ⟨0x18, fun f => .wdec f.pd f.cs⟩ ]

/-- The opcode map: the Montgomery ladder engine and the ECDSA FSM (30_encoding.md R104). -/
def opTableMontgomeryEcdsa : List OpRow :=
  [ ⟨0x20, fun f => .madd f.pd f.pa f.pb⟩,
    ⟨0x21, fun f => .mdbl f.pd f.pa⟩,
    ⟨0x22, fun f => .mmul f.pd f.pa f.ka⟩,
    ⟨0x23, fun f => .meval f.pa⟩,
    ⟨0x24, fun f => .mvalid f.pa⟩,
    ⟨0x25, fun f => .mrand f.pd⟩,
    ⟨0x26, fun f => .maffx f.kd f.pa⟩,
    ⟨0x30, fun f => .ekeygen f.pd f.kd⟩,
    ⟨0x31, fun f => .esign f.ka⟩,
    ⟨0x32, fun f => .everify f.pa⟩ ]

/-- The whole opcode map (30_encoding.md R104). -/
def opTable : List OpRow := opTableField ++ opTableWeierstrass ++ opTableMontgomeryEcdsa

/-- The part of R106's decode check that reads the word alone: RSV first, then OP.
A reserved MS stays in the command and is refused when it runs, so that every word the mask
0xE000003F selects (R104) decodes to its row's command; assumption log 9. -/
def decode (w : Word) : Except DecodeReject Instr :=
  if rsvField w ≠ 0 then .error .reservedBits
  else
    match opTable.find? (fun r => r.op == opField w) with
    | some r => .ok (r.build (fieldsOf w))
    | none => .error .reservedOpcode

/-- The decoder on a table word: `w` is the command word of one `nbits`-bit row, bits above it 0. -/
def decodeTableWord (nbits w : Nat) : Option Instr :=
  if w < 2 ^ 32 then (decode (BitVec.ofNat 32 (w % 2 ^ nbits))).toOption else none

/-- The row's OP value (30_encoding.md R104). -/
def Instr.opcode : Instr → Nat
  | .nop => 0x00
  | .ldc _ _ => 0x01
  | .wldg _ => 0x02
  | .mldg _ => 0x03
  | .h2i _ => 0x04
  | .fadd _ _ _ _ => 0x08
  | .fsub _ _ _ _ => 0x09
  | .fmul _ _ _ _ => 0x0A
  | .fpow _ _ _ _ => 0x0B
  | .finv _ _ _ => 0x0C
  | .fleg _ _ _ => 0x0D
  | .fsqrt _ _ _ => 0x0E
  | .fprime _ => 0x0F
  | .wcons => 0x10
  | .wadd _ _ _ _ => 0x11
  | .wdbl _ _ _ => 0x12
  | .wneg _ _ _ => 0x13
  | .wmul _ _ _ _ => 0x14
  | .weval _ _ _ => 0x15
  | .wvalid _ _ => 0x16
  | .wenc _ _ => 0x17
  | .wdec _ _ => 0x18
  | .madd _ _ _ => 0x20
  | .mdbl _ _ => 0x21
  | .mmul _ _ _ => 0x22
  | .meval _ => 0x23
  | .mvalid _ => 0x24
  | .mrand _ => 0x25
  | .maffx _ _ => 0x26
  | .ekeygen _ _ => 0x30
  | .esign _ => 0x31
  | .everify _ => 0x32

/-- All fields 0: "The assembler writes 0 in every unused field" (30_encoding.md R110). -/
def Fields.zero : Fields := ⟨0, 0, 0, 0, 0, 0, .secp256k1, .uncompressed, .p256⟩

/-- The operand fields the assembler writes for a command (30_encoding.md R104, R110). -/
def Instr.fields : Instr → Fields
  | .nop => .zero
  | .ldc kd ms => { Fields.zero with kd, ms }
  | .wldg pd => { Fields.zero with pd }
  | .mldg pd => { Fields.zero with pd }
  | .h2i kd => { Fields.zero with kd }
  | .fadd kd ka kb ms => { Fields.zero with kd, ka, kb, ms }
  | .fsub kd ka kb ms => { Fields.zero with kd, ka, kb, ms }
  | .fmul kd ka kb ms => { Fields.zero with kd, ka, kb, ms }
  | .fpow kd ka kb ms => { Fields.zero with kd, ka, kb, ms }
  | .finv kd ka ms => { Fields.zero with kd, ka, ms }
  | .fleg kd ka ms => { Fields.zero with kd, ka, ms }
  | .fsqrt kd ka ms => { Fields.zero with kd, ka, ms }
  | .fprime ka => { Fields.zero with ka }
  | .wcons => .zero
  | .wadd pd pa pb cs => { Fields.zero with pd, pa, pb, cs }
  | .wdbl pd pa cs => { Fields.zero with pd, pa, cs }
  | .wneg pd pa cs => { Fields.zero with pd, pa, cs }
  | .wmul pd pa ka cs => { Fields.zero with pd, pa, ka, cs }
  | .weval kd ka cs => { Fields.zero with kd, ka, cs }
  | .wvalid pa cs => { Fields.zero with pa, cs }
  | .wenc pa form => { Fields.zero with pa, cmp := form }
  | .wdec pd cs => { Fields.zero with pd, cs }
  | .madd pd pa pb => { Fields.zero with pd, pa, pb }
  | .mdbl pd pa => { Fields.zero with pd, pa }
  | .mmul pd pa ka => { Fields.zero with pd, pa, ka }
  | .meval pa => { Fields.zero with pa }
  | .mvalid pa => { Fields.zero with pa }
  | .mrand pd => { Fields.zero with pd }
  | .maffx kd pa => { Fields.zero with kd, pa }
  | .ekeygen pd kd => { Fields.zero with pd, kd }
  | .esign ka => { Fields.zero with ka }
  | .everify pa => { Fields.zero with pa }

/-- The CS bit (30_encoding.md R100). -/
def CurveSel.bit : CurveSel → Nat
  | .secp256k1 => 0
  | .user => 1

/-- The CMP bit (30_encoding.md R100). -/
def EncForm.bit : EncForm → Nat
  | .uncompressed => 0
  | .compressed => 1

/-- The MS number (30_encoding.md R102). -/
def ModSel.bits : ModSel → Nat
  | .p256 => 0
  | .n256 => 1
  | .p25519 => 2
  | .n25519 => 3
  | .up => 4
  | .rsv5 => 5
  | .rsv6 => 6
  | .rsv7 => 7

/-- `OP | PD<<6 | PA<<9 | PB<<12 | KD<<15 | KA<<18 | KB<<21 | CS<<24 | CMP<<25 | MS<<26` (30_encoding.md R110). -/
def assemble (op : Nat) (f : Fields) : Word :=
  BitVec.ofNat 32 (op ||| f.pd.val <<< 6 ||| f.pa.val <<< 9 ||| f.pb.val <<< 12 ||| f.kd.val <<< 15
    ||| f.ka.val <<< 18 ||| f.kb.val <<< 21 ||| f.cs.bit <<< 24 ||| f.cmp.bit <<< 25 ||| f.ms.bits <<< 26)

/-- The command word of a command, as the assembler writes it (30_encoding.md R110). -/
def encode (i : Instr) : Word := assemble i.opcode i.fields

end Sys2Proof
end

