-- ==== Sys2Proof/Machine/State.lean ====
section
/-! DEFINITION. The state of ECCENG and its environment as plain data: registers (10_state.md), hidden state (R47), the input script of the host, the random source and the reset pin, and the state after reset (70_reset_and_hazards.md R371). -/

namespace Sys2Proof.Machine

/-- STATUS.ERRCODE (60_exceptions.md R336). Codes 11 to 15 are "never written", so they have no constructor. -/
inductive ErrCode where
  | ok
  | illegalCmd
  | singularCurve
  | pointNotOnCurve
  | encPrefix
  | rngFail
  | notInvertible
  | noCurve
  | encLength
  | range
  | identity
deriving DecidableEq, Repr

/-- A Weierstrass point value, "explicit tagged variant" (00_scope.md R15). -/
inductive Point where
  | identity
  | finite (x y : Nat)
deriving DecidableEq, Repr

/-- A Montgomery projective point `(X : Z)` (00_scope.md R15). -/
structure MPoint where
  x : Nat
  z : Nat
deriving DecidableEq, Repr

/-- A short-Weierstrass curve `(a, b, p)` (41_weierstrass.md R180). -/
structure Curve where
  a : Nat
  b : Nat
  p : Nat
deriving DecidableEq, Repr

/-- One point register: INF, X and Y (10_state.md R37). The PINF word is computed from the INF bits (R38). -/
structure PointReg where
  inf : Bool
  x : Big
  y : Big
deriving DecidableEq, Repr

/-- Everything a command can read, which is also what the acceptance snapshot holds (10_state.md R47):
the command word, HARDEN, UCV and the operand registers. -/
structure Regs where
  /-- CMD (10_state.md R35) -/
  cmd : Word
  /-- CTRL.HARDEN (10_state.md R33) -/
  harden : Bool
  /-- STATUS.UCV (10_state.md R52) -/
  ucv : Bool
  /-- K0..K7 (10_state.md R30) -/
  k : Vector Big 8
  /-- PR0..PR7 (10_state.md R37) -/
  pr : Vector PointReg 8
  /-- SIG_R (10_state.md R40) -/
  sigR : Big
  /-- SIG_S (10_state.md R40) -/
  sigS : Big
  /-- UA (10_state.md R41) -/
  ua : Big
  /-- UB (10_state.md R41) -/
  ub : Big
  /-- UP (10_state.md R41) -/
  up : Big
  /-- EBUF bytes 0..64; bytes 65..67 are not stored (10_state.md R42) -/
  ebuf : Vector Byte 65
  /-- ELEN, at most 65 (10_state.md R42) -/
  elen : Fin 66
  /-- DIGEST bytes 0..63 (10_state.md R43) -/
  digest : Vector Byte 64
  /-- DLEN, at most 64 (10_state.md R43) -/
  dlen : Fin 65
deriving DecidableEq, Repr

/-- What the random source answers (60_exceptions.md R352). -/
inductive RngAnswer where
  | value (v : Nat)
  | fail
deriving DecidableEq, Repr

/-- The engine's side of the random source interface (10_state.md R47 `rng_pending`; 60_exceptions.md R352). -/
inductive RngPort where
  /-- no request has been issued -/
  | idle
  /-- request number `id`, with its bound, waits for its answer -/
  | pending (id : Nat) (bound : Nat)
  /-- the answer to the request with this bound has arrived and the engine has not read it yet -/
  | answered (bound : Nat) (a : RngAnswer)
deriving DecidableEq, Repr

/-- The hidden state (10_state.md R47). It exists only while BUSY, so an idle engine has no snapshot
and no pending request by construction (70_reset_and_hazards.md R371, "hidden state"). -/
inductive Phase where
  | idle
  /-- BUSY, with the acceptance snapshot, the random source port and the number of redraws so far -/
  | busy (snap : Regs) (rng : RngPort) (redraws : Nat)
deriving DecidableEq, Repr

/-- The direction of a host access, with a write's byte strobes and data (20_memory.md R82). -/
inductive AccessKind where
  | read
  | write (strobes : BitVec 4) (v : Word)
deriving DecidableEq, Repr

/-- One host bus access to the window, at a 12-bit byte offset (20_memory.md R80, R82). -/
structure HostAccess where
  off : BitVec 12
  size : Nat
  kind : AccessKind
deriving DecidableEq, Repr

/-- Which agent moves next, and with what (60_exceptions.md R335, R356). -/
inductive Event where
  /-- the host issues one bus access -/
  | host (a : HostAccess)
  /-- the engine FSM takes its turn -/
  | engine
  /-- the random source answers request number `id` -/
  | rng (id : Nat) (a : RngAnswer)
  /-- the platform asserts `rst_n` (70_reset_and_hazards.md R370) -/
  | rstAssert
  /-- the platform releases `rst_n` -/
  | rstRelease
deriving DecidableEq, Repr

/-- The response to the latest host access (20_memory.md R82). It is the bus's, not the engine's. -/
inductive BusResponse where
  /-- no access yet -/
  | none
  | okayRead (v : Word)
  | okayWrite
  | busError
deriving DecidableEq, Repr

/-- The whole machine. The last five fields are the model's own: the reset pin's level, the script of
inputs to come, the latest bus response and two counters (assumption log 1 to 4). -/
structure State where
  /-- the operand registers, CMD, HARDEN and UCV -/
  regs : Regs
  /-- CTRL.IRQ_EN (10_state.md R33) -/
  irqEn : Bool
  /-- STATUS.DONE (10_state.md R51) -/
  done : Bool
  /-- STATUS.RESULT (10_state.md R45) -/
  result : Bool
  /-- STATUS.OVR (10_state.md R50) -/
  ovr : Bool
  /-- STATUS.ERRCODE (10_state.md R46) -/
  errcode : ErrCode
  /-- BUSY and the hidden state (10_state.md R47) -/
  phase : Phase
  /-- `rst_n` is asserted (70_reset_and_hazards.md R370) -/
  inReset : Bool
  /-- the moves to come, first one first; when it is empty the engine moves -/
  events : List Event
  /-- the response to the latest host access -/
  bus : BusResponse
  /-- the index of the next library draw (00_scope.md R9 PrimeOracle, LegOracle) -/
  draws : Nat
  /-- the number of the next random-source request -/
  requests : Nat
deriving DecidableEq, Repr

/-- Why the machine stops. Both are breaches by the environment, never by a command. -/
inductive Fault where
  /-- Raised by `step` when the script makes the host access the window while `rst_n` is asserted:
  "The host must not access the window during a hard reset: the model gives the host no move then"
  (70_reset_and_hazards.md R370). Safe: the model stops where the spec gives no move. -/
  | hostAccessDuringReset
  /-- Raised by `step` when the random source answers a pending request with a value at or above the
  request's bound, which 60_exceptions.md R352 says it never does. Safe: no legal run contains it. -/
  | rngAnswerOutOfRange
deriving DecidableEq, Repr

/-- Why an instruction has no meaning. No arm of `exec` answers with it: every command of the table runs
(60_exceptions.md R333, "refused: none"). -/
inductive Refusal where
  /-- Raised by an arm of `exec` whose instruction has no meaning yet. Safe: the model stops. -/
  | notModelled (mnemonic : String)
deriving DecidableEq, Repr

/-- The reset value of a point register: "INF = 0, X = 0, Y = 0" (10_state.md R37). -/
def PointReg.reset : PointReg := ⟨false, 0, 0⟩

/-- The reset values of 70_reset_and_hazards.md R371: all 0 but DLEN, which is 32. -/
def Regs.reset : Regs where
  cmd := 0
  harden := false
  ucv := false
  k := Vector.replicate 8 0
  pr := Vector.replicate 8 PointReg.reset
  sigR := 0
  sigS := 0
  ua := 0
  ub := 0
  up := 0
  ebuf := Vector.replicate 65 0
  elen := 0
  digest := Vector.replicate 64 0
  dlen := 32

/-- The machine right after reset (70_reset_and_hazards.md R371): IDLE, interrupt disabled, waiting for a
START. The script is empty, no access has been answered and both counters stand at 0 (assumption log 2 to 4). -/
def State.reset : State where
  regs := Regs.reset
  irqEn := false
  done := false
  result := false
  ovr := false
  errcode := .ok
  phase := .idle
  inReset := false
  events := []
  bus := .none
  draws := 0
  requests := 0

end Sys2Proof.Machine
end

