-- ==== Sys2Proof/Machine/Constants.lean ====
section
/-! DEFINITION. The constant store (10_state.md R44), built in and unaffected by reset, and the identification word. -/

namespace Sys2Proof.Machine

/-- `P256 = 2^256 - 2^32 - 977`, the secp256k1 field prime (00_scope.md R10). -/
def P256 : Nat := 0xFFFFFFFFFFFFFFFFFFFFFFFFFFFFFFFFFFFFFFFFFFFFFFFFFFFFFFFEFFFFFC2F

/-- `N256`, the secp256k1 group order (00_scope.md R10). -/
def N256 : Nat := 0xFFFFFFFFFFFFFFFFFFFFFFFFFFFFFFFEBAAEDCE6AF48A03BBFD25E8CD0364141

/-- `A256 = 0` (00_scope.md R10). -/
def A256 : Nat := 0

/-- `B256 = 7` (00_scope.md R10). -/
def B256 : Nat := 7

/-- `GX256` (00_scope.md R10). -/
def GX256 : Nat := 0x79BE667EF9DCBBAC55A06295CE870B07029BFCDB2DCE28D959F2815B16F81798

/-- `GY256` (00_scope.md R10). -/
def GY256 : Nat := 0x483ADA7726A3C4655DA4FBFC0E1108A8FD17B448A68554199C47D08FFB10D4B8

/-- `P25519 = 2^255 - 19` (00_scope.md R11). -/
def P25519 : Nat := 2 ^ 255 - 19

/-- `A25519 = 486662` (00_scope.md R11). -/
def A25519 : Nat := 486662

/-- `GX25519 = 9` (00_scope.md R11). -/
def GX25519 : Nat := 9

/-- `N25519`, the order of the Montgomery base point (00_scope.md R11). -/
def N25519 : Nat := 2 ^ 252 + 27742317777372353535851937790883648493

/-- secp256k1, "(a, b, p) = (0, 7, P256)" (41_weierstrass.md R179). -/
def secp256k1 : Curve := ⟨A256, B256, P256⟩

/-- The secp256k1 generator `G = Finite(GX256, GY256)` (41_weierstrass.md R179). -/
def genG : Point := .finite GX256 GY256

/-- The Montgomery base point `(GX25519 : 1)` (44_system.md R313). -/
def baseM : MPoint := ⟨GX25519, 1⟩

/-- `ID_VALUE`, what ID reads (10_state.md R32). -/
def idValue : Word := 0x45434301

/-- `FIELD_BYTES`, the width of one encoded coordinate (00_scope.md R8). -/
def fieldBytes : Nat := 32

end Sys2Proof.Machine
end

