-- ==== Sys2Proof/Machine/Flags.lean ====
section
/-! DEFINITION. The flags of STATUS and CTRL: their words, their write-1-to-clear, the OVR and UCV updates, the commit's flag writes and the interrupt line (10_state.md R33, R34, R45 to R52; 60_exceptions.md R348). -/

namespace Sys2Proof.Machine

/-- The number of an error code (60_exceptions.md R336). -/
def ErrCode.code : ErrCode → BitVec 4
  | .ok => 0
  | .illegalCmd => 1
  | .singularCurve => 2
  | .pointNotOnCurve => 3
  | .encPrefix => 4
  | .rngFail => 5
  | .notInvertible => 6
  | .noCurve => 7
  | .encLength => 8
  | .range => 9
  | .identity => 10

/-- STATUS.BUSY: "1 from acceptance until commit" (10_state.md R34, R47). -/
def State.busy (s : State) : Bool :=
  match s.phase with
  | .idle => false
  | .busy _ _ _ => true

/-- A flag as a one-bit vector. -/
def flagBit (b : Bool) : BitVec 1 := BitVec.ofBool b

/-- The STATUS word: bits 31:12 reserved, 11:8 ERRCODE, 7:5 reserved, 4 UCV, 3 OVR, 2 RESULT, 1 DONE, 0 BUSY (10_state.md R34). -/
def State.statusWord (s : State) : Word :=
  (0 : BitVec 20) ++ s.errcode.code ++ (0 : BitVec 3) ++ flagBit s.regs.ucv ++ flagBit s.ovr
    ++ flagBit s.result ++ flagBit s.done ++ flagBit s.busy

/-- The CTRL word: SRST and START read 0, bit 2 IRQ_EN, bit 1 HARDEN, the rest 0 (10_state.md R33). -/
def State.ctrlWord (s : State) : Word :=
  (0 : BitVec 29) ++ flagBit s.irqEn ++ flagBit s.regs.harden ++ (0 : BitVec 1)

/-- CTRL.START of a written value (10_state.md R33). -/
def ctrlStart (v : Word) : Bool := v.getLsbD 0

/-- CTRL.HARDEN of a written value (10_state.md R33). -/
def ctrlHarden (v : Word) : Bool := v.getLsbD 1

/-- CTRL.IRQ_EN of a written value (10_state.md R33). -/
def ctrlIrqEn (v : Word) : Bool := v.getLsbD 2

/-- CTRL.SRST of a written value (10_state.md R33). -/
def ctrlSrst (v : Word) : Bool := v.getLsbD 3

/-- A STATUS write: "Writing 0 to a W1C bit leaves it unchanged. Writes to read-only bits are ignored" (10_state.md R34). -/
def State.writeStatus (s : State) (v : Word) : State :=
  { s with done := s.done && !v.getLsbD 1, ovr := s.ovr && !v.getLsbD 3 }

/-- A dropped write sets OVR and changes nothing else (10_state.md R50). -/
def State.setOvr (s : State) : State := { s with ovr := true }

/-- The PINF word: bit i is PRi.INF, bits 31:8 read 0 (10_state.md R38). -/
def Regs.pinfWord (r : Regs) : Word :=
  (0 : BitVec 24) ++ flagBit r.pr[7].inf ++ flagBit r.pr[6].inf ++ flagBit r.pr[5].inf ++ flagBit r.pr[4].inf
    ++ flagBit r.pr[3].inf ++ flagBit r.pr[2].inf ++ flagBit r.pr[1].inf ++ flagBit r.pr[0].inf

/-- A PINF write sets every INF bit and no coordinate (10_state.md R38). -/
def Regs.writePinf (r : Regs) (v : Word) : Regs :=
  { r with pr := r.pr.mapFinIdx fun i p _ => { p with inf := v.getLsbD i } }

/-- The interrupt output: "`irq = CTRL.IRQ_EN AND STATUS.DONE`" (60_exceptions.md R348). -/
def State.irq (s : State) : Bool := s.irqEn && s.done

/-- The routing through which the platform sees `irq` now, if it is raised: it "leaves the block as one wire" whose
routing is `IRQ_LINE` (60_exceptions.md R349). -/
def State.irqRaised (s : State) : Option IrqRouting := if s.irq then some Config.irqLine else none

/-- The flag writes every commit makes: ERRCODE, RESULT, DONE <- 1 and BUSY falls
(10_state.md R45, R46, R48, R51). The library draw index moves on, so no two commands share a draw (assumption log 1). -/
def State.commitFlags (s : State) (e : ErrCode) (res : Bool) : State :=
  { s with errcode := e, result := res, done := true, phase := .idle, draws := s.draws + 1 }

end Sys2Proof.Machine
end

