-- ==== Sys2Proof/Machine/Ops.lean ====
section
/-! DEFINITION. The shared operations: byte strings, register reads and writes, the two commits, acceptance, reset and the random source port (10_state.md, 60_exceptions.md sections 1 and 5, 70_reset_and_hazards.md section 1). -/

namespace Sys2Proof.Machine

/-! ## Integers and byte strings (00_scope.md R12, R13) -/

/-- "the position of the highest set bit plus 1", 0 for 0 (41_weierstrass.md R186). -/
def bitlen (k : Nat) : Nat := if k = 0 then 0 else k.log2 + 1

/-- `int_be(s)`: "the unsigned integer whose big-endian bytes are s. The empty string gives 0" (00_scope.md R13). -/
def intBe (s : List Byte) : Nat := s.foldl (fun n b => n * 256 + b.toNat) 0

/-- The low `n` bytes of `v`, most significant first. -/
def beBytes : Nat → Nat → List Byte
  | 0, _ => []
  | n + 1, v => BitVec.ofNat 8 (v / 256 ^ n) :: beBytes n v

/-- `be_n(v)`: "the n-byte big-endian string of v", which fails when `v >= 2^(8n)` (00_scope.md R13, 40_field_ops.md R140). -/
def beN (n v : Nat) : Except ErrCode (List Byte) :=
  if v < 2 ^ (8 * n) then .ok (beBytes n v) else .error .range

/-! ## Register reads (from the snapshot) and writes (to the registers) -/

/-- What a running command reads: the acceptance snapshot (10_state.md R47, R48). An idle engine has
none, and then the registers stand for it, which is what acceptance would take (60_exceptions.md R330). -/
def State.inputs (s : State) : Regs :=
  match s.phase with
  | .idle => s.regs
  | .busy snap _ _ => snap

/-- `K[i]` as an integer in `[0, 2^512)` (00_scope.md R14, 10_state.md R30). -/
def Regs.kNat (r : Regs) (i : KIdx) : Nat := r.k[i].toNat

/-- `K[i] <- v` (00_scope.md R14). -/
def Regs.setK (r : Regs) (i : KIdx) (v : Nat) : Regs := { r with k := r.k.set i (BitVec.ofNat 512 v) }

/-- `pt(i) = Identity if PR[i].INF == 1 else Finite(PR[i].X, PR[i].Y)` (41_weierstrass.md R181). -/
def Regs.pt (r : Regs) (i : PIdx) : Point :=
  if r.pr[i].inf then .identity else .finite r.pr[i].x.toNat r.pr[i].y.toNat

/-- The register form of a Weierstrass point: "`Identity` sets INF = 1, X = 0 and Y = 0" (41_weierstrass.md R182). -/
def Point.toReg : Point → PointReg
  | .identity => ⟨true, 0, 0⟩
  | .finite x y => ⟨false, BitVec.ofNat 512 x, BitVec.ofNat 512 y⟩

/-- `PR[d] <- P` for a Weierstrass point (41_weierstrass.md R182). -/
def Regs.setPt (r : Regs) (d : PIdx) (p : Point) : Regs := { r with pr := r.pr.set d p.toReg }

/-- `mp(i) = (X : Z)` with Z the Y field and INF ignored (42_montgomery.md R238). -/
def Regs.mp (r : Regs) (i : PIdx) : MPoint := ⟨r.pr[i].x.toNat, r.pr[i].y.toNat⟩

/-- The register form of a projective point: "INF = (1 if Z == 0 else 0)" (42_montgomery.md R239, 10_state.md R39). -/
def MPoint.toReg (p : MPoint) : PointReg := ⟨p.z == 0, BitVec.ofNat 512 p.x, BitVec.ofNat 512 p.z⟩

/-- `PR[d] <- (X : Z)` (42_montgomery.md R239). -/
def Regs.setMp (r : Regs) (d : PIdx) (p : MPoint) : Regs := { r with pr := r.pr.set d p.toReg }

/-- `SIG_R <- r; SIG_S <- s` (43_ecdsa.md R275). -/
def Regs.setSig (r : Regs) (sr ss : Nat) : Regs :=
  { r with sigR := BitVec.ofNat 512 sr, sigS := BitVec.ofNat 512 ss }

/-- UCV <- b (10_state.md R52). -/
def Regs.setUcv (r : Regs) (b : Bool) : Regs := { r with ucv := b }

/-- A byte buffer holding `bytes`, then zeros (41_weierstrass.md R177). Kept folded in proofs; its one
lemma is `bufOf_getElem`. -/
@[irreducible] def bufOf (n : Nat) (bytes : List Byte) : Vector Byte n := Vector.ofFn fun i => bytes.getD i 0

/-- `EBUF[0 .. len-1] <- bytes; EBUF[len .. 64] <- 0; ELEN <- len` (41_weierstrass.md R177). -/
def Regs.setEncoding (r : Regs) (bytes : List Byte) : Regs :=
  { r with ebuf := bufOf 65 bytes, elen := Fin.ofNat 66 bytes.length }

/-- `EBUF[lo .. lo+n-1]` (41_weierstrass.md R178). -/
def Regs.ebufSlice (r : Regs) (lo n : Nat) : List Byte := (r.ebuf.toList.drop lo).take n

/-- `DIGEST[0 .. DLEN-1]` (10_state.md R43). -/
def Regs.digestBytes (r : Regs) : List Byte := r.digest.toList.take r.dlen.val

/-! ## Commit (60_exceptions.md R331): the engine's only change to host-visible state -/

/-- Commit with success: destinations, ERRCODE <- 0, RESULT, DONE <- 1 and phase <- IDLE "all in one step"
(60_exceptions.md R331). -/
def State.commitOk (s : State) (r : Regs) (res : Bool) : State := { s with regs := r }.commitFlags .ok res

/-- Commit with error, the machine's only exception: "No destination is written", ERRCODE <- the code,
RESULT <- 0, DONE <- 1 and phase <- IDLE (60_exceptions.md R331, R332, R340). CMD keeps the failing word.
There is no return from it: the engine is IDLE and takes the next command (R341). -/
def State.commitError (s : State) (e : ErrCode) : State := s.commitFlags e false

/-- Ends a command whose pseudocode gave new register contents and a RESULT, or the first error it raised
(60_exceptions.md R331, R334). -/
def State.finish (s : State) (body : Except ErrCode (Regs × Bool)) : Host.Outcome State Fault Refusal :=
  match body with
  | .ok (r, res) => .next (s.commitOk r res)
  | .error e => .next (s.commitError e)

/-! ## Acceptance and reset -/

/-- Acceptance with the HARDEN and IRQ_EN just written: the snapshot is taken, DONE falls and BUSY rises;
ERRCODE and RESULT keep their values (60_exceptions.md R330). -/
def State.accept (s : State) (harden irqEn : Bool) : State :=
  let r := { s.regs with harden := harden }
  { s with regs := r, irqEn := irqEn, done := false, phase := .busy r .idle 0 }

/-- Reset, hard or soft: every register takes its reset value and all hidden state is discarded
(70_reset_and_hazards.md R371 to R373). The reset pin, the script, the bus response and the model's two
counters are not registers of the block and stay (assumption log 2 to 4). -/
def State.resetRegs (s : State) : State :=
  { State.reset with inReset := s.inReset, events := s.events, bus := s.bus, draws := s.draws, requests := s.requests }

/-- The platform asserts `rst_n` (70_reset_and_hazards.md R370). -/
def State.assertReset (s : State) : State := { s.resetRegs with inReset := true }

/-- The platform releases `rst_n` (70_reset_and_hazards.md R370). -/
def State.releaseReset (s : State) : State := { s with inReset := false }

/-! ## The random source port (60_exceptions.md R352, R353) -/

/-- The port of a running command. -/
def State.port (s : State) : RngPort :=
  match s.phase with
  | .idle => .idle
  | .busy _ rng _ => rng

/-- The redraws a running command has made. -/
def State.redraws (s : State) : Nat :=
  match s.phase with
  | .idle => 0
  | .busy _ _ n => n

/-- `RngDraw(bound)` issues one request and the command waits for its answer (60_exceptions.md R352). -/
def State.requestDraw (s : State) (bound redraws : Nat) : State :=
  { s with phase := .busy s.inputs (.pending s.requests bound) redraws, requests := s.requests + 1 }

/-- What one iteration of a drawing command does with the value it drew. -/
inductive Attempt where
  /-- the pseudocode reaches its end -/
  | done (r : Regs)
  /-- the value is degenerate: "draw again" -/
  | redraw
deriving DecidableEq, Repr

/-- One turn of a drawing command. With no request it issues one. While the request is pending it waits
(60_exceptions.md R353). A failing source ends it with RNG_FAIL, "and no value is substituted" (R352).
A value `v` runs one iteration of the command's loop. -/
def State.drawTurn (s : State) (bound : Nat) (body : Nat → Except ErrCode Attempt) :
    Host.Outcome State Fault Refusal :=
  match s.port with
  | .idle => .next (s.requestDraw bound 0)
  | .pending _ _ => .next s
  | .answered _ .fail => .next (s.commitError .rngFail)
  | .answered _ (.value v) =>
    match body v with
    | .ok (.done r) => .next (s.commitOk r false)
    | .ok .redraw => .next (s.requestDraw bound (s.redraws + 1))
    | .error e => .next (s.commitError e)

/-- The random source answers request `id`. The answer to the pending request is kept for the engine's
next turn. Any other answer belongs to a request that a reset abandoned: "it is discarded and affects
nothing" (70_reset_and_hazards.md R373). A value at or above the bound breaks R352 and is a fault. -/
def State.deliver (s : State) (id : Nat) (a : RngAnswer) : Host.Outcome State Fault Refusal :=
  match s.phase with
  | .busy snap (.pending pid bound) n =>
    if id = pid then
      match a with
      | .fail => .next { s with phase := .busy snap (.answered bound .fail) n }
      | .value v =>
        if v < bound then .next { s with phase := .busy snap (.answered bound (.value v)) n }
        else .fault .rngAnswerOutOfRange
    else .next s
  | .busy _ .idle _ => .next s
  | .busy _ (.answered _ _) _ => .next s
  | .idle => .next s

/-! ## Fetch -/

/-- The command a BUSY engine runs: the snapshot's CMD, decoded (60_exceptions.md R330; 20_memory.md R94). -/
def Regs.command (snap : Regs) : Except DecodeReject Instr := decode snap.cmd

/-- The word `w` written to CMD and accepted with the HARDEN and IRQ_EN in force, so that the engine's
turn, put first in the script, runs it (assumption log 5). -/
def State.loadCommand (s : State) (w : Word) : State :=
  let t := { s with regs := { s.regs with cmd := w }, inReset := false, events := .engine :: s.events }
  t.accept t.regs.harden t.irqEn

end Sys2Proof.Machine
end

