-- ==== Sys2Proof/Machine/Bus.lean ====
section
/-! DEFINITION. The host register window: the address map, word reads, word writes and the access primitive (20_memory.md), the platform's address (R81) and the host pseudo-instructions (30_encoding.md R111). -/

namespace Sys2Proof.Machine

/-! ## Address map (20_memory.md R87) -/

/-- The 512-bit registers that have a 16-word window (20_memory.md R87). -/
inductive BigReg where
  | prX (i : PIdx)
  | prY (i : PIdx)
  | k (i : KIdx)
  | sigR
  | sigS
  | ua
  | ub
  | up
deriving DecidableEq, Repr

/-- What stands at an aligned offset of the window (20_memory.md R87). -/
inductive Target where
  | id
  | ctrl
  | status
  | cmd
  | pinf
  | elen
  | dlen
  | ebuf (w : Nat)
  | digest (w : Nat)
  | big (r : BigReg) (w : Nat)
  | reserved
deriving DecidableEq, Repr

/-- The point register window that holds an offset in 0x100 to 0x4FF: X at `0x100 + 0x80*i`, Y at `0x140 + 0x80*i` (20_memory.md R87). -/
def prWindow (off : Nat) : BigReg :=
  let i : PIdx := Fin.ofNat 8 ((off - 0x100) / 0x80)
  if (off - 0x100) % 0x80 < 0x40 then .prX i else .prY i

/-- The address map (20_memory.md R87). The offset is a multiple of 4. -/
def target (off : Nat) : Target :=
  if off < 0x040 then
    match off with
    | 0x000 => .id
    | 0x004 => .ctrl
    | 0x008 => .status
    | 0x00C => .cmd
    | 0x010 => .pinf
    | 0x014 => .elen
    | 0x018 => .dlen
    | _ => .reserved
  else if off < 0x084 then .ebuf ((off - 0x040) / 4)
  else if off < 0x0C0 then .reserved
  else if off < 0x100 then .digest ((off - 0x0C0) / 4)
  else if off < 0x500 then .big (prWindow off) (off % 0x40 / 4)
  else if off < 0x700 then .big (.k (Fin.ofNat 8 ((off - 0x500) / 0x40))) (off % 0x40 / 4)
  else if off < 0x740 then .big .sigR (off % 0x40 / 4)
  else if off < 0x780 then .big .sigS (off % 0x40 / 4)
  else if off < 0x7C0 then .big .ua (off % 0x40 / 4)
  else if off < 0x800 then .big .ub (off % 0x40 / 4)
  else if off < 0x840 then .big .up (off % 0x40 / 4)
  else .reserved

/-- The offset of a 512-bit register's window (20_memory.md R87). -/
def BigReg.offset : BigReg → Nat
  | .prX i => 0x100 + 0x80 * i.val
  | .prY i => 0x140 + 0x80 * i.val
  | .k i => 0x500 + 0x40 * i.val
  | .sigR => 0x700
  | .sigS => 0x740
  | .ua => 0x780
  | .ub => 0x7C0
  | .up => 0x800

/-! ## Words of a 512-bit register and of a byte buffer -/

/-- Word `w` of a 512-bit register: bits `[511 - 32*w : 480 - 32*w]` (20_memory.md R86). -/
def bigWord (v : Big) (w : Nat) : Word := v.extractLsb' (480 - 32 * w) 32

/-- The register with word `w` replaced (20_memory.md R86). -/
def setBigWord (v : Big) (w : Nat) (x : Word) : Big :=
  (v &&& ~~~((BitVec.allOnes 32).setWidth 512 <<< (480 - 32 * w))) ||| (x.setWidth 512 <<< (480 - 32 * w))

/-- Byte `j` of a buffer, 0 beyond its end, as EBUF bytes 65 to 67 read (10_state.md R42). -/
def bufByte {n : Nat} (buf : Vector Byte n) (j : Nat) : Byte := buf[j]?.getD 0

/-- Word `w` of a byte buffer: byte `4*w` in bits 31:24 (20_memory.md R85). -/
def bufWord {n : Nat} (buf : Vector Byte n) (w : Nat) : Word :=
  bufByte buf (4 * w) ++ bufByte buf (4 * w + 1) ++ bufByte buf (4 * w + 2) ++ bufByte buf (4 * w + 3)

/-- Byte `j` of a word, numbered from its most significant byte (20_memory.md R85). -/
def wordByte (x : Word) (j : Nat) : Byte := x.extractLsb' (24 - 8 * j) 8

/-- The buffer with word `w` replaced. A byte beyond its end is ignored, as EBUF bytes 65 to 67 are (10_state.md R42). -/
def setBufWord {n : Nat} (buf : Vector Byte n) (w : Nat) (x : Word) : Vector Byte n :=
  (((buf.setIfInBounds (4 * w) (wordByte x 0)).setIfInBounds (4 * w + 1) (wordByte x 1)).setIfInBounds
    (4 * w + 2) (wordByte x 2)).setIfInBounds (4 * w + 3) (wordByte x 3)

/-! ## Reads -/

/-- The value of a 512-bit register. -/
def Regs.bigReg (r : Regs) : BigReg → Big
  | .prX i => r.pr[i].x
  | .prY i => r.pr[i].y
  | .k i => r.k[i]
  | .sigR => r.sigR
  | .sigS => r.sigS
  | .ua => r.ua
  | .ub => r.ub
  | .up => r.up

/-- `word(off)`, with no side effect (20_memory.md R82, R89). While BUSY it is the value from before the
command, since the registers change only at commit (10_state.md R48). -/
def State.readWord (s : State) : Target → Word
  | .id => idValue
  | .ctrl => s.ctrlWord
  | .status => s.statusWord
  | .cmd => s.regs.cmd
  | .pinf => s.regs.pinfWord
  | .elen => BitVec.ofNat 32 s.regs.elen.val
  | .dlen => BitVec.ofNat 32 s.regs.dlen.val
  | .ebuf w => bufWord s.regs.ebuf w
  | .digest w => bufWord s.regs.digest w
  | .big r w => bigWord (s.regs.bigReg r) w
  | .reserved => 0

/-! ## Writes -/

/-- A 512-bit register replaced. "Any host write to any word of UA, UB or UP that is not dropped clears UCV"
(10_state.md R41); writing X or Y never changes INF (R38). -/
def Regs.setBigReg (r : Regs) (b : BigReg) (v : Big) : Regs :=
  match b with
  | .prX i => { r with pr := r.pr.set i { r.pr[i] with x := v } }
  | .prY i => { r with pr := r.pr.set i { r.pr[i] with y := v } }
  | .k i => { r with k := r.k.set i v }
  | .sigR => { r with sigR := v }
  | .sigS => { r with sigS := v }
  | .ua => { r with ua := v, ucv := false }
  | .ub => { r with ub := v, ucv := false }
  | .up => { r with up := v, ucv := false }

/-- Bits 6:0 of a written length, capped at `max`: "a written value above 65 is stored as 65" (10_state.md R42, R43). -/
def cappedLen (max : Nat) (v : Word) : Fin (max + 1) := Fin.ofNat (max + 1) (min (v.extractLsb' 0 7).toNat max)

/-- A write to an operand register while idle (10_state.md R35, R38, R42, R43; 20_memory.md R87).
ID, CTRL, STATUS and reserved offsets are no operand registers. -/
def Regs.writeOperand (r : Regs) (t : Target) (v : Word) : Regs :=
  match t with
  | .cmd => { r with cmd := v }
  | .pinf => r.writePinf v
  | .elen => { r with elen := cappedLen 65 v }
  | .dlen => { r with dlen := cappedLen 64 v }
  | .ebuf w => { r with ebuf := setBufWord r.ebuf w v }
  | .digest w => { r with digest := setBufWord r.digest w v }
  | .big b w => r.setBigReg b (setBigWord (r.bigReg b) w v)
  | .id => r
  | .ctrl => r
  | .status => r
  | .reserved => r

/-- A CTRL write (10_state.md R33). SRST resets in any phase and START beside it is ignored. Otherwise a
write while BUSY "is dropped whole" and sets OVR. While idle it stores HARDEN and IRQ_EN, and START
accepts the command with the HARDEN just written. -/
def State.writeCtrl (s : State) (v : Word) : State :=
  if ctrlSrst v then s.resetRegs
  else if s.busy then s.setOvr
  else if ctrlStart v then s.accept (ctrlHarden v) (ctrlIrqEn v)
  else { s with regs := { s.regs with harden := ctrlHarden v }, irqEn := ctrlIrqEn v }

/-- A write to an operand register: applied while idle, dropped with OVR set while BUSY (10_state.md R48, R50). -/
def State.writeIdle (s : State) (t : Target) (v : Word) : State :=
  if s.busy then s.setOvr else { s with regs := s.regs.writeOperand t v }

/-- The write rule of the register at a target (10_state.md R32 to R43, R50; 20_memory.md R88).
Writes to ID and to reserved offsets change nothing and never set OVR (10_state.md R50). -/
def State.writeWord (s : State) (t : Target) (v : Word) : State :=
  match t with
  | .id => s
  | .reserved => s
  | .status => s.writeStatus v
  | .ctrl => s.writeCtrl v
  | .cmd => s.writeIdle .cmd v
  | .pinf => s.writeIdle .pinf v
  | .elen => s.writeIdle .elen v
  | .dlen => s.writeIdle .dlen v
  | .ebuf w => s.writeIdle (.ebuf w) v
  | .digest w => s.writeIdle (.digest w) v
  | .big b w => s.writeIdle (.big b w) v

/-! ## The access primitive (20_memory.md R82) -/

/-- "Only aligned 32-bit accesses are legal", with all strobes set for a write (20_memory.md R83). -/
def HostAccess.legal (a : HostAccess) : Bool :=
  a.size == 4 && a.off.toNat % 4 == 0 &&
    match a.kind with
    | .read => true
    | .write strobes _ => strobes == 0b1111

/-- One host access (20_memory.md R82). An illegal one "receives a bus error response and changes no state, not even OVR" (R83). -/
def State.access (s : State) (a : HostAccess) : State :=
  if a.legal then
    match a.kind with
    | .read => { s with bus := .okayRead (s.readWord (target a.off.toNat)) }
    | .write _ v => { s.writeWord (target a.off.toNat) v with bus := .okayWrite }
  else { s with bus := .busError }

/-- The offset that a platform address reaches: "A host access to address `BASE + off` reaches offset `off`"
(20_memory.md R81). An address outside the 4 KiB window reaches no offset of this block. -/
def windowOffset (addr : Nat) : Option (BitVec 12) :=
  if Config.base ≤ addr ∧ addr < Config.base + 4096 then some (BitVec.ofNat 12 (addr - Config.base)) else none

/-- The script of one platform access: the host's move at the offset it reaches, or no move of this block. -/
def platformAccess (addr size : Nat) (kind : AccessKind) : List Event :=
  match windowOffset addr with
  | some off => [.host ⟨off, size, kind⟩]
  | none => []

/-! ## Host pseudo-instructions, as scripts (30_encoding.md R111) -/

/-- `WR off, v` (30_encoding.md R111). -/
def evWr (off : Nat) (v : Word) : Event := .host ⟨BitVec.ofNat 12 off, 4, .write 0b1111 v⟩

/-- `RD off` (30_encoding.md R111). -/
def evRd (off : Nat) : Event := .host ⟨BitVec.ofNat 12 off, 4, .read⟩

/-- `WRBIG off, v`: 16 word writes, most significant word first (30_encoding.md R111). -/
def wrBig (off : Nat) (v : Big) : List Event := (List.range 16).map fun w => evWr (off + 4 * w) (bigWord v w)

/-- `RDBIG off`: 16 word reads (30_encoding.md R111). -/
def rdBig (off : Nat) : List Event := (List.range 16).map fun w => evRd (off + 4 * w)

/-- The CTRL value `1 | h<<1 | irq_en<<2` of EXEC (30_encoding.md R111). -/
def execCtrl (h irqEn : Bool) : Word := (0 : BitVec 29) ++ flagBit irqEn ++ flagBit h ++ (1 : BitVec 1)

/-- The two writes of `EXEC <command>[, h]`: CMD, then START (30_encoding.md R111). -/
def execStart (w : Word) (h irqEn : Bool) : List Event := [evWr 0x00C w, evWr 0x004 (execCtrl h irqEn)]

/-- One round of EXEC as a script: its writes, the engine's turn and one poll of STATUS. The poll loop itself is
`State.execCommand` (30_encoding.md R111). -/
def execScript (w : Word) (h irqEn : Bool) : List Event := execStart w h irqEn ++ [.engine, evRd 0x008]

end Sys2Proof.Machine
end

