-- ==== Sys2Proof/Machine/Operands.lean ====
section
/-! DEFINITION. The operand forms chosen by MS and CS, with the errors of the decode check that depend on them (30_encoding.md R102, R103, R106). -/

namespace Sys2Proof.Machine

/-- `M(MS)` (30_encoding.md R102): MS = 4 needs UCV = 1, "else NO_CURVE", and 5 to 7 give ILLEGAL_CMD (R106). -/
def Regs.modulus (r : Regs) : ModSel → Except ErrCode Nat
  | .p256 => .ok P256
  | .n256 => .ok N256
  | .p25519 => .ok P25519
  | .n25519 => .ok N25519
  | .up => if r.ucv then .ok r.up.toNat else .error .noCurve
  | .rsv5 => .error .illegalCmd
  | .rsv6 => .error .illegalCmd
  | .rsv7 => .error .illegalCmd

/-- `curve(CS)` (41_weierstrass.md R180): CS = 1 "requires UCV = 1 at acceptance, and otherwise the command
ends with NO_CURVE" (30_encoding.md R103). -/
def Regs.curve (r : Regs) : CurveSel → Except ErrCode Curve
  | .secp256k1 => .ok Machine.secp256k1
  | .user => if r.ucv then .ok ⟨r.ua.toNat, r.ub.toNat, r.up.toNat⟩ else .error .noCurve

end Sys2Proof.Machine
end

