-- ==== Sys2Proof/Machine/Field.lean ====
section
/-! DEFINITION. The FieldOps unit (40_field_ops.md section 1) and the eight field-operation commands (section 2). -/

namespace Sys2Proof.Machine

/-! ## The FieldOps unit -/

/-- `FAdd(a, b, m) = (a + b) mod m` (40_field_ops.md R132). -/
def fAdd (a b m : Nat) : Nat := (a + b) % m

/-- `FSub(a, b, m) = (a - b) mod m`, "the non-negative remainder" (40_field_ops.md R133). -/
def fSub (a b m : Nat) : Nat := (a + (m - b % m)) % m

/-- `FMul(a, b, m) = (a * b) mod m` (40_field_ops.md R134). -/
def fMul (a b m : Nat) : Nat := a * b % m

/-- Square and multiply over the `n` low bits of `e`, highest first. -/
def powLoop (a e m : Nat) : Nat → Nat → Nat
  | 0, acc => acc
  | i + 1, acc => powLoop a e m i (if e.testBit i then acc * acc % m * a % m else acc * acc % m)

/-- `FPow(a, e, m) = (a^e) mod m`, with `FPow(a, 0, m) = 1 mod m` (40_field_ops.md R135). -/
def fPow (a e m : Nat) : Nat := powLoop (a % m) e m (bitlen e) (1 % m)

/-- Extended Euclid on `(r0, r1)`, keeping `r0 ≡ t0 * a` and `r1 ≡ t1 * a` modulo `m`. -/
def euclidLoop (m : Nat) : Nat → Nat → Nat → Nat → Nat → Nat
  | 0, _, _, t0, _ => t0
  | fuel + 1, r0, r1, t0, t1 =>
    if r1 = 0 then t0 else euclidLoop m fuel r1 (r0 % r1) t1 (fSub t0 (r0 / r1 * t1) m)

/-- "the unique b in [1, m) with (a' * b) mod m == 1", for `a` coprime to `m` (40_field_ops.md R136). -/
def modInverse (a m : Nat) : Nat := euclidLoop m (2 * bitlen m + 2) m a 0 1 % m

/-- `FInv(a, m)`, which fails with NOT_INVERTIBLE when `gcd(a mod m, m) != 1` (40_field_ops.md R136). -/
def fInv (a m : Nat) : Except ErrCode Nat :=
  if Nat.gcd (a % m) m = 1 then .ok (modInverse (a % m) m) else .error .notInvertible

/-- No divisor of `n` in `[d, ∞)` whose square is at most `n`, searched upwards for `fuel` candidates. -/
def noDivisorFrom (n : Nat) : Nat → Nat → Bool
  | 0, _ => true
  | fuel + 1, d => if n < d * d then true else if n % d = 0 then false else noDivisorFrom n fuel (d + 1)

/-- `v` is prime. The four built-in moduli are prime (40_field_ops.md R138, 93_implementation_defined.md G5)
and are recognised at once, so that a step on them evaluates; any other `v` is settled by trial division. -/
def isPrime (v : Nat) : Bool :=
  v == P256 || v == N256 || v == P25519 || v == N25519 || (2 ≤ v && noDivisorFrom v v 2)

/-- `FPrime(v)`: false below 2, true on a prime, a draw on a composite (40_field_ops.md R137). -/
def fPrime (v draw : Nat) : Bool :=
  if v < 2 then false else if isPrime v then true else Config.primeOracle draw

/-- "m is an odd prime" (40_field_ops.md R138). -/
def isOddPrime (m : Nat) : Bool := m != 2 && isPrime m

/-- `FLeg(a, m)`: Euler's criterion for an odd prime modulus, else a draw (40_field_ops.md R138).
The last branch of the criterion is the spec's `t == m - 1`, since "exactly one holds". -/
def fLeg (a m draw : Nat) : Legendre :=
  if isOddPrime m then
    let t := fPow (a % m) ((m - 1) / 2) m
    if t = 0 then .zero else if t = 1 then .plusOne else .minusOne
  else Config.legOracle draw

/-- `FSqrt(a, m) = FPow(a, (m + 1) div 4, m)` (40_field_ops.md R139). -/
def fSqrt (a m : Nat) : Nat := fPow a ((m + 1) / 4) m

/-- "0 if L == 0; 1 if L == +1; m - 1 if L == -1" (40_field_ops.md R155). -/
def legResidue (m : Nat) : Legendre → Nat
  | .zero => 0
  | .plusOne => 1
  | .minusOne => m - 1

/-! ## The commands -/

/-- The shape of the commands that write `f m` to K[KD] for the modulus `m = M(MS)`, with RESULT <- 0. -/
def State.writeKMod (s : State) (kd : KIdx) (ms : ModSel) (f : Nat → Except ErrCode Nat) :
    Host.Outcome State Fault Refusal :=
  s.finish do
    let m ← s.inputs.modulus ms
    let v ← f m
    return (s.regs.setK kd v, false)

/-- F.ADD: `K[KD] <- FAdd(K[KA], K[KB], m)` (40_field_ops.md R150). -/
def execFAdd (kd ka kb : KIdx) (ms : ModSel) (s : State) : Host.Outcome State Fault Refusal :=
  s.writeKMod kd ms fun m => .ok (fAdd (s.inputs.kNat ka) (s.inputs.kNat kb) m)

/-- F.SUB: `K[KD] <- FSub(K[KA], K[KB], m)` (40_field_ops.md R151). -/
def execFSub (kd ka kb : KIdx) (ms : ModSel) (s : State) : Host.Outcome State Fault Refusal :=
  s.writeKMod kd ms fun m => .ok (fSub (s.inputs.kNat ka) (s.inputs.kNat kb) m)

/-- F.MUL: `K[KD] <- FMul(K[KA], K[KB], m)` (40_field_ops.md R152). -/
def execFMul (kd ka kb : KIdx) (ms : ModSel) (s : State) : Host.Outcome State Fault Refusal :=
  s.writeKMod kd ms fun m => .ok (fMul (s.inputs.kNat ka) (s.inputs.kNat kb) m)

/-- F.POW: `K[KD] <- FPow(K[KA], K[KB], m)`, the exponent not reduced (40_field_ops.md R153). -/
def execFPow (kd ka kb : KIdx) (ms : ModSel) (s : State) : Host.Outcome State Fault Refusal :=
  s.writeKMod kd ms fun m => .ok (fPow (s.inputs.kNat ka) (s.inputs.kNat kb) m)

/-- F.INV: `K[KD] <- FInv(K[KA], m)`, or NOT_INVERTIBLE (40_field_ops.md R154). -/
def execFInv (kd ka : KIdx) (ms : ModSel) (s : State) : Host.Outcome State Fault Refusal :=
  s.writeKMod kd ms fun m => fInv (s.inputs.kNat ka) m

/-- F.LEG: `L = FLeg(K[KA], m)`, with -1 "written as m - 1" (40_field_ops.md R155). -/
def execFLeg (kd ka : KIdx) (ms : ModSel) (s : State) : Host.Outcome State Fault Refusal :=
  s.writeKMod kd ms fun m => .ok (legResidue m (fLeg (s.inputs.kNat ka) m s.draws))

/-- F.SQRT: `K[KD] <- FSqrt(K[KA], m)` (40_field_ops.md R156). -/
def execFSqrt (kd ka : KIdx) (ms : ModSel) (s : State) : Host.Outcome State Fault Refusal :=
  s.writeKMod kd ms fun m => .ok (fSqrt (s.inputs.kNat ka) m)

/-- F.PRIME: `RESULT <- FPrime(K[KA])`, no register written (40_field_ops.md R157). -/
def execFPrime (ka : KIdx) (s : State) : Host.Outcome State Fault Refusal :=
  s.finish (.ok (s.regs, fPrime (s.inputs.kNat ka) s.draws))

end Sys2Proof.Machine
end

