-- ==== Sys2Proof/Machine/Weierstrass.lean ====
section
/-! DEFINITION. The Weierstrass point engine: the group-law functions (41_weierstrass.md section 2) and its commands (section 1). -/

namespace Sys2Proof.Machine

/-! ## Group-law functions -/

/-- `x³ + a·x + b mod p`, the curve's right-hand side (41_weierstrass.md R187, R188). -/
def wRhs (c : Curve) (x : Nat) : Nat :=
  fAdd (fAdd (fMul (fMul x x c.p) x c.p) (fMul c.a x c.p) c.p) c.b c.p

/-- The chord or tangent construction from slope `sl` at `(px, py)` with second abscissa `qx`:
`rx = sl² - P.x - Q.x`, `ry = sl·(P.x - rx) - P.y` (41_weierstrass.md R183, R184). -/
def wSlopePoint (c : Curve) (sl px py qx : Nat) : Point :=
  let rx := fSub (fSub (fMul sl sl c.p) px c.p) qx c.p
  .finite rx (fSub (fMul sl (fSub px rx c.p) c.p) py c.p)

/-- WDouble (41_weierstrass.md R183). -/
def wDouble (c : Curve) : Point → Except ErrCode Point
  | .identity => .ok .identity
  | .finite x y =>
    if y = 0 then .ok .identity
    else do
      let num := fAdd (fMul 3 (fMul x x c.p) c.p) c.a c.p
      let inv ← fInv (fMul 2 y c.p) c.p
      return wSlopePoint c (fMul num inv c.p) x y x

/-- WAdd (41_weierstrass.md R184): the identities, then equality as stored integers (R181), then the denominator. -/
def wAdd (c : Curve) : Point → Point → Except ErrCode Point
  | .identity, q => .ok q
  | .finite px py, .identity => .ok (.finite px py)
  | .finite px py, .finite qx qy =>
    if px = qx ∧ py = qy then wDouble c (.finite px py)
    else
      let den := fSub qx px c.p
      if den = 0 then .ok .identity
      else do
        let inv ← fInv den c.p
        return wSlopePoint c (fMul (fSub qy py c.p) inv c.p) px py qx

/-- WNeg: `(P.x, (p - P.y) mod p)` (41_weierstrass.md R185, 90_conflicts.md C1). -/
def wNeg (c : Curve) : Point → Point
  | .identity => .identity
  | .finite x y => .finite x (fSub 0 y c.p)

/-- The loop of WMul over the `n` low bits of `k`, highest first (41_weierstrass.md R186). -/
def wMulLoop (c : Curve) (p : Point) (k : Nat) : Nat → Point → Except ErrCode Point
  | 0, acc => .ok acc
  | i + 1, acc => do
    let dbl ← wDouble c acc
    match dbl with
    | .identity => return .identity
    | .finite x y =>
      if k.testBit i then
        let sum ← wAdd c (.finite x y) p
        wMulLoop c p k i sum
      else wMulLoop c p k i (.finite x y)

/-- WMul: double-and-add from the highest bit, "short-circuit" included (41_weierstrass.md R186, 90_conflicts.md C7). -/
def wMul (c : Curve) (p : Point) (k : Nat) : Except ErrCode Point :=
  if k = 0 then .ok .identity else wMulLoop c p k (bitlen k - 1) p

/-- WEval: POINT_NOT_ON_CURVE when FLeg is -1, else the formula's root (41_weierstrass.md R187). -/
def wEval (c : Curve) (x draw : Nat) : Except ErrCode Nat :=
  match fLeg (wRhs c x) c.p draw with
  | .minusOne => .error .pointNotOnCurve
  | .zero => .ok (fSqrt (wRhs c x) c.p)
  | .plusOne => .ok (fSqrt (wRhs c x) c.p)

/-- WValid: the curve equation mod p, true for the Identity (41_weierstrass.md R188). -/
def wValid (c : Curve) : Point → Bool
  | .identity => true
  | .finite x y => fMul y y c.p == wRhs c x

/-- `4a³ + 27b² mod p` (41_weierstrass.md R170). -/
def wDisc (a b p : Nat) : Nat :=
  fAdd (fMul 4 (fMul (fMul a a p) a p) p) (fMul 27 (fMul b b p) p) p

/-- The checks of W.CONS in order: RANGE, primality, discriminant (41_weierstrass.md R170, 60_exceptions.md R334). -/
def wConstruct (a b p draw : Nat) : Except ErrCode Unit :=
  if 2 ^ 256 ≤ p then .error .range
  else if fPrime p draw = false then .error .singularCurve
  else if wDisc a b p = 0 then .error .singularCurve
  else .ok ()

/-- The bytes of W.ENC (41_weierstrass.md R177). -/
def wEncode (form : EncForm) : Point → Except ErrCode (List Byte)
  | .identity => .error .identity
  | .finite x y => do
    let bx ← beN fieldBytes x
    match form with
    | .compressed => return BitVec.ofNat 8 (2 + y % 2) :: bx
    | .uncompressed =>
      let by' ← beN fieldBytes y
      return 4 :: (bx ++ by')

/-- The point of W.DEC, with its errors in the order of the pseudocode (41_weierstrass.md R178).
`bytes i n` is `EBUF[i .. i+n-1]`. -/
def wDecode (c : Curve) (bytes : Nat → Nat → List Byte) (elen draw : Nat) : Except ErrCode Point :=
  let pre := intBe (bytes 0 1)
  if elen = 0 then .error .encLength
  else if pre ≠ 2 ∧ pre ≠ 3 ∧ pre ≠ 4 then .error .encPrefix
  else if pre = 4 then
    if elen ≠ 65 then .error .encLength
    else .ok (.finite (intBe (bytes 1 32)) (intBe (bytes 33 32)))
  else if elen ≠ 33 then .error .encLength
  else do
    let x := intBe (bytes 1 32)
    let y ← wEval c x draw
    return .finite x (if y % 2 ≠ pre % 2 then fSub 0 y c.p else y)

/-! ## The commands -/

/-- The shape of the commands that write a point computed on `curve(CS)` to PR[PD], with RESULT <- 0. -/
def State.writePtCurve (s : State) (pd : PIdx) (cs : CurveSel) (f : Curve → Except ErrCode Point) :
    Host.Outcome State Fault Refusal :=
  s.finish do
    let c ← s.inputs.curve cs
    let p ← f c
    return (s.regs.setPt pd p, false)

/-- W.CONS: UCV <- 1 on success; on failure UCV <- 0, "the one state a failed command writes" (41_weierstrass.md R170). -/
def execWCons (s : State) : Host.Outcome State Fault Refusal :=
  let r := s.inputs
  match wConstruct r.ua.toNat r.ub.toNat r.up.toNat s.draws with
  | .ok _ => .next (s.commitOk (s.regs.setUcv true) false)
  | .error e => .next ({ s with regs := s.regs.setUcv false }.commitError e)

/-- W.ADD: `PR[PD] <- WAdd(pt(PA), pt(PB))` (41_weierstrass.md R171). -/
def execWAdd (pd pa pb : PIdx) (cs : CurveSel) (s : State) : Host.Outcome State Fault Refusal :=
  s.writePtCurve pd cs fun c => wAdd c (s.inputs.pt pa) (s.inputs.pt pb)

/-- W.DBL: `PR[PD] <- WDouble(pt(PA))` (41_weierstrass.md R172). -/
def execWDbl (pd pa : PIdx) (cs : CurveSel) (s : State) : Host.Outcome State Fault Refusal :=
  s.writePtCurve pd cs fun c => wDouble c (s.inputs.pt pa)

/-- W.NEG: `PR[PD] <- WNeg(pt(PA))` (41_weierstrass.md R173). -/
def execWNeg (pd pa : PIdx) (cs : CurveSel) (s : State) : Host.Outcome State Fault Refusal :=
  s.writePtCurve pd cs fun c => .ok (wNeg c (s.inputs.pt pa))

/-- W.MUL: `PR[PD] <- WMul(pt(PA), K[KA])`, the scalar not reduced (41_weierstrass.md R174). -/
def execWMul (pd pa : PIdx) (ka : KIdx) (cs : CurveSel) (s : State) : Host.Outcome State Fault Refusal :=
  s.writePtCurve pd cs fun c => wMul c (s.inputs.pt pa) (s.inputs.kNat ka)

/-- W.EVAL: `K[KD] <- WEval(K[KA])` (41_weierstrass.md R175). -/
def execWEval (kd ka : KIdx) (cs : CurveSel) (s : State) : Host.Outcome State Fault Refusal :=
  s.finish do
    let c ← s.inputs.curve cs
    let y ← wEval c (s.inputs.kNat ka) s.draws
    return (s.regs.setK kd y, false)

/-- W.VALID: `RESULT <- WValid(pt(PA))` (41_weierstrass.md R176). -/
def execWValid (pa : PIdx) (cs : CurveSel) (s : State) : Host.Outcome State Fault Refusal :=
  s.finish do
    let c ← s.inputs.curve cs
    return (s.regs, wValid c (s.inputs.pt pa))

/-- W.ENC: writes EBUF bytes 0 to 64 and ELEN, or ends with IDENTITY or RANGE (41_weierstrass.md R177). -/
def execWEnc (pa : PIdx) (form : EncForm) (s : State) : Host.Outcome State Fault Refusal :=
  s.finish do
    let bytes ← wEncode form (s.inputs.pt pa)
    return (s.regs.setEncoding bytes, false)

/-- W.DEC: `PR[PD] <-` the point of `EBUF[0 .. ELEN-1]` (41_weierstrass.md R178). -/
def execWDec (pd : PIdx) (cs : CurveSel) (s : State) : Host.Outcome State Fault Refusal :=
  s.writePtCurve pd cs fun c => wDecode c s.inputs.ebufSlice s.inputs.elen.val s.draws

end Sys2Proof.Machine
end

