-- ==== Sys2Proof/Machine/Ecdsa.lean ====
section
/-! DEFINITION. The ECDSA FSM over secp256k1: hash-to-integer, key generation, sign and verify (43_ecdsa.md). -/

namespace Sys2Proof.Machine

/-- `xcoord(P)`: `P.x`, and 0 for the Identity (43_ecdsa.md R271). -/
def xcoord : Point → Nat
  | .identity => 0
  | .finite x _ => x

/-- `HashToInt() = int_be(DIGEST[0 .. DLEN-1])`, not reduced (43_ecdsa.md R272). -/
def Regs.hashToInt (r : Regs) : Nat := intBe r.digestBytes

/-- The r of E.SIGN: reference mode takes xcoord(R) as it is; hardened mode draws again (`none`) for the
Identity and for r = 0, and reduces mod N256 (43_ecdsa.md R275). -/
def signR (harden : Bool) (pt : Point) : Option Nat :=
  if harden then
    match pt with
    | .identity => none
    | .finite x _ => if x % N256 = 0 then none else some (x % N256)
  else some (xcoord pt)

/-- One iteration of E.SIGN's loop with the nonce `k`: a signature, `none` to draw again, or an error (43_ecdsa.md R275). -/
def signAttempt (harden : Bool) (e d k : Nat) : Except ErrCode (Option (Nat × Nat)) := do
  let pt ← wMul secp256k1 genG k
  match signR harden pt with
  | none => return none
  | some r =>
    let kinv ← fInv k N256
    let sg := fMul (fAdd e (fMul d r N256) N256) kinv N256
    if harden && sg == 0 then return none else return some (r, sg)

/-- `1 <= v <= n - 1` with n = N256 (43_ecdsa.md R276). -/
def inSigRange (v : Nat) : Bool := 1 ≤ v && v ≤ N256 - 1

/-- E.VERIFY's last step, on the sum X (43_ecdsa.md R276). -/
def verifySum (harden : Bool) (r : Nat) (sum : Point) : Bool :=
  if harden && sum == .identity then false else xcoord sum % N256 == r % N256

/-- The pseudocode of E.VERIFY (43_ecdsa.md R276). -/
def verify (harden : Bool) (e r sg : Nat) (pub : Point) : Except ErrCode Bool :=
  if harden && !(inSigRange r && inSigRange sg) then .ok false
  else do
    let sinv ← fInv sg N256
    let u1 := fMul e sinv N256
    let u2 := fMul r sinv N256
    let p1 ← wMul secp256k1 genG u1
    let p2 ← wMul secp256k1 pub u2
    let sum ← wAdd secp256k1 p1 p2
    return verifySum harden r sum

/-- H2I: `K[KD] <- HashToInt()` (43_ecdsa.md R273). -/
def execH2i (kd : KIdx) (s : State) : Host.Outcome State Fault Refusal :=
  s.finish (.ok (s.regs.setK kd s.inputs.hashToInt, false))

/-- E.KEYGEN: draws d below N256, then `K[KD] <- d; PR[PD] <- WMul(G, d)`; a draw of 0 is kept (43_ecdsa.md R274). -/
def execEKeygen (pd : PIdx) (kd : KIdx) (s : State) : Host.Outcome State Fault Refusal :=
  s.drawTurn N256 fun d => do
    let q ← wMul secp256k1 genG d
    return .done ((s.regs.setK kd d).setPt pd q)

/-- E.SIGN: one iteration of the loop for each draw; `SIG_R <- r; SIG_S <- s` (43_ecdsa.md R275). -/
def execESign (ka : KIdx) (s : State) : Host.Outcome State Fault Refusal :=
  s.drawTurn N256 fun k => do
    let sig ← signAttempt s.inputs.harden s.inputs.hashToInt (s.inputs.kNat ka) k
    match sig with
    | none => return .redraw
    | some (r, sg) => return .done (s.regs.setSig r sg)

/-- E.VERIFY: RESULT is the verdict; no register written (43_ecdsa.md R276). -/
def execEVerify (pa : PIdx) (s : State) : Host.Outcome State Fault Refusal :=
  s.finish do
    let v ← verify s.inputs.harden s.inputs.hashToInt s.inputs.sigR.toNat s.inputs.sigS.toNat (s.inputs.pt pa)
    return (s.regs, v)

end Sys2Proof.Machine
end

