-- ==== Sys2Proof/Machine/Montgomery.lean ====
section
/-! DEFINITION. The Montgomery ladder engine over P25519: the ladder functions (42_montgomery.md section 2) and its commands (section 1). -/

namespace Sys2Proof.Machine

/-! ## Ladder functions -/

/-- MDouble (42_montgomery.md R241). -/
def mDouble (p : MPoint) : MPoint :=
  let x2 := fMul p.x p.x P25519
  let z2 := fMul p.z p.z P25519
  let d := fSub x2 z2 P25519
  let inner := fAdd (fAdd x2 (fMul (fMul A25519 p.x P25519) p.z P25519) P25519) z2 P25519
  ⟨fMul d d P25519, fMul (fMul (fMul 4 p.x P25519) p.z P25519) inner P25519⟩

/-- MAdd, the differential addition; equality is of the stored pairs (42_montgomery.md R238, R240). -/
def mAdd (p q : MPoint) : MPoint :=
  if p.z = 0 then q
  else if q.z = 0 then p
  else if p = q then mDouble p
  else
    let t := fSub (fMul p.x q.x P25519) (fMul p.z q.z P25519) P25519
    let u := fSub (fMul p.x q.z P25519) (fMul q.x p.z P25519) P25519
    ⟨fMul t t P25519, fMul (fMul u u P25519) GX25519 P25519⟩

/-- The loop of MMul over the `n` low bits of `k`, highest first, on the two accumulators (42_montgomery.md R242). -/
def mMulLoop (k : Nat) : Nat → MPoint → MPoint → MPoint
  | 0, r0, _ => r0
  | i + 1, r0, r1 =>
    if k.testBit i then mMulLoop k i (mAdd r0 r1) (mDouble r1)
    else mMulLoop k i (mDouble r0) (mAdd r0 r1)

/-- MMul, the ladder from `(1 : 0)` and `P` (42_montgomery.md R242). -/
def mMul (p : MPoint) (k : Nat) : MPoint := mMulLoop k (bitlen k) ⟨1, 0⟩ p

/-- `MAffX(P) = FMul(P.X, FInv(P.Z, p), p)` (42_montgomery.md R243). -/
def mAffX (p : MPoint) : Except ErrCode Nat := do
  let inv ← fInv p.z P25519
  return fMul p.x inv P25519

/-- `MCurve(x) = x³ + A·x² + x mod p` (42_montgomery.md R244). -/
def mCurve (x : Nat) : Nat :=
  fAdd (fAdd (fMul (fMul x x P25519) x P25519) (fMul A25519 (fMul x x P25519) P25519) P25519) x P25519

/-- `FLeg(MCurve(x), p) != -1` (42_montgomery.md R233, R235, R244). P25519 is an odd prime, so no draw is made. -/
def mOnCurve (x draw : Nat) : Bool := fLeg (mCurve x) P25519 draw != .minusOne

/-- MValid: true for `Z ≡ 0`, else the residue test on the affine x (42_montgomery.md R244). -/
def mValid (p : MPoint) (draw : Nat) : Except ErrCode Bool :=
  if p.z % P25519 = 0 then .ok true
  else do
    let x ← mAffX p
    return mOnCurve x draw

/-- The pseudocode of M.EVAL, with POINT_NOT_ON_CURVE for a non-residue (42_montgomery.md R233). -/
def mEval (p : MPoint) (draw : Nat) : Except ErrCode Unit :=
  if p.z % P25519 = 0 then .ok ()
  else do
    let x ← mAffX p
    if mOnCurve x draw then .ok () else .error .pointNotOnCurve

/-! ## The commands -/

/-- M.ADD: `PR[PD] <- MAdd(mp(PA), mp(PB))` (42_montgomery.md R230). -/
def execMAdd (pd pa pb : PIdx) (s : State) : Host.Outcome State Fault Refusal :=
  s.finish (.ok (s.regs.setMp pd (mAdd (s.inputs.mp pa) (s.inputs.mp pb)), false))

/-- M.DBL: `PR[PD] <- MDouble(mp(PA))` (42_montgomery.md R231). -/
def execMDbl (pd pa : PIdx) (s : State) : Host.Outcome State Fault Refusal :=
  s.finish (.ok (s.regs.setMp pd (mDouble (s.inputs.mp pa)), false))

/-- M.MUL: `PR[PD] <- MMul(mp(PA), K[KA])`, the scalar not reduced (42_montgomery.md R232). -/
def execMMul (pd pa : PIdx) (ka : KIdx) (s : State) : Host.Outcome State Fault Refusal :=
  s.finish (.ok (s.regs.setMp pd (mMul (s.inputs.mp pa) (s.inputs.kNat ka)), false))

/-- M.EVAL: RESULT <- 1, or POINT_NOT_ON_CURVE; no register written (42_montgomery.md R233). -/
def execMEval (pa : PIdx) (s : State) : Host.Outcome State Fault Refusal :=
  s.finish do
    mEval (s.inputs.mp pa) s.draws
    return (s.regs, true)

/-- M.VALID: `RESULT <- MValid(mp(PA))` (42_montgomery.md R234). -/
def execMValid (pa : PIdx) (s : State) : Host.Outcome State Fault Refusal :=
  s.finish do
    let v ← mValid (s.inputs.mp pa) s.draws
    return (s.regs, v)

/-- M.RAND: draws x below N25519 until it is not a non-residue, then `PR[PD] <- (x : 1)` (42_montgomery.md R235). -/
def execMRand (pd : PIdx) (s : State) : Host.Outcome State Fault Refusal :=
  s.drawTurn N25519 fun x =>
    if mOnCurve x s.draws then .ok (.done (s.regs.setMp pd ⟨x, 1⟩)) else .ok .redraw

/-- M.AFFX: `K[KD] <- MAffX(mp(PA))`, or NOT_INVERTIBLE (42_montgomery.md R237). -/
def execMAffx (kd : KIdx) (pa : PIdx) (s : State) : Host.Outcome State Fault Refusal :=
  s.finish do
    let x ← mAffX (s.inputs.mp pa)
    return (s.regs.setK kd x, false)

end Sys2Proof.Machine
end

