-- ==== Sys2Proof/Machine/System.lean ====
section
/-! DEFINITION. The constant loads and NOP (44_system.md). -/

namespace Sys2Proof.Machine

/-- NOP: "does nothing but commit" (44_system.md R310). -/
def execNop (s : State) : Host.Outcome State Fault Refusal :=
  s.finish (.ok (s.regs, false))

/-- LDC: `K[KD] <- M(MS)` (44_system.md R311). -/
def execLdc (kd : KIdx) (ms : ModSel) (s : State) : Host.Outcome State Fault Refusal :=
  s.finish do
    let m ← s.inputs.modulus ms
    return (s.regs.setK kd m, false)

/-- W.LDG: `PR[PD] <- Finite(GX256, GY256)` whatever CS says (44_system.md R312). -/
def execWLdg (pd : PIdx) (s : State) : Host.Outcome State Fault Refusal :=
  s.finish (.ok (s.regs.setPt pd genG, false))

/-- M.LDG: `PR[PD] <- (GX25519 : 1)` (44_system.md R313). -/
def execMLdg (pd : PIdx) (s : State) : Host.Outcome State Fault Refusal :=
  s.finish (.ok (s.regs.setMp pd baseM, false))

end Sys2Proof.Machine
end

