-- ==== Sys2Proof/Machine/Dispatch.lean ====
section
/-! DEFINITION. exec: one arm per command, each a call of that command's meaning. -/

namespace Sys2Proof.Machine

def exec (i : Instr) (s : State) : Host.Outcome State Fault Refusal :=
  match i with
  -- constant loads, control, hash-to-integer
  | .nop => Sys2Proof.Machine.execNop s
  | .ldc kd ms => Sys2Proof.Machine.execLdc kd ms s
  | .wldg pd => Sys2Proof.Machine.execWLdg pd s
  | .mldg pd => Sys2Proof.Machine.execMLdg pd s
  | .h2i kd => Sys2Proof.Machine.execH2i kd s
  -- field-operation invokers
  | .fadd kd ka kb ms => Sys2Proof.Machine.execFAdd kd ka kb ms s
  | .fsub kd ka kb ms => Sys2Proof.Machine.execFSub kd ka kb ms s
  | .fmul kd ka kb ms => Sys2Proof.Machine.execFMul kd ka kb ms s
  | .fpow kd ka kb ms => Sys2Proof.Machine.execFPow kd ka kb ms s
  | .finv kd ka ms => Sys2Proof.Machine.execFInv kd ka ms s
  | .fleg kd ka ms => Sys2Proof.Machine.execFLeg kd ka ms s
  | .fsqrt kd ka ms => Sys2Proof.Machine.execFSqrt kd ka ms s
  | .fprime ka => Sys2Proof.Machine.execFPrime ka s
  -- Weierstrass engine
  | .wcons => Sys2Proof.Machine.execWCons s
  | .wadd pd pa pb cs => Sys2Proof.Machine.execWAdd pd pa pb cs s
  | .wdbl pd pa cs => Sys2Proof.Machine.execWDbl pd pa cs s
  | .wneg pd pa cs => Sys2Proof.Machine.execWNeg pd pa cs s
  | .wmul pd pa ka cs => Sys2Proof.Machine.execWMul pd pa ka cs s
  | .weval kd ka cs => Sys2Proof.Machine.execWEval kd ka cs s
  | .wvalid pa cs => Sys2Proof.Machine.execWValid pa cs s
  | .wenc pa form => Sys2Proof.Machine.execWEnc pa form s
  | .wdec pd cs => Sys2Proof.Machine.execWDec pd cs s
  -- Montgomery ladder engine
  | .madd pd pa pb => Sys2Proof.Machine.execMAdd pd pa pb s
  | .mdbl pd pa => Sys2Proof.Machine.execMDbl pd pa s
  | .mmul pd pa ka => Sys2Proof.Machine.execMMul pd pa ka s
  | .meval pa => Sys2Proof.Machine.execMEval pa s
  | .mvalid pa => Sys2Proof.Machine.execMValid pa s
  | .mrand pd => Sys2Proof.Machine.execMRand pd s
  | .maffx kd pa => Sys2Proof.Machine.execMAffx kd pa s
  -- ECDSA FSM
  | .ekeygen pd kd => Sys2Proof.Machine.execEKeygen pd kd s
  | .esign ka => Sys2Proof.Machine.execESign ka s
  | .everify pa => Sys2Proof.Machine.execEVerify pa s

end Sys2Proof.Machine
end

