-- ==== Sys2Proof/Machine/Agents.lean ====
section
/-! DEFINITION. The moves of the agents: the engine FSM's turn, a host access, an answer of the random source, the reset pin (60_exceptions.md R335, R356). -/

namespace Sys2Proof.Machine

/-- The engine FSM's turn. It takes no step while `rst_n` is asserted (70_reset_and_hazards.md R370), none when
IDLE (60_exceptions.md R359), and waits while a random-source request is pending (R353). Otherwise it runs the
accepted command; a word that decodes to no command "commits at once with ERRCODE = ILLEGAL_CMD" (30_encoding.md R106). -/
def engineTurn (s : State) : Host.Outcome State Fault Refusal :=
  if s.inReset then .next s
  else
    match s.phase with
    | .idle => .next s
    | .busy _ (.pending _ _) _ => .next s
    | .busy snap _ _ =>
      match snap.command with
      | .ok i => exec i s
      | .error _ => .next (s.commitError .illegalCmd)

/-- One event of the script, on the state whose script no longer holds it. -/
def applyEvent (e : Event) (s : State) : Host.Outcome State Fault Refusal :=
  match e with
  | .engine => engineTurn s
  | .host a => if s.inReset then .fault .hostAccessDuringReset else .next (s.access a)
  | .rng id a => s.deliver id a
  | .rstAssert => .next s.assertReset
  | .rstRelease => .next s.releaseReset

end Sys2Proof.Machine
end

