-- ==== Sys2Proof/Machine/Step.lean ====
section
/-! DEFINITION. One step of the machine: one move of one agent (60_exceptions.md R335, R356). -/

namespace Sys2Proof.Machine

/-- One step: the next event of the script, or the engine's turn when the environment is silent. -/
def step (s : State) : Host.Outcome State Fault Refusal :=
  match s.events with
  | [] => engineTurn s
  | e :: rest => applyEvent e { s with events := rest }

/-- `s` with the command word `w` accepted and the engine's turn next, so that the next step runs it.
The engine fetches from CMD at acceptance and has no program memory (20_memory.md R94; assumption log 5). -/
def State.withFetchWord (s : State) (nbits w : Nat) : State :=
  s.loadCommand (BitVec.ofNat 32 (w % 2 ^ nbits))

end Sys2Proof.Machine
end

