-- ==== Sys2Proof/Machine/HostProgram.lean ====
section
/-! DEFINITION. The host pseudo-instructions that depend on what the host reads: RDBIG's assembled value and EXEC's poll loop (30_encoding.md R111). -/

namespace Sys2Proof.Machine

/-- The machine after these moves, which are its whole script while they last. -/
def State.runMoves (s : State) (moves : List Event) : Host.Outcome State Fault Refusal :=
  Host.Core.run Sys2Proof.core moves.length { s with events := moves }

/-- The word the latest access read, if it was a legal read (20_memory.md R82). -/
def State.readAnswer (s : State) : Option Word :=
  match s.bus with
  | .okayRead v => some v
  | .okayWrite => none
  | .busError => none
  | .none => none

/-- A read by the host. -/
def Event.isRead : Event → Bool
  | .host ⟨_, _, .read⟩ => true
  | .host ⟨_, _, .write _ _⟩ => false
  | .engine => false
  | .rng _ _ => false
  | .rstAssert => false
  | .rstRelease => false

/-- The words the host's reads among these moves answer, in order. Moves of the other agents may stand between the
reads, and a commit among them tears a multiword value (70_reset_and_hazards.md R388). -/
def State.answers : List Event → State → List Word
  | [], _ => []
  | e :: moves, s =>
    match step { s with events := [e] } with
    | .next t => (if e.isRead then t.readAnswer.toList else []) ++ State.answers moves t
    | .fault _ => []
    | .refused _ => []

/-- "the 512-bit value assembled from" its words, the first word the most significant (30_encoding.md R111, 20_memory.md R86). -/
def bigOfWords (words : List Word) : Big := words.foldl (fun acc w => (acc <<< 32) ||| w.setWidth 512) 0

/-- `RDBIG off`: the value of sixteen reads with no other move between them (30_encoding.md R111). -/
def State.rdBigValue (s : State) (off : Nat) : Big := bigOfWords (s.answers (rdBig off))

/-- The host's last read had STATUS bit 1 set: DONE (30_encoding.md R111). -/
def State.polledDone (s : State) : Bool :=
  match s.readAnswer with
  | some v => v.getLsbD 1
  | none => false

/-- EXEC's "repeat RD 0x008 until bit 1 (DONE) == 1". Each element is one turn of the loop: the moves of the other agents
up to the poll. The loop stops at the first poll that reads DONE = 1; if the list ends first, the host is still polling:
the loop "terminates only if the command commits, which the random source can prevent" (30_encoding.md R111). -/
def State.pollUntilDone : List (List Event) → State → Host.Outcome State Fault Refusal
  | [], s => .next s
  | moves :: rounds, s =>
    match s.runMoves (moves ++ [evRd 0x008]) with
    | .next t => if t.polledDone then .next t else State.pollUntilDone rounds t
    | .fault f => .fault f
    | .refused r => .refused r

/-- `EXEC <command>[, h]` whole: the CMD write, the START write and the poll loop, with the other agents' moves between
the polls given (30_encoding.md R111). Any command may be run so, a drawing one with its answers among the moves. -/
def State.execCommand (s : State) (w : Word) (h irqEn : Bool) (rounds : List (List Event)) : Host.Outcome State Fault Refusal :=
  match s.runMoves (execStart w h irqEn) with
  | .next t => t.pollUntilDone rounds
  | .fault f => .fault f
  | .refused r => .refused r

end Sys2Proof.Machine
end

