-- ==== Sys2Proof/Safety.lean ====
section
/-! DEFINITION. What a safe run is: the contract the environment keeps, and the invariant every step keeps. -/

namespace Sys2Proof.Machine

/-- The environment's contract on one event: no host access while `rst_n` is asserted
(70_reset_and_hazards.md R370), and no answer at or above the bound of the pending request (60_exceptions.md R352). -/
def Event.legalIn (e : Event) (s : State) : Bool :=
  match e with
  | .host _ => !s.inReset
  | .rng id (.value v) =>
    match s.phase with
    | .busy _ (.pending pid bound) _ => id != pid || v < bound
    | .busy _ .idle _ => true
    | .busy _ (.answered _ _) _ => true
    | .idle => true
  | .rng _ .fail => true
  | .engine => true
  | .rstAssert => true
  | .rstRelease => true

/-- The next move keeps the contract. -/
def State.contractHolds (s : State) : Bool :=
  match s.events with
  | [] => true
  | e :: _ => e.legalIn s

/-- A safe step answers a next state. -/
def State.StepsSafely (s : State) : Prop := ∃ t, step s = .next t

/-- "While BUSY, host writes to the operand registers are dropped (rule R50), so the snapshot equals the
registers" (10_state.md R48). -/
def State.SnapshotHeld (s : State) : Prop := ∀ snap rng n, s.phase = .busy snap rng n → snap = s.regs

/-- DONE is 0 from acceptance until commit (10_state.md R51, 70_reset_and_hazards.md R380). -/
def State.BusyNotDone (s : State) : Prop := s.busy = true → s.done = false

/-- An answer that has arrived is below its bound (60_exceptions.md R352), and a pending request has been numbered. -/
def State.DrawLawful (s : State) : Prop :=
  (∀ snap bound v n, s.phase = .busy snap (.answered bound (.value v)) n → v < bound) ∧
  (∀ snap id bound n, s.phase = .busy snap (.pending id bound) n → id < s.requests)

/-- "Every command that ends in an error writes RESULT <- 0 at commit" (10_state.md R45). -/
def State.ErrorClearsResult (s : State) : Prop := s.errcode ≠ .ok → s.result = false

/-- UCV = 1 stands only beside registers that W.CONS accepted: UP in range and at least 2, and a discriminant
that is not 0 (41_weierstrass.md R170; 10_state.md R41, R52; 40_field_ops.md R143). -/
def Regs.CurveValidated (r : Regs) : Prop :=
  r.ucv = true → 2 ≤ r.up.toNat ∧ r.up.toNat < 2 ^ 256 ∧ wDisc r.ua.toNat r.ub.toNat r.up.toNat ≠ 0

/-- "While `rst_n` is asserted, every register holds its reset value" (70_reset_and_hazards.md R370). -/
def State.ResetHeld (s : State) : Prop := s.inReset = true → s.resetRegs = s

/-- The invariant of the machine. -/
structure State.Inv (s : State) : Prop where
  snapshotHeld : s.SnapshotHeld
  busyNotDone : s.BusyNotDone
  drawLawful : s.DrawLawful
  errorClearsResult : s.ErrorClearsResult
  curveValidated : s.regs.CurveValidated
  resetHeld : s.ResetHeld

/-! ## Endless runs and the fairness premise (70_reset_and_hazards.md R381, R385) -/

/-- An endless run: at every instant one agent makes one move, and the machine goes on. -/
def IsRun (move : Nat → Event) (trace : Nat → State) : Prop :=
  ∀ n, step { trace n with events := [move n] } = .next (trace (n + 1))

/-- A draw has arrived that the engine has not read yet. -/
def State.drawArrived (s : State) : Bool :=
  match s.port with
  | .answered _ _ => true
  | .pending _ _ => false
  | .idle => false

/-- The draw that has arrived is degenerate: the engine's turn does not end the command on it but draws again
(42_montgomery.md R235, 43_ecdsa.md R275). -/
def State.drawDegenerate (s : State) : Prop := ∃ t, engineTurn s = .next t ∧ t.busy = true

/-- `RngFair`, the premise on the random source under which every accepted command ends: "every request is answered, and
not every answer is degenerate for ever" (70_reset_and_hazards.md R381). It is "a fairness premise by name ..., never as
a rule": nothing in the model assumes it (assumption log 12). -/
structure RngFair (move : Nat → Event) (trace : Nat → State) : Prop where
  /-- every request is answered, unless a reset abandons it first -/
  answered : ∀ n snap id bound k, (trace n).phase = .busy snap (.pending id bound) k →
    ∃ m, n ≤ m ∧ ((∃ a, move m = .rng id a) ∨ (trace m).busy = false)
  /-- if draws keep arriving, one of those still to come is not degenerate -/
  acceptable : ∀ n, (∀ m, n ≤ m → ∃ j, m ≤ j ∧ (trace j).drawArrived = true) →
    ∃ j, n ≤ j ∧ (trace j).drawArrived = true ∧ ¬ (trace j).drawDegenerate

/-- LATENCY is a number of cycles, "at least 1, with no upper bound" (70_reset_and_hazards.md R385): after every instant
the engine's turn comes again. -/
def EngineMoves (move : Nat → Event) : Prop := ∀ n, ∃ m, n ≤ m ∧ move m = .engine

end Sys2Proof.Machine
end

