-- ==== Sys2Proof/Certificates/Slice0/Obligations.lean ====
section
/-! DEFINITION. The statements for the provers: what the commands, the register window, acceptance, reset and the random source do, said in the spec's terms. -/

open Sys2Proof Sys2Proof.Machine

/-! ## Words the statements share -/

/-- Everything but the registers, the flags of a commit, the phase and the model's counters is the same. -/
def Sys2Proof.Claims.SameAround (s t : State) : Prop :=
  t.irqEn = s.irqEn ∧ t.ovr = s.ovr ∧ t.inReset = s.inReset ∧ t.events = s.events ∧ t.bus = s.bus

/-- "Commit with success": the registers are `r`, ERRCODE is 0, RESULT is `res`, DONE is 1, the engine is IDLE,
and nothing else has changed (60_exceptions.md R331). -/
def Sys2Proof.Claims.Committed (s : State) (r : Regs) (res : Bool) (t : State) : Prop :=
  t.regs = r ∧ t.errcode = .ok ∧ t.result = res ∧ t.done = true ∧ t.phase = .idle ∧ Claims.SameAround s t

/-- "Commit with error": the registers are `r`, which no destination write has changed, ERRCODE is `e`, RESULT is 0,
DONE is 1, the engine is IDLE, and nothing else has changed (60_exceptions.md R331, R332). -/
def Sys2Proof.Claims.Failed (s : State) (r : Regs) (e : ErrCode) (t : State) : Prop :=
  t.regs = r ∧ t.errcode = e ∧ t.result = false ∧ t.done = true ∧ t.phase = .idle ∧ Claims.SameAround s t

/-- The engine waits for the answer to a new request with this bound, which has a fresh number; no register and no flag
has changed (60_exceptions.md R352, R353). The numbering is the model's (assumption log 4). -/
def Sys2Proof.Claims.Requests (s : State) (bound : Nat) (t : State) : Prop :=
  t.regs = s.regs ∧ t.errcode = s.errcode ∧ t.result = s.result ∧ t.done = s.done ∧
    (∃ n, t.phase = .busy s.inputs (.pending s.requests bound) n) ∧ t.requests = s.requests + 1 ∧ Claims.SameAround s t

/-- The offsets the address map marks reserved (20_memory.md R87). -/
def Sys2Proof.Claims.ReservedOffset (off : Nat) : Prop :=
  (0x01C ≤ off ∧ off ≤ 0x03F) ∨ (0x084 ≤ off ∧ off ≤ 0x0BF) ∨ (0x840 ≤ off ∧ off ≤ 0xFFF)

/-- A host access changed no state but the registers and its own response: not IRQ_EN, DONE, RESULT, OVR, ERRCODE, the
phase, the reset pin or the model's own fields. -/
def Sys2Proof.Claims.OnlyRegs (s t : State) : Prop := { t with regs := s.regs, bus := s.bus } = s

/-- The value `v` the random source drew for this command's request has arrived. -/
def Sys2Proof.Claims.Drew (s : State) (bound v : Nat) : Prop := s.port = .answered bound (.value v)

/-- A Weierstrass operand whose stored Y is not a non-zero multiple of p (41_weierstrass.md R183). -/
def Sys2Proof.Claims.YRegular (p : Nat) : Point → Prop
  | .identity => True
  | .finite _ y => y = 0 ∨ y % p ≠ 0

/-- The curve equation in the field of `p` elements (41_weierstrass.md R188). -/
def Sys2Proof.Claims.OnCurve (c : Curve) (x y : Nat) : Prop :=
  (y : ZMod c.p) ^ 2 = (x : ZMod c.p) ^ 3 + c.a * x + c.b

/-- The Montgomery right-hand side `x³ + A·x² + x` in the field of P25519 elements (42_montgomery.md R244). -/
def Sys2Proof.Claims.montRhs (x : ZMod P25519) : ZMod P25519 := x ^ 3 + 486662 * x ^ 2 + x

/-- The K register a command writes, for the commands that write exactly one (10_state.md R30). -/
def Sys2Proof.Claims.scalarDest? : Instr → Option KIdx
  | .ldc kd _ | .h2i kd | .fadd kd _ _ _ | .fsub kd _ _ _ | .fmul kd _ _ _ | .fpow kd _ _ _ => some kd
  | .finv kd _ _ | .fleg kd _ _ | .fsqrt kd _ _ | .weval kd _ _ | .maffx kd _ => some kd
  | .nop | .wldg _ | .mldg _ | .fprime _ | .wcons | .wadd _ _ _ _ | .wdbl _ _ _ | .wneg _ _ _ => none
  | .wmul _ _ _ _ | .wvalid _ _ | .wenc _ _ | .wdec _ _ | .madd _ _ _ | .mdbl _ _ | .mmul _ _ _ => none
  | .meval _ | .mvalid _ | .mrand _ | .ekeygen _ _ | .esign _ | .everify _ => none

/-- The PR register a command writes, for the commands that write exactly one and no K register (10_state.md R37). -/
def Sys2Proof.Claims.pointDest? : Instr → Option PIdx
  | .wldg pd | .mldg pd | .wadd pd _ _ _ | .wdbl pd _ _ | .wneg pd _ _ | .wmul pd _ _ _ | .wdec pd _ => some pd
  | .madd pd _ _ | .mdbl pd _ | .mmul pd _ _ | .mrand pd => some pd
  | .nop | .ldc _ _ | .h2i _ | .fadd _ _ _ _ | .fsub _ _ _ _ | .fmul _ _ _ _ | .fpow _ _ _ _ => none
  | .finv _ _ _ | .fleg _ _ _ | .fsqrt _ _ _ | .fprime _ | .wcons | .weval _ _ _ | .wvalid _ _ => none
  | .wenc _ _ | .meval _ | .mvalid _ | .maffx _ _ | .ekeygen _ _ | .esign _ | .everify _ => none

/-- The commands that write RESULT with a boolean outcome (10_state.md R45). -/
def Sys2Proof.Claims.writesResult : Instr → Bool
  | .wvalid _ _ | .mvalid _ | .meval _ | .fprime _ | .everify _ => true
  | .nop | .ldc _ _ | .wldg _ | .mldg _ | .h2i _ | .fadd _ _ _ _ | .fsub _ _ _ _ | .fmul _ _ _ _ => false
  | .fpow _ _ _ _ | .finv _ _ _ | .fleg _ _ _ | .fsqrt _ _ _ | .wcons | .wadd _ _ _ _ | .wdbl _ _ _ => false
  | .wneg _ _ _ | .wmul _ _ _ _ | .weval _ _ _ | .wenc _ _ | .wdec _ _ | .madd _ _ _ | .mdbl _ _ => false
  | .mmul _ _ _ | .mrand _ | .maffx _ _ | .ekeygen _ _ | .esign _ => false

/-- The commands that draw from the random source (60_exceptions.md R352). -/
def Sys2Proof.Claims.draws : Instr → Bool
  | .mrand _ | .ekeygen _ _ | .esign _ => true
  | .nop | .ldc _ _ | .wldg _ | .mldg _ | .h2i _ | .fadd _ _ _ _ | .fsub _ _ _ _ | .fmul _ _ _ _ => false
  | .fpow _ _ _ _ | .finv _ _ _ | .fleg _ _ _ | .fsqrt _ _ _ | .fprime _ | .wcons | .wadd _ _ _ _ => false
  | .wdbl _ _ _ | .wneg _ _ _ | .wmul _ _ _ _ | .weval _ _ _ | .wvalid _ _ | .wenc _ _ | .wdec _ _ => false
  | .madd _ _ _ | .mdbl _ _ | .mmul _ _ _ | .meval _ | .mvalid _ | .maffx _ _ | .everify _ => false

/-- The commands "that can raise no error beyond decode" (60_exceptions.md R337). -/
def Sys2Proof.Claims.noErrorBeyondDecode : Instr → Bool
  | .nop | .ldc _ _ | .wldg _ | .mldg _ | .h2i _ | .fadd _ _ _ _ | .fsub _ _ _ _ | .fmul _ _ _ _ => true
  | .fpow _ _ _ _ | .fleg _ _ _ | .fsqrt _ _ _ | .fprime _ | .wneg _ _ _ | .wvalid _ _ => true
  | .madd _ _ _ | .mdbl _ _ | .mmul _ _ _ | .mvalid _ => true
  | .finv _ _ _ | .wcons | .wadd _ _ _ _ | .wdbl _ _ _ | .wmul _ _ _ _ | .weval _ _ _ | .wenc _ _ => false
  | .wdec _ _ | .meval _ | .mrand _ | .maffx _ _ | .ekeygen _ _ | .esign _ | .everify _ => false

/-- The bits of a command word that its row uses: OP and RSV, and the fields of its "fields used" column
(30_encoding.md R100, R104). -/
def Sys2Proof.Claims.usedMask : Instr → Word
  | .nop | .wcons => 0xE000003F
  | .ldc _ _ => 0xFC03803F
  | .wldg _ | .mldg _ | .mrand _ => 0xE00001FF
  | .h2i _ => 0xE003803F
  | .fadd _ _ _ _ | .fsub _ _ _ _ | .fmul _ _ _ _ | .fpow _ _ _ _ => 0xFCFF803F
  | .finv _ _ _ | .fleg _ _ _ | .fsqrt _ _ _ => 0xFC1F803F
  | .fprime _ | .esign _ => 0xE01C003F
  | .wadd _ _ _ _ => 0xE1007FFF
  | .wdbl _ _ _ | .wneg _ _ _ => 0xE1000FFF
  | .wmul _ _ _ _ => 0xE11C0FFF
  | .weval _ _ _ => 0xE11F803F
  | .wvalid _ _ => 0xE1000E3F
  | .wenc _ _ => 0xE2000E3F
  | .wdec _ _ => 0xE10001FF
  | .madd _ _ _ => 0xE0007FFF
  | .mdbl _ _ => 0xE0000FFF
  | .mmul _ _ _ => 0xE01C0FFF
  | .meval _ | .mvalid _ | .everify _ => 0xE0000E3F
  | .maffx _ _ => 0xE0038E3F
  | .ekeygen _ _ => 0xE00381FF

/-! ## Encoding -/

/-- Decode and encode agree, for every command and every operand value (30_encoding.md R100, R104, R110). -/
def Obligations.DecodeOfEncodeIsIdentity : Prop := ∀ i : Instr, decode (encode i) = .ok i

/-- A word is a command exactly when RSV is 0 and OP is none of the reserved opcodes (30_encoding.md R106). -/
def Obligations.ReservedWordsAreRejected : Prop :=
  ∀ w : Word,
    (w.toNat / 2 ^ 29 ≠ 0 → decode w = .error .reservedBits) ∧
    (w.toNat / 2 ^ 29 = 0 →
      let op := w.toNat % 64
      (decode w = .error .reservedOpcode ↔
        (0x05 ≤ op ∧ op ≤ 0x07) ∨ (0x19 ≤ op ∧ op ≤ 0x1F) ∨ (0x27 ≤ op ∧ op ≤ 0x2F) ∨ (0x33 ≤ op ∧ op ≤ 0x3F)) ∧
      (decode w ≠ .error .reservedOpcode → ∃ i, decode w = .ok i ∧ i.opcode = op))

/-- Fields a command does not use do not affect decoding (30_encoding.md R105). -/
def Obligations.UnusedFieldsDoNotAffectDecoding : Prop :=
  ∀ (w w' : Word) (i : Instr), decode w = .ok i → w' &&& Claims.usedMask i = w &&& Claims.usedMask i → decode w' = .ok i

/-- Words the spec writes out decode to their commands (95_test_vectors.md, 44_system.md R311 to R313). -/
def Obligations.SpecWordsDecode : Prop :=
  decode 0x04000001 = .ok (.ldc 0 .n256) ∧ decode 0x00000043 = .ok (.mldg 1) ∧
  decode 0x10210008 = .ok (.fadd 2 0 1 .up) ∧ decode 0x01001091 = .ok (.wadd 2 0 1 .user) ∧
  decode 0x02000017 = .ok (.wenc 0 .compressed) ∧ decode 0x000004E0 = .ok (.madd 3 2 0) ∧
  decode 0x00008026 = .ok (.maffx 1 0) ∧ decode 0x00000232 = .ok (.everify 1)

/-! ## The step, acceptance and commit -/

/-- The engine's turn runs the command the snapshot's CMD decodes to, whether the script names the turn or is
empty; a word that is no command commits ILLEGAL_CMD. -/
def Obligations.StepRunsTheAcceptedCommand : Prop :=
  ∀ (s u : State) (snap : Regs) (rng : RngPort) (n : Nat),
    s.inReset = false → s.phase = .busy snap rng n → (∀ id b, rng ≠ .pending id b) →
    ((s.events = [] ∧ u = s) ∨ ∃ rest, s.events = .engine :: rest ∧ u = { s with events := rest }) →
    (∀ i, decode snap.cmd = .ok i → step s = exec i u) ∧
    (∀ e, decode snap.cmd = .error e → ∃ t, step s = .next t ∧ Claims.Failed u s.regs .illegalCmd t)

/-- CTRL while idle, with SRST = 0: the write stores HARDEN and IRQ_EN; with START = 1 it also accepts the command: the
snapshot is taken with the HARDEN just written, DONE falls, and ERRCODE and RESULT keep their values; without START
nothing else changes. CTRL reads HARDEN and IRQ_EN at their bits and 0 elsewhere (10_state.md R33; 60_exceptions.md R330). -/
def Obligations.ControlRegister : Prop :=
  ∀ (s : State) (v : Word),
    (s.busy = false → v.getLsbD 3 = false → v.getLsbD 0 = true →
      ∃ t, s.access ⟨0x004, 4, .write 0b1111 v⟩ = t ∧
        t.regs = { s.regs with harden := v.getLsbD 1 } ∧ t.irqEn = v.getLsbD 2 ∧ t.done = false ∧
        t.phase = .busy { s.regs with harden := v.getLsbD 1 } .idle 0 ∧
        t.errcode = s.errcode ∧ t.result = s.result ∧ t.ovr = s.ovr ∧ t.bus = .okayWrite) ∧
    (s.busy = false → v.getLsbD 3 = false → v.getLsbD 0 = false →
      s.access ⟨0x004, 4, .write 0b1111 v⟩ =
        { s with regs := { s.regs with harden := v.getLsbD 1 }, irqEn := v.getLsbD 2, bus := .okayWrite }) ∧
    ∀ j, (s.readWord (target 0x004)).getLsbD j =
      if j = 1 then s.regs.harden else if j = 2 then s.irqEn else false

/-- EXEC's CMD and CTRL writes, from an idle engine, accept the written word with the written mode, and the engine's
turn that follows runs the command it decodes to, before the STATUS read. The poll loop of EXEC ends at the first poll
after the commit: in its first turn for a command without a draw, in the turn after the answer for E.KEYGEN; without an
answer it never sees DONE, however long it polls (30_encoding.md R111; 60_exceptions.md R330, R353). -/
def Obligations.ExecPseudoInstructionRunsTheCommand : Prop :=
  ∀ (s : State) (w : Word) (h q : Bool) (i : Instr), s.busy = false → s.inReset = false → decode w = .ok i →
    (∀ rest, s.events = execScript w h q ++ rest →
      ∃ u, Host.Core.run Sys2Proof.core 2 s = .next u ∧ u.regs = { s.regs with cmd := w, harden := h } ∧
        u.inputs = u.regs ∧ u.busy = true ∧ u.done = false ∧ u.irqEn = q ∧
        step u = exec i { u with events := evRd 0x008 :: rest }) ∧
    (Claims.draws i = false → ∀ rounds, ∃ u v t, u.regs = { s.regs with cmd := w, harden := h } ∧ u.inputs = u.regs ∧
      u.busy = true ∧ exec i u = .next v ∧ s.execCommand w h q ([.engine] :: rounds) = .next t ∧
      t.regs = v.regs ∧ t.errcode = v.errcode ∧ t.result = v.result ∧ t.busy = false ∧ t.done = true ∧
      t.bus = .okayRead t.statusWord) ∧
    (∀ pd kd d rounds, i = .ekeygen pd kd → d < N256 →
      ∃ t, s.execCommand w h q ([.engine] :: [.rng s.requests (.value d), .engine] :: rounds) = .next t ∧
        t.busy = false ∧ t.done = true ∧ t.errcode = .ok ∧ t.regs.k[kd].toNat = d ∧ t.bus = .okayRead t.statusWord) ∧
    (Claims.draws i = true → ∀ n, ∃ t, s.execCommand w h q (List.replicate n [.engine]) = .next t ∧
      t.busy = true ∧ t.done = false ∧ t.polledDone = false)

/-- Until a command commits, and short of a reset, no step changes a register, ERRCODE, RESULT or the snapshot
(10_state.md R48). -/
def Obligations.BusyStepsChangeNoRegister : Prop :=
  ∀ s t : State, step s = .next t → s.busy = true → t.busy = true →
    t.regs = s.regs ∧ t.errcode = s.errcode ∧ t.result = s.result ∧ t.inputs = s.inputs ∧ t.irqEn = s.irqEn

/-- A command that ends in an error writes no destination register; of the registers UCV is the one exception,
for W.CONS (10_state.md R48, 60_exceptions.md R331). -/
def Obligations.ErrorCommitWritesNoDestination : Prop :=
  ∀ (i : Instr) (s t : State), exec i s = .next t → s.busy = true → t.busy = false → t.errcode ≠ .ok →
    (i ≠ .wcons → t.regs = s.regs) ∧ { t.regs with ucv := s.regs.ucv } = s.regs ∧ t.result = false ∧ t.done = true

/-- RESULT is 1 after a commit only for the five commands with a boolean outcome (10_state.md R45), every commit sets
DONE (R51), and it moves the library-draw index on, so no two commands share a draw (assumption log 1). -/
def Obligations.OnlyBooleanCommandsSetResult : Prop :=
  ∀ (i : Instr) (s t : State), exec i s = .next t → s.busy = true → t.busy = false →
    (Claims.writesResult i = false → t.result = false) ∧ (t.errcode ≠ .ok → t.result = false) ∧ t.done = true ∧
      t.draws = s.draws + 1

/-- Once decode has passed, the commands of 60_exceptions.md R337 commit with ERRCODE = 0. -/
def Obligations.NoErrorBeyondDecode : Prop :=
  ∀ (i : Instr) (s : State), Claims.noErrorBeyondDecode i = true → i.wf = true →
    (i.curveSel? = some .user → s.inputs.ucv = true) → (i.modSel? = some .up → s.inputs.ucv = true) →
    ∃ t, exec i s = .next t ∧ t.errcode = .ok ∧ t.busy = false ∧ t.done = true

/-- A reserved MS gives ILLEGAL_CMD; CS = 1 or MS = 4 with UCV = 0 gives NO_CURVE (30_encoding.md R102, R103, R106). -/
def Obligations.ReservedModulusAndMissingCurveFail : Prop :=
  ∀ (i : Instr) (s : State),
    (i.wf = false → ∃ t, exec i s = .next t ∧ Claims.Failed s s.regs .illegalCmd t) ∧
    (s.inputs.ucv = false → i.curveSel? = some .user ∨ i.modSel? = some .up →
      ∃ t, exec i s = .next t ∧ Claims.Failed s s.regs .noCurve t)

/-! ## Invariants and whole-machine rules -/

/-- Every step keeps the invariant of Safety.lean: the snapshot equals the registers while BUSY, DONE is 0 while
BUSY, draws are below their bound, an error has RESULT 0, UCV = 1 stands beside a validated curve, and an asserted
`rst_n` holds the reset state. -/
def Obligations.StepKeepsTheInvariant : Prop := ∀ s t : State, s.Inv → step s = .next t → t.Inv

/-- The invariant holds at reset. -/
def Obligations.ResetMeetsTheInvariant : Prop := State.reset.Inv

/-- A step is never refused, and it faults only where the environment breaks its contract; where the contract
holds it answers a next state (60_exceptions.md R333). -/
def Obligations.StepFaultsOnlyOnBrokenContract : Prop :=
  (∀ (s : State) (r : Refusal), step s ≠ .refused r) ∧
  (∀ s : State, s.contractHolds = true → s.StepsSafely) ∧
  (∀ s : State, s.contractHolds = false → ∃ f, step s = .fault f)

/-- UCV rises only at the commit of a W.CONS whose checks passed, and falls only at a failed W.CONS, at a host write
to UA, UB or UP, or at a reset (10_state.md R52). -/
def Obligations.UcvChangesOnlyByItsRules : Prop :=
  ∀ s t : State, step s = .next t → s.regs.ucv ≠ t.regs.ucv →
    (∃ snap rng n, s.phase = .busy snap rng n ∧ decode snap.cmd = .ok .wcons ∧ t.busy = false ∧ t.done = true ∧
      (t.errcode = .ok ↔ t.regs.ucv = true)) ∨
    (t.regs.ucv = false ∧ ∃ a rest, s.events = .host a :: rest ∧ a.legal = true ∧ s.busy = false ∧
      (∃ v, a.kind = .write 0b1111 v) ∧ ∃ w, target a.off.toNat = .big .ua w ∨ target a.off.toNat = .big .ub w ∨ target a.off.toNat = .big .up w) ∨
    (t.regs = Regs.reset ∧ t.phase = .idle)

/-- `irq` rises only at a commit, or when the host sets IRQ_EN while DONE = 1 (60_exceptions.md R348). -/
def Obligations.IrqRisesOnlyAtCommitOrEnable : Prop :=
  (∀ s : State, s.irq = (s.irqEn && s.done)) ∧
  ∀ s t : State, step s = .next t → s.irq = false → t.irq = true →
    (s.busy = true ∧ t.busy = false ∧ t.done = true ∧ s.irqEn = true) ∨
    (s.busy = false ∧ s.done = true ∧ s.irqEn = false ∧ ∃ v rest, s.events = .host ⟨0x004, 4, .write 0b1111 v⟩ :: rest ∧
      v.getLsbD 2 = true)

/-! ## Reset and the random source -/

/-- What reset leaves (70_reset_and_hazards.md R371), read through the window: every register 0 but ID and DLEN. -/
def Obligations.ResetLeavesTheStatedValues : Prop :=
  State.reset.readWord .id = 0x45434301 ∧ State.reset.readWord .ctrl = 0 ∧ State.reset.readWord .status = 0 ∧
  State.reset.readWord .cmd = 0 ∧ State.reset.readWord .pinf = 0 ∧ State.reset.readWord .elen = 0 ∧
  State.reset.readWord .dlen = 32 ∧ (∀ w, State.reset.readWord (.ebuf w) = 0) ∧
  (∀ w, State.reset.readWord (.digest w) = 0) ∧ (∀ b, State.reset.regs.bigReg b = 0) ∧
  State.reset.phase = .idle ∧ State.reset.irq = false

/-- A CTRL write with SRST = 1, in any phase, gives the reset state in one step: the other CTRL bits and START are
ignored, OVR is not set, a running command is aborted, and an answer that comes later is discarded
(70_reset_and_hazards.md R373). The reset keeps the model's counters, so a later request has another number than the
abandoned one (assumption log 1, 4). -/
def Obligations.SoftResetGivesTheResetState : Prop :=
  ∀ (s : State) (v : Word), v.getLsbD 3 = true →
    ∃ t, s.access ⟨0x004, 4, .write 0b1111 v⟩ = t ∧
      t.regs = Regs.reset ∧ t.irqEn = false ∧ t.done = false ∧ t.result = false ∧ t.ovr = false ∧
      t.errcode = .ok ∧ t.phase = .idle ∧ t.irq = false ∧ t.inReset = s.inReset ∧ t.requests = s.requests ∧
      t.draws = s.draws ∧
      ∀ id a, t.deliver id a = .next t

/-- While `rst_n` is asserted every register holds its reset value and the engine takes no step, whether its turn is
named in the script or the script is empty (70_reset_and_hazards.md R370). The model's counters stay (log 1, 4). -/
def Obligations.HardResetHoldsTheResetState : Prop :=
  ∀ (s : State) (rest : List Event), s.events = .rstAssert :: rest →
    ∃ t, step s = .next t ∧ t.inReset = true ∧ t.regs = Regs.reset ∧ t.irqEn = false ∧ t.done = false ∧
      t.result = false ∧ t.ovr = false ∧ t.errcode = .ok ∧ t.phase = .idle ∧ t.events = rest ∧
      t.requests = s.requests ∧ t.draws = s.draws ∧
      ∀ u, u.inReset = true → (u.events = [] → step u = .next u) ∧
        ∀ more, u.events = .engine :: more → step u = .next { u with events := more }

/-- A pending request freezes the engine until its answer comes: the engine's turn, named in the script or taken because
it is empty, changes nothing, the answer to another request changes nothing, and the awaited answer is handed over
(60_exceptions.md R352, R353). No step lowers the number of the next request (assumption log 4). -/
def Obligations.PendingRequestFreezesTheEngine : Prop :=
  (∀ s t : State, step s = .next t → s.requests ≤ t.requests) ∧
  ∀ (s : State) (snap : Regs) (id bound n : Nat) (a : RngAnswer), s.phase = .busy snap (.pending id bound) n →
    (s.events = [] → step s = .next s) ∧
    (∀ rest, s.events = .engine :: rest → step s = .next { s with events := rest }) ∧
    (∀ j rest, j ≠ id → s.events = .rng j a :: rest → step s = .next { s with events := rest }) ∧
    (∀ rest, (∀ v, a = .value v → v < bound) → s.events = .rng id a :: rest →
      step s = .next { s with events := rest, phase := .busy snap (.answered bound a) n })

/-- The three drawing commands ask for one value below their bound when they start, and end with RNG_FAIL, no
destination written, when the source fails (60_exceptions.md R352, R336). The new request has a fresh number, and the late
answer to any earlier one, such as one a reset abandoned, is discarded (70_reset_and_hazards.md R373; log 4). -/
def Obligations.DrawingCommandsRequestAndReportFailure : Prop :=
  ∀ (s : State) (pd : PIdx) (kd ka : KIdx),
    (s.port = .idle →
      (∃ t, exec (.mrand pd) s = .next t ∧ Claims.Requests s N25519 t) ∧
      (∃ t, exec (.ekeygen pd kd) s = .next t ∧ Claims.Requests s N256 t) ∧
      (∃ t, exec (.esign ka) s = .next t ∧ Claims.Requests s N256 t)) ∧
    (∀ bound t id a, Claims.Requests s bound t → id < s.requests → t.deliver id a = .next t) ∧
    (∀ bound, s.port = .answered bound .fail →
      (∃ t, exec (.mrand pd) s = .next t ∧ Claims.Failed s s.regs .rngFail t) ∧
      (∃ t, exec (.ekeygen pd kd) s = .next t ∧ Claims.Failed s s.regs .rngFail t) ∧
      (∃ t, exec (.esign ka) s = .next t ∧ Claims.Failed s s.regs .rngFail t))

/-! ## The register window -/

/-- The access primitive: any access that is not 32 bits, not aligned, or a write without all strobes gets a bus error
and changes no state, not even OVR; a legal read answers the word at its offset and has no side effect, and at a
reserved offset it answers 0 (20_memory.md R83, R88, R89). -/
def Obligations.IllegalAccessesAndReadsChangeNothing : Prop :=
  (∀ (s : State) (a : HostAccess),
    (a.size ≠ 4 ∨ a.off.toNat % 4 ≠ 0 ∨ ∃ m v, a.kind = .write m v ∧ m ≠ 0b1111) →
    s.access a = { s with bus := .busError }) ∧
  ∀ (s : State) (off : BitVec 12), off.toNat % 4 = 0 →
    s.access ⟨off, 4, .read⟩ = { s with bus := .okayRead (s.readWord (target off.toNat)) } ∧
    (Claims.ReservedOffset off.toNat → s.access ⟨off, 4, .read⟩ = { s with bus := .okayRead 0 })

/-- While BUSY a write to any register but STATUS (0x008) is dropped and sets OVR, unless it is a CTRL write (0x004)
with SRST = 1; writes to ID (0x000) and to reserved offsets are ignored in any phase and never set OVR (10_state.md R50,
20_memory.md R87, R88; 70_reset_and_hazards.md R382). -/
def Obligations.BusyWritesAreDroppedWithOvr : Prop :=
  ∀ (s : State) (off : BitVec 12) (v : Word), off.toNat % 4 = 0 →
    (off.toNat = 0x000 ∨ Claims.ReservedOffset off.toNat →
      s.access ⟨off, 4, .write 0b1111 v⟩ = { s with bus := .okayWrite }) ∧
    (s.busy = true → off.toNat ≠ 0x000 → ¬ Claims.ReservedOffset off.toNat → off.toNat ≠ 0x008 →
      (off.toNat = 0x004 → v.getLsbD 3 = false) →
      s.access ⟨off, 4, .write 0b1111 v⟩ = { s with ovr := true, bus := .okayWrite })

/-- STATUS: a write clears DONE and OVR where it writes 1, leaves them where it writes 0, and changes nothing else,
BUSY or not; a read gives the flags at their bits, the number that 60_exceptions.md R336 gives the error code in bits
11:8, and 0 in the reserved bits (10_state.md R34). -/
def Obligations.StatusRegister : Prop :=
  ∀ (s : State) (v : Word),
    s.access ⟨0x008, 4, .write 0b1111 v⟩ =
      { s with done := if v.getLsbD 1 then false else s.done, ovr := if v.getLsbD 3 then false else s.ovr, bus := .okayWrite } ∧
    (s.readWord (target 0x008)).getLsbD 0 = s.busy ∧ (s.readWord (target 0x008)).getLsbD 1 = s.done ∧
    (s.readWord (target 0x008)).getLsbD 2 = s.result ∧ (s.readWord (target 0x008)).getLsbD 3 = s.ovr ∧
    (s.readWord (target 0x008)).getLsbD 4 = s.regs.ucv ∧ (s.readWord (target 0x008)).extractLsb' 5 3 = 0 ∧
    (s.readWord (target 0x008)).extractLsb' 8 4 =
      (match s.errcode with
      | .ok => 0
      | .illegalCmd => 1
      | .singularCurve => 2
      | .pointNotOnCurve => 3
      | .encPrefix => 4
      | .rngFail => 5
      | .notInvertible => 6
      | .noCurve => 7
      | .encLength => 8
      | .range => 9
      | .identity => 10) ∧ (s.readWord (target 0x008)).extractLsb' 12 20 = 0

/-- Each 512-bit register is reached through its sixteen words: a write while idle replaces one word of one
register at the offset the address map gives it, and every other word of every 512-bit register is as before; a write to
UA, UB or UP also clears UCV; no write changes an INF bit, another register, a flag or OVR (20_memory.md R86, R87, R90;
10_state.md R38, R41). -/
def Obligations.BigWindowWriteReplacesOneWord : Prop :=
  (∀ i, (BigReg.prX i).offset = 0x100 + 0x80 * i.val ∧ (BigReg.prY i).offset = 0x140 + 0x80 * i.val) ∧
  (∀ i, (BigReg.k i).offset = 0x500 + 0x40 * i.val) ∧ BigReg.offset .sigR = 0x700 ∧ BigReg.offset .sigS = 0x740 ∧
  BigReg.offset .ua = 0x780 ∧ BigReg.offset .ub = 0x7C0 ∧ BigReg.offset .up = 0x800 ∧
  ∀ (s : State) (b : BigReg) (w : Nat) (v : Word), w < 16 → s.busy = false →
    ∃ t, s.access ⟨BitVec.ofNat 12 (b.offset + 4 * w), 4, .write 0b1111 v⟩ = t ∧ t.bus = .okayWrite ∧
      t.readWord (target (b.offset + 4 * w)) = v ∧
      (∀ c u, u < 16 → (c, u) ≠ (b, w) → t.readWord (target (c.offset + 4 * u)) = s.readWord (target (c.offset + 4 * u))) ∧
      (t.regs.ucv = if b = .ua ∨ b = .ub ∨ b = .up then false else s.regs.ucv) ∧
      t.regs.pinfWord = s.regs.pinfWord ∧ Claims.OnlyRegs s t ∧
      { t.regs with
        k := s.regs.k, pr := s.regs.pr, sigR := s.regs.sigR, sigS := s.regs.sigS
        ua := s.regs.ua, ub := s.regs.ub, up := s.regs.up, ucv := s.regs.ucv } = s.regs

/-- The bytes of a 512-bit register's window, read in order, are `be_64` of its value (20_memory.md R86); the sixteen
reads of RDBIG assemble its value, and the sixteen writes of WRBIG leave exactly the written value in it
(30_encoding.md R111). -/
def Obligations.BigWindowsHoldBigEndianValues : Prop :=
  (∀ (s : State) (b : BigReg), (List.range 64).map (fun j =>
      wordByte (s.readWord (target (b.offset + 4 * (j / 4)))) (j % 4)) = beBytes 64 (s.regs.bigReg b).toNat) ∧
  (∀ (s : State) (b : BigReg), s.inReset = false → s.rdBigValue b.offset = s.regs.bigReg b) ∧
  ∀ (s : State) (b : BigReg) (v : Big) (rest : List Event), s.busy = false → s.inReset = false →
    s.events = wrBig b.offset v ++ rest →
    ∃ t, Host.Core.run Sys2Proof.core 16 s = .next t ∧ t.regs.bigReg b = v ∧
      (∀ c, c ≠ b → t.regs.bigReg c = s.regs.bigReg c) ∧ t.events = rest ∧ t.busy = false

/-- Byte `j` of EBUF and of DIGEST stands big-endian in its word; EBUF bytes 65 to 67 read 0; a write while idle
stores the four bytes of its word, ignores bytes 65 to 67, and changes nothing else (20_memory.md R85, R90; 10_state.md
R42, R43). -/
def Obligations.ByteBuffersAreBigEndian : Prop :=
  ∀ (s : State) (j w : Nat) (x : Word), s.busy = false →
    (j < 68 → wordByte (s.readWord (target (0x040 + 4 * (j / 4)))) (j % 4) = if h : j < 65 then s.regs.ebuf[j] else 0) ∧
    (∀ h : j < 64, wordByte (s.readWord (target (0x0C0 + 4 * (j / 4)))) (j % 4) = s.regs.digest[j]) ∧
    (w < 17 → ∀ h : j < 65, (s.access ⟨BitVec.ofNat 12 (0x040 + 4 * w), 4, .write 0b1111 x⟩).regs.ebuf[j] =
      if j / 4 = w then wordByte x (j % 4) else s.regs.ebuf[j]) ∧
    (w < 16 → ∀ h : j < 64, (s.access ⟨BitVec.ofNat 12 (0x0C0 + 4 * w), 4, .write 0b1111 x⟩).regs.digest[j] =
      if j / 4 = w then wordByte x (j % 4) else s.regs.digest[j]) ∧
    (w < 17 → ∃ t, s.access ⟨BitVec.ofNat 12 (0x040 + 4 * w), 4, .write 0b1111 x⟩ = t ∧ t.bus = .okayWrite ∧
      Claims.OnlyRegs s t ∧ { t.regs with ebuf := s.regs.ebuf } = s.regs) ∧
    (w < 16 → ∃ t, s.access ⟨BitVec.ofNat 12 (0x0C0 + 4 * w), 4, .write 0b1111 x⟩ = t ∧ t.bus = .okayWrite ∧
      Claims.OnlyRegs s t ∧ { t.regs with digest := s.regs.digest } = s.regs)

/-- CMD, PINF, ELEN, DLEN and ID. Reads in any state: ID reads its constant, CMD its 32 bits, PINF bit i is PRi.INF and
bits 31:8 read 0, ELEN and DLEN their lengths. Writes while idle: CMD stores all 32 bits, PINF sets the eight INF bits and
no coordinate, ELEN is capped at 65 and DLEN at 64, bits above 6 ignored, and each changes nothing else
(10_state.md R32, R35, R38, R42, R43; 20_memory.md R90). -/
def Obligations.SmallRegisterWrites : Prop :=
  (∀ s : State, s.readWord (target 0x000) = 0x45434301 ∧ s.readWord (target 0x00C) = s.regs.cmd ∧
    (∀ j, (s.readWord (target 0x010)).getLsbD j = if h : j < 8 then s.regs.pr[j].inf else false) ∧
    (s.readWord (target 0x014)).toNat = s.regs.elen.val ∧ (s.readWord (target 0x018)).toNat = s.regs.dlen.val) ∧
  ∀ (s : State) (v : Word), s.busy = false →
    (s.access ⟨0x00C, 4, .write 0b1111 v⟩ = { s with regs := { s.regs with cmd := v }, bus := .okayWrite }) ∧
    (∃ t, s.access ⟨0x010, 4, .write 0b1111 v⟩ = t ∧ t.bus = .okayWrite ∧ Claims.OnlyRegs s t ∧
      { t.regs with pr := s.regs.pr } = s.regs ∧
      ∀ i : PIdx, t.regs.pr[i] = { s.regs.pr[i] with inf := v.getLsbD i.val }) ∧
    (∃ t, s.access ⟨0x014, 4, .write 0b1111 v⟩ = t ∧ t.bus = .okayWrite ∧ Claims.OnlyRegs s t ∧
      { t.regs with elen := s.regs.elen } = s.regs ∧
      t.regs.elen.val = if 65 < v.toNat % 128 then 65 else v.toNat % 128) ∧
    (∃ t, s.access ⟨0x018, 4, .write 0b1111 v⟩ = t ∧ t.bus = .okayWrite ∧ Claims.OnlyRegs s t ∧
      { t.regs with dlen := s.regs.dlen } = s.regs ∧
      t.regs.dlen.val = if 64 < v.toNat % 128 then 64 else v.toNat % 128)

/-! ## Constant loads, control and field operations -/

/-- NOP commits and changes no register; W.LDG and M.LDG load the base points; LDC loads the modulus that MS names
(44_system.md R310 to R313). -/
def Obligations.ConstantLoadsAndNop : Prop :=
  ∀ (s : State) (kd : KIdx) (pd : PIdx),
    (∃ t, exec .nop s = .next t ∧ Claims.Committed s s.regs false t) ∧
    (∃ t, exec (.ldc kd .p256) s = .next t ∧ Claims.Committed s (s.regs.setK kd (2 ^ 256 - 2 ^ 32 - 977)) false t) ∧
    (∃ t, exec (.ldc kd .n256) s = .next t ∧ Claims.Committed s
      (s.regs.setK kd 0xFFFFFFFFFFFFFFFFFFFFFFFFFFFFFFFEBAAEDCE6AF48A03BBFD25E8CD0364141) false t) ∧
    (∃ t, exec (.ldc kd .p25519) s = .next t ∧ Claims.Committed s (s.regs.setK kd (2 ^ 255 - 19)) false t) ∧
    (∃ t, exec (.ldc kd .n25519) s = .next t ∧ Claims.Committed s
      (s.regs.setK kd 0x1000000000000000000000000000000014DEF9DEA2F79CD65812631A5CF5D3ED) false t) ∧
    (s.inputs.ucv = true →
      ∃ t, exec (.ldc kd .up) s = .next t ∧ Claims.Committed s (s.regs.setK kd s.inputs.up.toNat) false t) ∧
    (∃ t, exec (.wldg pd) s = .next t ∧ Claims.Committed s { s.regs with
      pr := (s.regs.pr.set pd (PointReg.mk false 0x79BE667EF9DCBBAC55A06295CE870B07029BFCDB2DCE28D959F2815B16F81798
        0x483ADA7726A3C4655DA4FBFC0E1108A8FD17B448A68554199C47D08FFB10D4B8)) } false t) ∧
    (∃ t, exec (.mldg pd) s = .next t ∧ Claims.Committed s { s.regs with pr := s.regs.pr.set pd (⟨false, 9, 1⟩ : PointReg) } false t)

/-- F.ADD, F.SUB, F.MUL and F.POW write the sum, the non-negative remainder of the difference, the product and the
power of the unreduced operands, modulo m (40_field_ops.md R132 to R135, R150 to R153). -/
def Obligations.FieldAddSubMulPowResults : Prop :=
  ∀ (s : State) (kd ka kb : KIdx) (ms : ModSel) (m : Nat), s.inputs.modulus ms = .ok m → 2 ≤ m →
    let a := (s.inputs.k[ka]).toNat
    let b := (s.inputs.k[kb]).toNat
    (∃ t, exec (.fadd kd ka kb ms) s = .next t ∧ Claims.Committed s (s.regs.setK kd ((a + b) % m)) false t) ∧
    (∃ t, exec (.fsub kd ka kb ms) s = .next t ∧
      Claims.Committed s (s.regs.setK kd (((a : ℤ) - (b : ℤ)) % (m : ℤ)).toNat) false t) ∧
    (∃ t, exec (.fmul kd ka kb ms) s = .next t ∧ Claims.Committed s (s.regs.setK kd (a * b % m)) false t) ∧
    (∃ t, exec (.fpow kd ka kb ms) s = .next t ∧ Claims.Committed s (s.regs.setK kd (a ^ b % m)) false t)

/-- F.INV writes the unique inverse in `[1, m)`, and ends with NOT_INVERTIBLE when there is none (40_field_ops.md R136, R154). -/
def Obligations.FieldInverseResult : Prop :=
  ∀ (s : State) (kd ka : KIdx) (ms : ModSel) (m : Nat), s.inputs.modulus ms = .ok m → 2 ≤ m →
    let a := (s.inputs.k[ka]).toNat
    (Nat.gcd (a % m) m = 1 → ∃ b t, exec (.finv kd ka ms) s = .next t ∧
      Claims.Committed s (s.regs.setK kd b) false t ∧ 1 ≤ b ∧ b < m ∧ a % m * b % m = 1 ∧
      ∀ b', b' < m → a % m * b' % m = 1 → b' = b) ∧
    (Nat.gcd (a % m) m ≠ 1 → ∃ t, exec (.finv kd ka ms) s = .next t ∧ Claims.Failed s s.regs .notInvertible t)

/-- F.LEG for an odd prime modulus writes 0 for a multiple of it, 1 for a non-zero square and m - 1 otherwise; for
any other modulus it writes one of the three (40_field_ops.md R138, R155). -/
def Obligations.FieldLegendreResult : Prop :=
  ∀ (s : State) (kd ka : KIdx) (ms : ModSel) (m : Nat), s.inputs.modulus ms = .ok m → 2 ≤ m →
    let a := (s.inputs.k[ka]).toNat
    ∃ v t, exec (.fleg kd ka ms) s = .next t ∧ Claims.Committed s (s.regs.setK kd v) false t ∧
      (v = 0 ∨ v = 1 ∨ v = m - 1) ∧
      (m.Prime → m ≠ 2 →
        (v = 0 ↔ m ∣ a) ∧ (v = 1 ↔ ¬ m ∣ a ∧ IsSquare (a : ZMod m)) ∧ (v = m - 1 ↔ ¬ IsSquare (a : ZMod m)))

/-- F.SQRT writes `a^((m+1) div 4) mod m`; it is a square root when m is a prime with m ≡ 3 (mod 4) and a is a square
modulo m (40_field_ops.md R139, R156). -/
def Obligations.FieldSqrtResult : Prop :=
  ∀ (s : State) (kd ka : KIdx) (ms : ModSel) (m : Nat), s.inputs.modulus ms = .ok m → 2 ≤ m →
    let a := (s.inputs.k[ka]).toNat
    ∃ t, exec (.fsqrt kd ka ms) s = .next t ∧ Claims.Committed s (s.regs.setK kd (a ^ ((m + 1) / 4) % m)) false t ∧
      (m.Prime → m % 4 = 3 → IsSquare (a : ZMod m) → (a ^ ((m + 1) / 4) % m) ^ 2 % m = a % m)

/-- F.PRIME: false below 2, true on a prime, and on a composite some verdict; no register is written
(40_field_ops.md R137, R157). -/
def Obligations.PrimalityVerdict : Prop :=
  ∀ (s : State) (ka : KIdx),
    let v := (s.inputs.k[ka]).toNat
    ∃ b t, exec (.fprime ka) s = .next t ∧ Claims.Committed s s.regs b t ∧
      (v < 2 → b = false) ∧ (v.Prime → b = true)

/-! ## Frames -/

/-- The commands that write one K register leave every other register, CTRL, OVR and every other word of the window
but STATUS as it was, whether they commit with success or with an error. -/
def Obligations.ScalarCommandsFrame : Prop :=
  ∀ (i : Instr) (kd : KIdx) (s t : State), Claims.scalarDest? i = some kd → exec i s = .next t →
    (∀ j, j ≠ kd → t.regs.k[j] = s.regs.k[j]) ∧ { t.regs with k := s.regs.k } = s.regs ∧ Claims.SameAround s t ∧
    ∀ off, target off ≠ .status → (∀ w, target off ≠ .big (.k kd) w) → t.readWord (target off) = s.readWord (target off)

/-- The commands that write one PR register leave every other register, CTRL, OVR and every other word of the window
but STATUS and PINF as it was, and every other INF bit. -/
def Obligations.PointCommandsFrame : Prop :=
  ∀ (i : Instr) (pd : PIdx) (s t : State), Claims.pointDest? i = some pd → exec i s = .next t →
    (∀ j, j ≠ pd → t.regs.pr[j] = s.regs.pr[j]) ∧ { t.regs with pr := s.regs.pr } = s.regs ∧ Claims.SameAround s t ∧
    ∀ off, target off ≠ .status → target off ≠ .pinf → (∀ w, target off ≠ .big (.prX pd) w) →
      (∀ w, target off ≠ .big (.prY pd) w) → t.readWord (target off) = s.readWord (target off)

/-- The commands with other destinations, or none: NOP and the five boolean commands write no register; W.ENC writes
EBUF and ELEN, E.SIGN writes SIG_R and SIG_S, E.KEYGEN writes K[KD] and PR[PD], W.CONS writes UCV. -/
def Obligations.OtherCommandsFrame : Prop :=
  ∀ (i : Instr) (s t : State), exec i s = .next t →
    (i = .nop ∨ Claims.writesResult i = true → t.regs = s.regs ∧ Claims.SameAround s t ∧
      ∀ off, target off ≠ .status → t.readWord (target off) = s.readWord (target off)) ∧
    (∀ pa form, i = .wenc pa form → { t.regs with ebuf := s.regs.ebuf, elen := s.regs.elen } = s.regs ∧
      Claims.SameAround s t ∧ ∀ off, target off ≠ .status → target off ≠ .elen → (∀ w, target off ≠ .ebuf w) →
        t.readWord (target off) = s.readWord (target off)) ∧
    (∀ ka, i = .esign ka → { t.regs with sigR := s.regs.sigR, sigS := s.regs.sigS } = s.regs ∧ Claims.SameAround s t ∧
      ∀ off, target off ≠ .status → (∀ w, target off ≠ .big .sigR w) → (∀ w, target off ≠ .big .sigS w) →
        t.readWord (target off) = s.readWord (target off)) ∧
    (∀ pd kd, i = .ekeygen pd kd → { t.regs with k := s.regs.k, pr := s.regs.pr } = s.regs ∧
      (∀ j, j ≠ kd → t.regs.k[j] = s.regs.k[j]) ∧ (∀ j, j ≠ pd → t.regs.pr[j] = s.regs.pr[j]) ∧ Claims.SameAround s t ∧
      ∀ off, target off ≠ .status → target off ≠ .pinf → (∀ w, target off ≠ .big (.k kd) w) →
        (∀ w, target off ≠ .big (.prX pd) w) → (∀ w, target off ≠ .big (.prY pd) w) →
        t.readWord (target off) = s.readWord (target off)) ∧
    (i = .wcons → { t.regs with ucv := s.regs.ucv } = s.regs ∧ Claims.SameAround s t ∧
      ∀ off, target off ≠ .status → t.readWord (target off) = s.readWord (target off))

/-! ## The Weierstrass engine -/

/-- W.CONS: RANGE, then SINGULAR_CURVE, each failure clearing UCV; a prime p with a non-zero discriminant sets UCV, and
a composite one does either, by the library's draw (41_weierstrass.md R170). -/
def Obligations.CurveConstructionVerdict : Prop :=
  ∀ s : State,
    let a := s.inputs.ua.toNat
    let b := s.inputs.ub.toNat
    let p := s.inputs.up.toNat
    (2 ^ 256 ≤ p → ∃ t, exec .wcons s = .next t ∧ Claims.Failed s { s.regs with ucv := false } .range t) ∧
    (p < 2 → ∃ t, exec .wcons s = .next t ∧ Claims.Failed s { s.regs with ucv := false } .singularCurve t) ∧
    (2 ≤ p → p < 2 ^ 256 → (4 * a ^ 3 + 27 * b ^ 2) % p = 0 →
      ∃ t, exec .wcons s = .next t ∧ Claims.Failed s { s.regs with ucv := false } .singularCurve t) ∧
    (2 ≤ p → p < 2 ^ 256 → (4 * a ^ 3 + 27 * b ^ 2) % p ≠ 0 →
      ∃ t, exec .wcons s = .next t ∧ (Claims.Committed s { s.regs with ucv := true } false t ∨
        ¬ p.Prime ∧ Claims.Failed s { s.regs with ucv := false } .singularCurve t))

/-- W.DBL: the Identity and a point with stored Y = 0 give the Identity; a stored Y ≠ 0 with 2·Y no unit modulo p gives
NOT_INVERTIBLE; else the tangent formula (41_weierstrass.md R172, R182, R183). -/
def Obligations.PointDoubleResult : Prop :=
  ∀ (s : State) (pd pa : PIdx) (cs : CurveSel) (c : Curve), s.inputs.curve cs = .ok c → 2 ≤ c.p →
    (s.inputs.pt pa = .identity → ∃ t, exec (.wdbl pd pa cs) s = .next t ∧
      Claims.Committed s { s.regs with pr := s.regs.pr.set pd (⟨true, 0, 0⟩ : PointReg) } false t) ∧
    (∀ x y, s.inputs.pt pa = .finite x y →
      (y = 0 → ∃ t, exec (.wdbl pd pa cs) s = .next t ∧
        Claims.Committed s { s.regs with pr := s.regs.pr.set pd (⟨true, 0, 0⟩ : PointReg) } false t) ∧
      (y ≠ 0 → ¬ Nat.Coprime (2 * y) c.p →
        ∃ t, exec (.wdbl pd pa cs) s = .next t ∧ Claims.Failed s s.regs .notInvertible t) ∧
      (y ≠ 0 → Nat.Coprime (2 * y) c.p → ∃ t rx ry, exec (.wdbl pd pa cs) s = .next t ∧
        Claims.Committed s (s.regs.setPt pd (.finite rx ry)) false t ∧ rx < c.p ∧ ry < c.p ∧
        ∃ sl : ZMod c.p, sl * (2 * y) = 3 * (x : ZMod c.p) ^ 2 + c.a ∧ (rx : ZMod c.p) = sl ^ 2 - x - x ∧
          (ry : ZMod c.p) = sl * (x - rx) - y))

/-- W.ADD: an Identity operand gives the other operand; operands equal as stored give what W.DBL gives; different
stored points with the same x modulo p give the Identity; a denominator that is no unit modulo a composite p gives
NOT_INVERTIBLE; else the chord formula (41_weierstrass.md R171, R184). -/
def Obligations.PointAddResult : Prop :=
  ∀ (s : State) (pd pa pb : PIdx) (cs : CurveSel) (c : Curve), s.inputs.curve cs = .ok c → 2 ≤ c.p →
    (s.inputs.pt pa = .identity → ∃ t, exec (.wadd pd pa pb cs) s = .next t ∧
      Claims.Committed s (s.regs.setPt pd (s.inputs.pt pb)) false t) ∧
    (s.inputs.pt pb = .identity → ∃ t, exec (.wadd pd pa pb cs) s = .next t ∧
      Claims.Committed s (s.regs.setPt pd (s.inputs.pt pa)) false t) ∧
    (s.inputs.pt pa = s.inputs.pt pb → exec (.wadd pd pa pb cs) s = exec (.wdbl pd pa cs) s) ∧
    (∀ px py qx qy, s.inputs.pt pa = .finite px py → s.inputs.pt pb = .finite qx qy → (px, py) ≠ (qx, qy) →
      (px % c.p = qx % c.p → ∃ t, exec (.wadd pd pa pb cs) s = .next t ∧
        Claims.Committed s (s.regs.setPt pd .identity) false t) ∧
      (px % c.p ≠ qx % c.p → Int.gcd ((qx : ℤ) - px) c.p ≠ 1 →
        ¬ c.p.Prime ∧ ∃ t, exec (.wadd pd pa pb cs) s = .next t ∧ Claims.Failed s s.regs .notInvertible t) ∧
      (px % c.p ≠ qx % c.p → Int.gcd ((qx : ℤ) - px) c.p = 1 → ∃ t rx ry, exec (.wadd pd pa pb cs) s = .next t ∧
        Claims.Committed s (s.regs.setPt pd (.finite rx ry)) false t ∧ rx < c.p ∧ ry < c.p ∧
        ∃ sl : ZMod c.p, sl * ((qx : ZMod c.p) - px) = (qy : ZMod c.p) - py ∧
          (rx : ZMod c.p) = sl ^ 2 - px - qx ∧ (ry : ZMod c.p) = sl * (px - rx) - py))

/-- W.NEG: the Identity stays, and `(x, y)` gives `(x, (p - y) mod p)` with x unreduced, so Y = 0 gives 0
(41_weierstrass.md R173, R185). W.VALID: RESULT says whether the curve equation holds modulo p, and is 1 for the
Identity (R176, R188). -/
def Obligations.PointNegateAndValidity : Prop :=
  ∀ (s : State) (pd pa : PIdx) (cs : CurveSel) (c : Curve), s.inputs.curve cs = .ok c → 2 ≤ c.p →
    (s.inputs.pt pa = .identity →
      (∃ t, exec (.wneg pd pa cs) s = .next t ∧ Claims.Committed s (s.regs.setPt pd .identity) false t) ∧
      (∃ t, exec (.wvalid pa cs) s = .next t ∧ Claims.Committed s s.regs true t)) ∧
    (∀ x y, s.inputs.pt pa = .finite x y →
      (∃ t, exec (.wneg pd pa cs) s = .next t ∧
        Claims.Committed s (s.regs.setPt pd (.finite x (-(y : ℤ) % (c.p : ℤ)).toNat)) false t) ∧
      (∃ b t, exec (.wvalid pa cs) s = .next t ∧ Claims.Committed s s.regs b t ∧ (b = true ↔ Claims.OnCurve c x y)))

/-- WMul by its bits: 0 gives the Identity, 1 the operand, and each further bit doubles, ends with the Identity if the
double is the Identity, and else adds the operand for a 1 bit (41_weierstrass.md R186). -/
def Obligations.ScalarMultiplyByBits : Prop :=
  ∀ (c : Curve) (P : Point),
    wMul c P 0 = .ok .identity ∧ wMul c P 1 = .ok P ∧
    ∀ k b, 1 ≤ k → b < 2 → wMul c P (2 * k + b) = (do
      let acc ← wMul c P k
      let dbl ← wDouble c acc
      if dbl = .identity then return .identity
      else if b = 1 then wAdd c dbl P else return dbl)

/-- W.MUL writes WMul's point, or ends with NOT_INVERTIBLE where a step of WMul fails; over a prime field other than
p = 2 it completes for every scalar on an operand whose stored Y is not a non-zero multiple of p
(41_weierstrass.md R174, R183, R184). -/
def Obligations.ScalarMultiplyCompletes : Prop :=
  ∀ (s : State) (pd pa : PIdx) (ka : KIdx) (cs : CurveSel) (c : Curve), s.inputs.curve cs = .ok c →
    (∀ R, wMul c (s.inputs.pt pa) (s.inputs.kNat ka) = .ok R → ∃ t, exec (.wmul pd pa ka cs) s = .next t ∧
      Claims.Committed s (s.regs.setPt pd R) false t) ∧
    (∀ e, wMul c (s.inputs.pt pa) (s.inputs.kNat ka) = .error e → e = .notInvertible ∧
      ∃ t, exec (.wmul pd pa ka cs) s = .next t ∧ Claims.Failed s s.regs .notInvertible t) ∧
    (c.p.Prime → c.p ≠ 2 → Claims.YRegular c.p (s.inputs.pt pa) →
      ∃ R t, wMul c (s.inputs.pt pa) (s.inputs.kNat ka) = .ok R ∧ exec (.wmul pd pa ka cs) s = .next t ∧
        Claims.Committed s (s.regs.setPt pd R) false t)

/-- Over a prime field the group law stays on the curve: a double, a sum and a scalar multiple of valid points is
valid, whatever the scalar (41_weierstrass.md R183, R184, R186, R188). -/
def Obligations.GroupLawStaysOnTheCurve : Prop :=
  ∀ (c : Curve) (P Q R : Point) (k : Nat), c.p.Prime → wValid c P = true → wValid c Q = true →
    (wDouble c P = .ok R → wValid c R = true) ∧ (wAdd c P Q = .ok R → wValid c R = true) ∧
    (wMul c P k = .ok R → wValid c R = true)

/-- W.EVAL: the formula's value or POINT_NOT_ON_CURVE on any curve; over an odd prime field the error exactly when
`x³ + a·x + b` is no square, and a root when p ≡ 3 (mod 4) (41_weierstrass.md R175, R187; 40_field_ops.md R139). -/
def Obligations.DecompressionResult : Prop :=
  ∀ (s : State) (kd ka : KIdx) (cs : CurveSel) (c : Curve), s.inputs.curve cs = .ok c → 2 ≤ c.p →
    let x := (s.inputs.k[ka]).toNat
    let rhs : Nat := (x ^ 3 + c.a * x + c.b) % c.p
    let y := rhs ^ ((c.p + 1) / 4) % c.p
    ∃ t, exec (.weval kd ka cs) s = .next t ∧
      (Claims.Committed s (s.regs.setK kd y) false t ∨ Claims.Failed s s.regs .pointNotOnCurve t) ∧
      (c.p.Prime → c.p ≠ 2 → (t.errcode = .ok ↔ IsSquare (rhs : ZMod c.p)) ∧
        (c.p % 4 = 3 → t.errcode = .ok → Claims.OnCurve c x y))

/-- W.ENC: IDENTITY for the Identity, RANGE for a coordinate to be encoded that needs more than 32 bytes, else 33
bytes `02/03 || X` or 65 bytes `04 || X || Y`, the rest of EBUF 0 (41_weierstrass.md R177). -/
def Obligations.PointEncodingResult : Prop :=
  ∀ (s : State) (pa : PIdx),
    (s.inputs.pt pa = .identity → ∀ form, ∃ t, exec (.wenc pa form) s = .next t ∧ Claims.Failed s s.regs .identity t) ∧
    (∀ x y, s.inputs.pt pa = .finite x y →
      (2 ^ 256 ≤ x → ∀ form, ∃ t, exec (.wenc pa form) s = .next t ∧ Claims.Failed s s.regs .range t) ∧
      (2 ^ 256 ≤ y → x < 2 ^ 256 → ∃ t, exec (.wenc pa .uncompressed) s = .next t ∧ Claims.Failed s s.regs .range t) ∧
      (x < 2 ^ 256 → ∃ t buf, exec (.wenc pa .compressed) s = .next t ∧
        Claims.Committed s { s.regs with ebuf := buf, elen := 33 } false t ∧ buf[0].toNat = 2 + y % 2 ∧
        (∀ j (h : j < 65), 1 ≤ j → j ≤ 32 → buf[j].toNat = x / 256 ^ (32 - j) % 256) ∧
        (∀ j (h : j < 65), 33 ≤ j → buf[j] = 0)) ∧
      (x < 2 ^ 256 → y < 2 ^ 256 → ∃ t buf, exec (.wenc pa .uncompressed) s = .next t ∧
        Claims.Committed s { s.regs with ebuf := buf, elen := 65 } false t ∧ buf[0].toNat = 4 ∧
        (∀ j (h : j < 65), 1 ≤ j → j ≤ 32 → buf[j].toNat = x / 256 ^ (32 - j) % 256) ∧
        (∀ j (h : j < 65), 33 ≤ j → buf[j].toNat = y / 256 ^ (64 - j) % 256)))

/-- W.DEC reports its errors in order: empty buffer, prefix, length. An uncompressed encoding gives the two coordinates
as they stand, with no check; a compressed one gives the stored x and the root W.EVAL computes, negated when its parity
is not the prefix's, or POINT_NOT_ON_CURVE, over an odd prime field exactly for a non-square (41_weierstrass.md R178). -/
def Obligations.PointDecodingResult : Prop :=
  ∀ (s : State) (pd : PIdx) (cs : CurveSel) (c : Curve), s.inputs.curve cs = .ok c → 2 ≤ c.p →
    let pre := (s.inputs.ebuf[0]).toNat
    let len := s.inputs.elen.val
    let x := Nat.ofDigits 256 ((((s.inputs.ebuf.toList.drop 1).take 32).map BitVec.toNat).reverse)
    let y2 := Nat.ofDigits 256 ((((s.inputs.ebuf.toList.drop 33).take 32).map BitVec.toNat).reverse)
    let rhs : Nat := (x ^ 3 + c.a * x + c.b) % c.p
    let root := rhs ^ ((c.p + 1) / 4) % c.p
    let y := if root % 2 = pre % 2 then root else (c.p - root) % c.p
    ∃ t, exec (.wdec pd cs) s = .next t ∧
      (len = 0 → Claims.Failed s s.regs .encLength t) ∧
      (len ≠ 0 → pre ≠ 2 → pre ≠ 3 → pre ≠ 4 → Claims.Failed s s.regs .encPrefix t) ∧
      (len ≠ 0 → pre = 4 → len ≠ 65 → Claims.Failed s s.regs .encLength t) ∧
      (len ≠ 0 → pre = 2 ∨ pre = 3 → len ≠ 33 → Claims.Failed s s.regs .encLength t) ∧
      (pre = 4 → len = 65 → Claims.Committed s (s.regs.setPt pd (.finite x y2)) false t) ∧
      (pre = 2 ∨ pre = 3 → len = 33 →
        (Claims.Committed s (s.regs.setPt pd (.finite x y)) false t ∨ Claims.Failed s s.regs .pointNotOnCurve t) ∧
        (c.p.Prime → c.p ≠ 2 → (t.errcode = .ok ↔ IsSquare (rhs : ZMod c.p))))

/-- Decoding what W.ENC wrote gives the point back: the uncompressed form for any coordinates below 2^256, the
compressed form for a valid point with reduced coordinates on a curve whose p < 2^256 is a prime ≡ 3 (mod 4)
(41_weierstrass.md R177, R178; 95_test_vectors.md S8-4). -/
def Obligations.DecodeUndoesEncode : Prop :=
  ∀ (c : Curve) (r : Regs) (x y d : Nat) (form : EncForm) (bytes : List Byte),
    wEncode form (.finite x y) = .ok bytes →
    (form = .compressed → c.p.Prime ∧ c.p % 4 = 3 ∧ c.p < 2 ^ 256 ∧ x < c.p ∧ y < c.p ∧ Claims.OnCurve c x y) →
    wDecode c (r.setEncoding bytes).ebufSlice (r.setEncoding bytes).elen.val d = .ok (.finite x y)

/-! ## The Montgomery ladder engine -/

/-- M.DBL and M.ADD write the formulas' values modulo P25519; M.ADD returns an operand when the other's stored Z is 0,
and doubles equal stored pairs; INF is set exactly when the written Z is 0 (42_montgomery.md R230, R231, R239 to R241). -/
def Obligations.MontgomeryAddAndDouble : Prop :=
  ∀ (s : State) (pd pa pb : PIdx),
    let P := s.inputs.mp pa
    let Q := s.inputs.mp pb
    (∃ t x z, exec (.mdbl pd pa) s = .next t ∧
      Claims.Committed s { s.regs with pr := s.regs.pr.set pd (⟨z == 0, BitVec.ofNat 512 x, BitVec.ofNat 512 z⟩ : PointReg) } false t ∧
      x < P25519 ∧ z < P25519 ∧ (x : ZMod P25519) = ((P.x : ZMod P25519) ^ 2 - (P.z : ZMod P25519) ^ 2) ^ 2 ∧
      (z : ZMod P25519) = 4 * P.x * P.z * ((P.x : ZMod P25519) ^ 2 + 486662 * P.x * P.z + (P.z : ZMod P25519) ^ 2)) ∧
    (P.z = 0 → ∃ t, exec (.madd pd pa pb) s = .next t ∧ Claims.Committed s (s.regs.setMp pd Q) false t) ∧
    (Q.z = 0 → P.z ≠ 0 → ∃ t, exec (.madd pd pa pb) s = .next t ∧ Claims.Committed s (s.regs.setMp pd P) false t) ∧
    (P = Q → P.z ≠ 0 → exec (.madd pd pa pb) s = exec (.mdbl pd pa) s) ∧
    (P.z ≠ 0 → Q.z ≠ 0 → P ≠ Q → ∃ t x z, exec (.madd pd pa pb) s = .next t ∧
      Claims.Committed s { s.regs with pr := s.regs.pr.set pd (⟨z == 0, BitVec.ofNat 512 x, BitVec.ofNat 512 z⟩ : PointReg) } false t ∧
      x < P25519 ∧ z < P25519 ∧
      (x : ZMod P25519) = ((P.x : ZMod P25519) * Q.x - P.z * Q.z) ^ 2 ∧
      (z : ZMod P25519) = ((P.x : ZMod P25519) * Q.z - Q.x * P.z) ^ 2 * 9)

/-- M.MUL runs the two-accumulator ladder from `(1 : 0)` and the operand over the scalar's bits, and writes the first
accumulator (42_montgomery.md R232, R242). -/
def Obligations.LadderByBits : Prop :=
  ∀ (s : State) (pd pa : PIdx) (ka : KIdx), ∃ L : Nat → MPoint × MPoint,
    L 0 = (⟨1, 0⟩, s.inputs.mp pa) ∧
    (∀ k, L (2 * k) = (mDouble (L k).1, mAdd (L k).1 (L k).2)) ∧
    (∀ k, L (2 * k + 1) = (mAdd (L k).1 (L k).2, mDouble (L k).2)) ∧
    ∃ t, exec (.mmul pd pa ka) s = .next t ∧
      Claims.Committed s (s.regs.setMp pd (L (s.inputs.k[ka]).toNat).1) false t

/-- M.AFFX writes the x in `[0, p)` with `x·Z ≡ X`, and ends with NOT_INVERTIBLE when Z ≡ 0 (42_montgomery.md R237, R243). -/
def Obligations.AffineRecovery : Prop :=
  ∀ (s : State) (kd : KIdx) (pa : PIdx),
    let P := s.inputs.mp pa
    (P.z % P25519 = 0 → ∃ t, exec (.maffx kd pa) s = .next t ∧ Claims.Failed s s.regs .notInvertible t) ∧
    (P.z % P25519 ≠ 0 → ∃ x t, exec (.maffx kd pa) s = .next t ∧ Claims.Committed s (s.regs.setK kd x) false t ∧
      x < P25519 ∧ x * P.z % P25519 = P.x % P25519)

/-- M.VALID and M.EVAL: Z ≡ 0 answers 1; else the affine x decides by whether its right-hand side is a square, M.VALID
in RESULT and M.EVAL with POINT_NOT_ON_CURVE. M.VALID never ends in an error (42_montgomery.md R233, R234, R244). -/
def Obligations.MontgomeryValidityVerdicts : Prop :=
  ∀ (s : State) (pa : PIdx),
    let P := s.inputs.mp pa
    (P.z % P25519 = 0 →
      (∃ t, exec (.mvalid pa) s = .next t ∧ Claims.Committed s s.regs true t) ∧
      (∃ t, exec (.meval pa) s = .next t ∧ Claims.Committed s s.regs true t)) ∧
    (∀ x : ZMod P25519, P.z % P25519 ≠ 0 → x * P.z = P.x →
      (IsSquare (Claims.montRhs x) →
        (∃ t, exec (.mvalid pa) s = .next t ∧ Claims.Committed s s.regs true t) ∧
        (∃ t, exec (.meval pa) s = .next t ∧ Claims.Committed s s.regs true t)) ∧
      (¬ IsSquare (Claims.montRhs x) →
        (∃ t, exec (.mvalid pa) s = .next t ∧ Claims.Committed s s.regs false t) ∧
        (∃ t, exec (.meval pa) s = .next t ∧ Claims.Failed s s.regs .pointNotOnCurve t)))

/-- M.RAND with a drawn x: `(x : 1)` when the right-hand side is a square, else a new request (42_montgomery.md R235). -/
def Obligations.RandomPointAcceptsResidues : Prop :=
  ∀ (s : State) (pd : PIdx) (bound x : Nat), Claims.Drew s bound x → x < N25519 →
    (IsSquare (Claims.montRhs x) → ∃ t, exec (.mrand pd) s = .next t ∧
      Claims.Committed s { s.regs with pr := s.regs.pr.set pd (⟨false, BitVec.ofNat 512 x, 1⟩ : PointReg) } false t) ∧
    (¬ IsSquare (Claims.montRhs x) → ∃ t, exec (.mrand pd) s = .next t ∧ Claims.Requests s N25519 t)

/-! ## ECDSA -/

/-- H2I writes the first DLEN bytes of DIGEST as a big-endian integer, not reduced; in E.SIGN and E.VERIFY "reducing
e first would give the same s and the same verdict" (43_ecdsa.md R272, R273). -/
def Obligations.HashToInteger : Prop :=
  (∀ (s : State) (kd : KIdx),
    ∃ t, exec (.h2i kd) s = .next t ∧
      Claims.Committed s (s.regs.setK kd (Nat.ofDigits 256
        ((s.inputs.digest.toList.take s.inputs.dlen.val).map BitVec.toNat).reverse)) false t) ∧
  ∀ (h : Bool) (e d k r sg : Nat) (pub : Point),
    signAttempt h (e % N256) d k = signAttempt h e d k ∧ verify h (e % N256) r sg pub = verify h e r sg pub

/-- E.KEYGEN with a drawn d, 0 included: K[KD] <- d and PR[PD] <- d·G, a point of the curve or the Identity; it never
ends in an error (43_ecdsa.md R274). -/
def Obligations.KeyGenerationResult : Prop :=
  ∀ (s : State) (pd : PIdx) (kd : KIdx) (bound d : Nat), Claims.Drew s bound d → d < N256 →
    ∃ Q t, wMul secp256k1 genG d = .ok Q ∧ wValid secp256k1 Q = true ∧ (d = 0 → Q = .identity) ∧
      exec (.ekeygen pd kd) s = .next t ∧ Claims.Committed s ((s.regs.setK kd d).setPt pd Q) false t

/-- E.SIGN with a drawn k. Reference mode: k = 0 ends with NOT_INVERTIBLE; else SIG_R is the raw x-coordinate of k·G and
SIG_S the solution of `k·s ≡ e + d·r`, degenerate or not. Hardened mode: r is reduced, and an Identity, r = 0 or s = 0
draws again (43_ecdsa.md R271, R275). -/
def Obligations.SignResult : Prop :=
  ∀ (s : State) (ka : KIdx) (bound k : Nat), Claims.Drew s bound k → k < N256 →
    ∃ R, wMul secp256k1 genG k = .ok R ∧
      let e := s.inputs.hashToInt
      let d := (s.inputs.k[ka]).toNat
      (s.inputs.harden = false →
        (k = 0 → ∃ t, exec (.esign ka) s = .next t ∧ Claims.Failed s s.regs .notInvertible t) ∧
        (k ≠ 0 → ∃ sg t, exec (.esign ka) s = .next t ∧ Claims.Committed s (s.regs.setSig (xcoord R) sg) false t ∧
          sg < N256 ∧ k * sg % N256 = (e + d * xcoord R) % N256)) ∧
      (s.inputs.harden = true →
        (xcoord R % N256 = 0 → ∃ t, exec (.esign ka) s = .next t ∧ Claims.Requests s N256 t) ∧
        (xcoord R % N256 ≠ 0 →
          ((e + d * (xcoord R % N256)) % N256 = 0 → ∃ t, exec (.esign ka) s = .next t ∧ Claims.Requests s N256 t) ∧
          ((e + d * (xcoord R % N256)) % N256 ≠ 0 → ∃ sg t, exec (.esign ka) s = .next t ∧
            Claims.Committed s (s.regs.setSig (xcoord R % N256) sg) false t ∧
            1 ≤ sg ∧ sg < N256 ∧ k * sg % N256 = (e + d * (xcoord R % N256)) % N256)))

/-- A signature that hardened mode commits lies in `[1, n-1]`, whatever the draws (43_ecdsa.md R270; 90_conflicts.md C3). -/
def Obligations.HardenedSignaturesAreInRange : Prop :=
  ∀ (s t : State) (ka : KIdx), exec (.esign ka) s = .next t → s.inputs.harden = true → s.busy = true → t.busy = false →
    t.errcode = .ok →
    1 ≤ t.regs.sigR.toNat ∧ t.regs.sigR.toNat ≤ N256 - 1 ∧ 1 ≤ t.regs.sigS.toNat ∧ t.regs.sigS.toNat ≤ N256 - 1

/-- E.VERIFY. Hardened mode answers 0 for r or s out of `[1, n-1]`; reference mode ends with NOT_INVERTIBLE when
s ≡ 0; else an error of WMul on the public key, which only one whose stored Y is a non-zero multiple of P256 gives, ends
it with NOT_INVERTIBLE, and otherwise WAdd answers, since u1·G is no such point, and the verdict compares x-coordinates
modulo n of `u1·G + u2·Q`, the Identity read as x = 0 in reference mode and answered 0 in hardened mode
(43_ecdsa.md R271, R276; 41_weierstrass.md R183, R184). -/
def Obligations.VerifyResult : Prop :=
  ∀ (s : State) (pa : PIdx),
    let e := s.inputs.hashToInt
    let r := s.inputs.sigR.toNat
    let sg := s.inputs.sigS.toNat
    let inRange := 1 ≤ r ∧ r ≤ N256 - 1 ∧ 1 ≤ sg ∧ sg ≤ N256 - 1
    (s.inputs.harden = true → ¬ inRange → ∃ t, exec (.everify pa) s = .next t ∧ Claims.Committed s s.regs false t) ∧
    (s.inputs.harden = false → sg % N256 = 0 → ∃ t, exec (.everify pa) s = .next t ∧ Claims.Failed s s.regs .notInvertible t) ∧
    ((s.inputs.harden = true → inRange) → sg % N256 ≠ 0 →
      ∃ u1 u2 P1, u1 < N256 ∧ u2 < N256 ∧ sg * u1 % N256 = e % N256 ∧ sg * u2 % N256 = r % N256 ∧
        wMul secp256k1 genG u1 = .ok P1 ∧
        (∀ err, wMul secp256k1 (s.inputs.pt pa) u2 = .error err →
          err = .notInvertible ∧ ∃ t, exec (.everify pa) s = .next t ∧ Claims.Failed s s.regs .notInvertible t) ∧
        (∀ P2, wMul secp256k1 (s.inputs.pt pa) u2 = .ok P2 →
          ∃ X b t, wAdd secp256k1 P1 P2 = .ok X ∧ exec (.everify pa) s = .next t ∧ Claims.Committed s s.regs b t ∧
            (b = true ↔ xcoord X % N256 = r % N256 ∧ (s.inputs.harden = true → X ≠ .identity))) ∧
        (Claims.YRegular P256 (s.inputs.pt pa) → ∃ P2, wMul secp256k1 (s.inputs.pt pa) u2 = .ok P2))

/-- The documented gap: with e = 0, r = 0 or r = N256, and s = 1, reference mode accepts any pub, and hardened mode
rejects it (43_ecdsa.md R276). -/
def Obligations.ZeroDigestGap : Prop :=
  ∀ (s : State) (pa : PIdx), s.inputs.hashToInt = 0 → s.inputs.sigR.toNat = 0 ∨ s.inputs.sigR.toNat = N256 →
    s.inputs.sigS.toNat = 1 →
    (s.inputs.harden = false → ∃ t, exec (.everify pa) s = .next t ∧ Claims.Committed s s.regs true t) ∧
    (s.inputs.harden = true → ∃ t, exec (.everify pa) s = .next t ∧ Claims.Committed s s.regs false t)
end

