-- ==== Sys2Proof/Laws/State.lean ====
section
/-! SUPPORT. One lemma per field per update of State and of Regs, each true by definition, so that no proof unfolds a record update. -/

namespace Sys2Proof.Machine

variable (s : State) (r : Regs)

/-! ## commitFlags -/

@[simp] theorem State.commitFlags_regs (e : ErrCode) (b : Bool) : (s.commitFlags e b).regs = s.regs := rfl
@[simp] theorem State.commitFlags_irqEn (e : ErrCode) (b : Bool) : (s.commitFlags e b).irqEn = s.irqEn := rfl
@[simp] theorem State.commitFlags_done (e : ErrCode) (b : Bool) : (s.commitFlags e b).done = true := rfl
@[simp] theorem State.commitFlags_result (e : ErrCode) (b : Bool) : (s.commitFlags e b).result = b := rfl
@[simp] theorem State.commitFlags_ovr (e : ErrCode) (b : Bool) : (s.commitFlags e b).ovr = s.ovr := rfl
@[simp] theorem State.commitFlags_errcode (e : ErrCode) (b : Bool) : (s.commitFlags e b).errcode = e := rfl
@[simp] theorem State.commitFlags_phase (e : ErrCode) (b : Bool) : (s.commitFlags e b).phase = .idle := rfl
@[simp] theorem State.commitFlags_inReset (e : ErrCode) (b : Bool) : (s.commitFlags e b).inReset = s.inReset := rfl
@[simp] theorem State.commitFlags_events (e : ErrCode) (b : Bool) : (s.commitFlags e b).events = s.events := rfl
@[simp] theorem State.commitFlags_bus (e : ErrCode) (b : Bool) : (s.commitFlags e b).bus = s.bus := rfl
@[simp] theorem State.commitFlags_draws (e : ErrCode) (b : Bool) : (s.commitFlags e b).draws = s.draws + 1 := rfl
@[simp] theorem State.commitFlags_requests (e : ErrCode) (b : Bool) : (s.commitFlags e b).requests = s.requests := rfl

/-! ## commitOk -/

@[simp] theorem State.commitOk_regs (t : Regs) (b : Bool) : (s.commitOk t b).regs = t := rfl
@[simp] theorem State.commitOk_irqEn (t : Regs) (b : Bool) : (s.commitOk t b).irqEn = s.irqEn := rfl
@[simp] theorem State.commitOk_done (t : Regs) (b : Bool) : (s.commitOk t b).done = true := rfl
@[simp] theorem State.commitOk_result (t : Regs) (b : Bool) : (s.commitOk t b).result = b := rfl
@[simp] theorem State.commitOk_ovr (t : Regs) (b : Bool) : (s.commitOk t b).ovr = s.ovr := rfl
@[simp] theorem State.commitOk_errcode (t : Regs) (b : Bool) : (s.commitOk t b).errcode = .ok := rfl
@[simp] theorem State.commitOk_phase (t : Regs) (b : Bool) : (s.commitOk t b).phase = .idle := rfl
@[simp] theorem State.commitOk_inReset (t : Regs) (b : Bool) : (s.commitOk t b).inReset = s.inReset := rfl
@[simp] theorem State.commitOk_events (t : Regs) (b : Bool) : (s.commitOk t b).events = s.events := rfl
@[simp] theorem State.commitOk_bus (t : Regs) (b : Bool) : (s.commitOk t b).bus = s.bus := rfl
@[simp] theorem State.commitOk_draws (t : Regs) (b : Bool) : (s.commitOk t b).draws = s.draws + 1 := rfl
@[simp] theorem State.commitOk_requests (t : Regs) (b : Bool) : (s.commitOk t b).requests = s.requests := rfl

/-! ## commitError -/

@[simp] theorem State.commitError_regs (e : ErrCode) : (s.commitError e).regs = s.regs := rfl
@[simp] theorem State.commitError_irqEn (e : ErrCode) : (s.commitError e).irqEn = s.irqEn := rfl
@[simp] theorem State.commitError_done (e : ErrCode) : (s.commitError e).done = true := rfl
@[simp] theorem State.commitError_result (e : ErrCode) : (s.commitError e).result = false := rfl
@[simp] theorem State.commitError_ovr (e : ErrCode) : (s.commitError e).ovr = s.ovr := rfl
@[simp] theorem State.commitError_errcode (e : ErrCode) : (s.commitError e).errcode = e := rfl
@[simp] theorem State.commitError_phase (e : ErrCode) : (s.commitError e).phase = .idle := rfl
@[simp] theorem State.commitError_inReset (e : ErrCode) : (s.commitError e).inReset = s.inReset := rfl
@[simp] theorem State.commitError_events (e : ErrCode) : (s.commitError e).events = s.events := rfl
@[simp] theorem State.commitError_bus (e : ErrCode) : (s.commitError e).bus = s.bus := rfl
@[simp] theorem State.commitError_draws (e : ErrCode) : (s.commitError e).draws = s.draws + 1 := rfl
@[simp] theorem State.commitError_requests (e : ErrCode) : (s.commitError e).requests = s.requests := rfl

/-! ## accept -/

@[simp] theorem State.accept_regs (h q : Bool) : (s.accept h q).regs = { s.regs with harden := h } := rfl
@[simp] theorem State.accept_irqEn (h q : Bool) : (s.accept h q).irqEn = q := rfl
@[simp] theorem State.accept_done (h q : Bool) : (s.accept h q).done = false := rfl
@[simp] theorem State.accept_result (h q : Bool) : (s.accept h q).result = s.result := rfl
@[simp] theorem State.accept_ovr (h q : Bool) : (s.accept h q).ovr = s.ovr := rfl
@[simp] theorem State.accept_errcode (h q : Bool) : (s.accept h q).errcode = s.errcode := rfl
@[simp] theorem State.accept_phase (h q : Bool) : (s.accept h q).phase = .busy { s.regs with harden := h } .idle 0 := rfl
@[simp] theorem State.accept_inReset (h q : Bool) : (s.accept h q).inReset = s.inReset := rfl
@[simp] theorem State.accept_events (h q : Bool) : (s.accept h q).events = s.events := rfl
@[simp] theorem State.accept_bus (h q : Bool) : (s.accept h q).bus = s.bus := rfl
@[simp] theorem State.accept_draws (h q : Bool) : (s.accept h q).draws = s.draws := rfl
@[simp] theorem State.accept_requests (h q : Bool) : (s.accept h q).requests = s.requests := rfl

/-! ## setOvr -/

@[simp] theorem State.setOvr_regs : (s.setOvr).regs = s.regs := rfl
@[simp] theorem State.setOvr_irqEn : (s.setOvr).irqEn = s.irqEn := rfl
@[simp] theorem State.setOvr_done : (s.setOvr).done = s.done := rfl
@[simp] theorem State.setOvr_result : (s.setOvr).result = s.result := rfl
@[simp] theorem State.setOvr_ovr : (s.setOvr).ovr = true := rfl
@[simp] theorem State.setOvr_errcode : (s.setOvr).errcode = s.errcode := rfl
@[simp] theorem State.setOvr_phase : (s.setOvr).phase = s.phase := rfl
@[simp] theorem State.setOvr_inReset : (s.setOvr).inReset = s.inReset := rfl
@[simp] theorem State.setOvr_events : (s.setOvr).events = s.events := rfl
@[simp] theorem State.setOvr_bus : (s.setOvr).bus = s.bus := rfl
@[simp] theorem State.setOvr_draws : (s.setOvr).draws = s.draws := rfl
@[simp] theorem State.setOvr_requests : (s.setOvr).requests = s.requests := rfl

/-! ## writeStatus -/

@[simp] theorem State.writeStatus_regs (v : Word) : (s.writeStatus v).regs = s.regs := rfl
@[simp] theorem State.writeStatus_irqEn (v : Word) : (s.writeStatus v).irqEn = s.irqEn := rfl
@[simp] theorem State.writeStatus_done (v : Word) : (s.writeStatus v).done = (s.done && !v.getLsbD 1) := rfl
@[simp] theorem State.writeStatus_result (v : Word) : (s.writeStatus v).result = s.result := rfl
@[simp] theorem State.writeStatus_ovr (v : Word) : (s.writeStatus v).ovr = (s.ovr && !v.getLsbD 3) := rfl
@[simp] theorem State.writeStatus_errcode (v : Word) : (s.writeStatus v).errcode = s.errcode := rfl
@[simp] theorem State.writeStatus_phase (v : Word) : (s.writeStatus v).phase = s.phase := rfl
@[simp] theorem State.writeStatus_inReset (v : Word) : (s.writeStatus v).inReset = s.inReset := rfl
@[simp] theorem State.writeStatus_events (v : Word) : (s.writeStatus v).events = s.events := rfl
@[simp] theorem State.writeStatus_bus (v : Word) : (s.writeStatus v).bus = s.bus := rfl
@[simp] theorem State.writeStatus_draws (v : Word) : (s.writeStatus v).draws = s.draws := rfl
@[simp] theorem State.writeStatus_requests (v : Word) : (s.writeStatus v).requests = s.requests := rfl

/-! ## resetRegs -/

@[simp] theorem State.resetRegs_regs : (s.resetRegs).regs = Regs.reset := rfl
@[simp] theorem State.resetRegs_irqEn : (s.resetRegs).irqEn = false := rfl
@[simp] theorem State.resetRegs_done : (s.resetRegs).done = false := rfl
@[simp] theorem State.resetRegs_result : (s.resetRegs).result = false := rfl
@[simp] theorem State.resetRegs_ovr : (s.resetRegs).ovr = false := rfl
@[simp] theorem State.resetRegs_errcode : (s.resetRegs).errcode = .ok := rfl
@[simp] theorem State.resetRegs_phase : (s.resetRegs).phase = .idle := rfl
@[simp] theorem State.resetRegs_inReset : (s.resetRegs).inReset = s.inReset := rfl
@[simp] theorem State.resetRegs_events : (s.resetRegs).events = s.events := rfl
@[simp] theorem State.resetRegs_bus : (s.resetRegs).bus = s.bus := rfl
@[simp] theorem State.resetRegs_draws : (s.resetRegs).draws = s.draws := rfl
@[simp] theorem State.resetRegs_requests : (s.resetRegs).requests = s.requests := rfl

/-! ## assertReset -/

@[simp] theorem State.assertReset_regs : (s.assertReset).regs = Regs.reset := rfl
@[simp] theorem State.assertReset_irqEn : (s.assertReset).irqEn = false := rfl
@[simp] theorem State.assertReset_done : (s.assertReset).done = false := rfl
@[simp] theorem State.assertReset_result : (s.assertReset).result = false := rfl
@[simp] theorem State.assertReset_ovr : (s.assertReset).ovr = false := rfl
@[simp] theorem State.assertReset_errcode : (s.assertReset).errcode = .ok := rfl
@[simp] theorem State.assertReset_phase : (s.assertReset).phase = .idle := rfl
@[simp] theorem State.assertReset_inReset : (s.assertReset).inReset = true := rfl
@[simp] theorem State.assertReset_events : (s.assertReset).events = s.events := rfl
@[simp] theorem State.assertReset_bus : (s.assertReset).bus = s.bus := rfl
@[simp] theorem State.assertReset_draws : (s.assertReset).draws = s.draws := rfl
@[simp] theorem State.assertReset_requests : (s.assertReset).requests = s.requests := rfl

/-! ## releaseReset -/

@[simp] theorem State.releaseReset_regs : (s.releaseReset).regs = s.regs := rfl
@[simp] theorem State.releaseReset_irqEn : (s.releaseReset).irqEn = s.irqEn := rfl
@[simp] theorem State.releaseReset_done : (s.releaseReset).done = s.done := rfl
@[simp] theorem State.releaseReset_result : (s.releaseReset).result = s.result := rfl
@[simp] theorem State.releaseReset_ovr : (s.releaseReset).ovr = s.ovr := rfl
@[simp] theorem State.releaseReset_errcode : (s.releaseReset).errcode = s.errcode := rfl
@[simp] theorem State.releaseReset_phase : (s.releaseReset).phase = s.phase := rfl
@[simp] theorem State.releaseReset_inReset : (s.releaseReset).inReset = false := rfl
@[simp] theorem State.releaseReset_events : (s.releaseReset).events = s.events := rfl
@[simp] theorem State.releaseReset_bus : (s.releaseReset).bus = s.bus := rfl
@[simp] theorem State.releaseReset_draws : (s.releaseReset).draws = s.draws := rfl
@[simp] theorem State.releaseReset_requests : (s.releaseReset).requests = s.requests := rfl

/-! ## requestDraw -/

@[simp] theorem State.requestDraw_regs (bound n : Nat) : (s.requestDraw bound n).regs = s.regs := rfl
@[simp] theorem State.requestDraw_irqEn (bound n : Nat) : (s.requestDraw bound n).irqEn = s.irqEn := rfl
@[simp] theorem State.requestDraw_done (bound n : Nat) : (s.requestDraw bound n).done = s.done := rfl
@[simp] theorem State.requestDraw_result (bound n : Nat) : (s.requestDraw bound n).result = s.result := rfl
@[simp] theorem State.requestDraw_ovr (bound n : Nat) : (s.requestDraw bound n).ovr = s.ovr := rfl
@[simp] theorem State.requestDraw_errcode (bound n : Nat) : (s.requestDraw bound n).errcode = s.errcode := rfl
@[simp] theorem State.requestDraw_phase (bound n : Nat) : (s.requestDraw bound n).phase = .busy s.inputs (.pending s.requests bound) n := rfl
@[simp] theorem State.requestDraw_inReset (bound n : Nat) : (s.requestDraw bound n).inReset = s.inReset := rfl
@[simp] theorem State.requestDraw_events (bound n : Nat) : (s.requestDraw bound n).events = s.events := rfl
@[simp] theorem State.requestDraw_bus (bound n : Nat) : (s.requestDraw bound n).bus = s.bus := rfl
@[simp] theorem State.requestDraw_draws (bound n : Nat) : (s.requestDraw bound n).draws = s.draws := rfl
@[simp] theorem State.requestDraw_requests (bound n : Nat) : (s.requestDraw bound n).requests = s.requests + 1 := rfl

/-! ## setK -/

@[simp] theorem Regs.setK_cmd (i : KIdx) (v : Nat) : (r.setK i v).cmd = r.cmd := rfl
@[simp] theorem Regs.setK_harden (i : KIdx) (v : Nat) : (r.setK i v).harden = r.harden := rfl
@[simp] theorem Regs.setK_ucv (i : KIdx) (v : Nat) : (r.setK i v).ucv = r.ucv := rfl
@[simp] theorem Regs.setK_k (i : KIdx) (v : Nat) : (r.setK i v).k = r.k.set i (BitVec.ofNat 512 v) := rfl
@[simp] theorem Regs.setK_pr (i : KIdx) (v : Nat) : (r.setK i v).pr = r.pr := rfl
@[simp] theorem Regs.setK_sigR (i : KIdx) (v : Nat) : (r.setK i v).sigR = r.sigR := rfl
@[simp] theorem Regs.setK_sigS (i : KIdx) (v : Nat) : (r.setK i v).sigS = r.sigS := rfl
@[simp] theorem Regs.setK_ua (i : KIdx) (v : Nat) : (r.setK i v).ua = r.ua := rfl
@[simp] theorem Regs.setK_ub (i : KIdx) (v : Nat) : (r.setK i v).ub = r.ub := rfl
@[simp] theorem Regs.setK_up (i : KIdx) (v : Nat) : (r.setK i v).up = r.up := rfl
@[simp] theorem Regs.setK_ebuf (i : KIdx) (v : Nat) : (r.setK i v).ebuf = r.ebuf := rfl
@[simp] theorem Regs.setK_elen (i : KIdx) (v : Nat) : (r.setK i v).elen = r.elen := rfl
@[simp] theorem Regs.setK_digest (i : KIdx) (v : Nat) : (r.setK i v).digest = r.digest := rfl
@[simp] theorem Regs.setK_dlen (i : KIdx) (v : Nat) : (r.setK i v).dlen = r.dlen := rfl

/-! ## setPt -/

@[simp] theorem Regs.setPt_cmd (i : PIdx) (p : Point) : (r.setPt i p).cmd = r.cmd := rfl
@[simp] theorem Regs.setPt_harden (i : PIdx) (p : Point) : (r.setPt i p).harden = r.harden := rfl
@[simp] theorem Regs.setPt_ucv (i : PIdx) (p : Point) : (r.setPt i p).ucv = r.ucv := rfl
@[simp] theorem Regs.setPt_k (i : PIdx) (p : Point) : (r.setPt i p).k = r.k := rfl
@[simp] theorem Regs.setPt_pr (i : PIdx) (p : Point) : (r.setPt i p).pr = r.pr.set i p.toReg := rfl
@[simp] theorem Regs.setPt_sigR (i : PIdx) (p : Point) : (r.setPt i p).sigR = r.sigR := rfl
@[simp] theorem Regs.setPt_sigS (i : PIdx) (p : Point) : (r.setPt i p).sigS = r.sigS := rfl
@[simp] theorem Regs.setPt_ua (i : PIdx) (p : Point) : (r.setPt i p).ua = r.ua := rfl
@[simp] theorem Regs.setPt_ub (i : PIdx) (p : Point) : (r.setPt i p).ub = r.ub := rfl
@[simp] theorem Regs.setPt_up (i : PIdx) (p : Point) : (r.setPt i p).up = r.up := rfl
@[simp] theorem Regs.setPt_ebuf (i : PIdx) (p : Point) : (r.setPt i p).ebuf = r.ebuf := rfl
@[simp] theorem Regs.setPt_elen (i : PIdx) (p : Point) : (r.setPt i p).elen = r.elen := rfl
@[simp] theorem Regs.setPt_digest (i : PIdx) (p : Point) : (r.setPt i p).digest = r.digest := rfl
@[simp] theorem Regs.setPt_dlen (i : PIdx) (p : Point) : (r.setPt i p).dlen = r.dlen := rfl

/-! ## setMp -/

@[simp] theorem Regs.setMp_cmd (i : PIdx) (p : MPoint) : (r.setMp i p).cmd = r.cmd := rfl
@[simp] theorem Regs.setMp_harden (i : PIdx) (p : MPoint) : (r.setMp i p).harden = r.harden := rfl
@[simp] theorem Regs.setMp_ucv (i : PIdx) (p : MPoint) : (r.setMp i p).ucv = r.ucv := rfl
@[simp] theorem Regs.setMp_k (i : PIdx) (p : MPoint) : (r.setMp i p).k = r.k := rfl
@[simp] theorem Regs.setMp_pr (i : PIdx) (p : MPoint) : (r.setMp i p).pr = r.pr.set i p.toReg := rfl
@[simp] theorem Regs.setMp_sigR (i : PIdx) (p : MPoint) : (r.setMp i p).sigR = r.sigR := rfl
@[simp] theorem Regs.setMp_sigS (i : PIdx) (p : MPoint) : (r.setMp i p).sigS = r.sigS := rfl
@[simp] theorem Regs.setMp_ua (i : PIdx) (p : MPoint) : (r.setMp i p).ua = r.ua := rfl
@[simp] theorem Regs.setMp_ub (i : PIdx) (p : MPoint) : (r.setMp i p).ub = r.ub := rfl
@[simp] theorem Regs.setMp_up (i : PIdx) (p : MPoint) : (r.setMp i p).up = r.up := rfl
@[simp] theorem Regs.setMp_ebuf (i : PIdx) (p : MPoint) : (r.setMp i p).ebuf = r.ebuf := rfl
@[simp] theorem Regs.setMp_elen (i : PIdx) (p : MPoint) : (r.setMp i p).elen = r.elen := rfl
@[simp] theorem Regs.setMp_digest (i : PIdx) (p : MPoint) : (r.setMp i p).digest = r.digest := rfl
@[simp] theorem Regs.setMp_dlen (i : PIdx) (p : MPoint) : (r.setMp i p).dlen = r.dlen := rfl

/-! ## setSig -/

@[simp] theorem Regs.setSig_cmd (a b : Nat) : (r.setSig a b).cmd = r.cmd := rfl
@[simp] theorem Regs.setSig_harden (a b : Nat) : (r.setSig a b).harden = r.harden := rfl
@[simp] theorem Regs.setSig_ucv (a b : Nat) : (r.setSig a b).ucv = r.ucv := rfl
@[simp] theorem Regs.setSig_k (a b : Nat) : (r.setSig a b).k = r.k := rfl
@[simp] theorem Regs.setSig_pr (a b : Nat) : (r.setSig a b).pr = r.pr := rfl
@[simp] theorem Regs.setSig_sigR (a b : Nat) : (r.setSig a b).sigR = BitVec.ofNat 512 a := rfl
@[simp] theorem Regs.setSig_sigS (a b : Nat) : (r.setSig a b).sigS = BitVec.ofNat 512 b := rfl
@[simp] theorem Regs.setSig_ua (a b : Nat) : (r.setSig a b).ua = r.ua := rfl
@[simp] theorem Regs.setSig_ub (a b : Nat) : (r.setSig a b).ub = r.ub := rfl
@[simp] theorem Regs.setSig_up (a b : Nat) : (r.setSig a b).up = r.up := rfl
@[simp] theorem Regs.setSig_ebuf (a b : Nat) : (r.setSig a b).ebuf = r.ebuf := rfl
@[simp] theorem Regs.setSig_elen (a b : Nat) : (r.setSig a b).elen = r.elen := rfl
@[simp] theorem Regs.setSig_digest (a b : Nat) : (r.setSig a b).digest = r.digest := rfl
@[simp] theorem Regs.setSig_dlen (a b : Nat) : (r.setSig a b).dlen = r.dlen := rfl

/-! ## setUcv -/

@[simp] theorem Regs.setUcv_cmd (b : Bool) : (r.setUcv b).cmd = r.cmd := rfl
@[simp] theorem Regs.setUcv_harden (b : Bool) : (r.setUcv b).harden = r.harden := rfl
@[simp] theorem Regs.setUcv_ucv (b : Bool) : (r.setUcv b).ucv = b := rfl
@[simp] theorem Regs.setUcv_k (b : Bool) : (r.setUcv b).k = r.k := rfl
@[simp] theorem Regs.setUcv_pr (b : Bool) : (r.setUcv b).pr = r.pr := rfl
@[simp] theorem Regs.setUcv_sigR (b : Bool) : (r.setUcv b).sigR = r.sigR := rfl
@[simp] theorem Regs.setUcv_sigS (b : Bool) : (r.setUcv b).sigS = r.sigS := rfl
@[simp] theorem Regs.setUcv_ua (b : Bool) : (r.setUcv b).ua = r.ua := rfl
@[simp] theorem Regs.setUcv_ub (b : Bool) : (r.setUcv b).ub = r.ub := rfl
@[simp] theorem Regs.setUcv_up (b : Bool) : (r.setUcv b).up = r.up := rfl
@[simp] theorem Regs.setUcv_ebuf (b : Bool) : (r.setUcv b).ebuf = r.ebuf := rfl
@[simp] theorem Regs.setUcv_elen (b : Bool) : (r.setUcv b).elen = r.elen := rfl
@[simp] theorem Regs.setUcv_digest (b : Bool) : (r.setUcv b).digest = r.digest := rfl
@[simp] theorem Regs.setUcv_dlen (b : Bool) : (r.setUcv b).dlen = r.dlen := rfl

/-! ## setEncoding -/

@[simp] theorem Regs.setEncoding_cmd (bs : List Byte) : (r.setEncoding bs).cmd = r.cmd := rfl
@[simp] theorem Regs.setEncoding_harden (bs : List Byte) : (r.setEncoding bs).harden = r.harden := rfl
@[simp] theorem Regs.setEncoding_ucv (bs : List Byte) : (r.setEncoding bs).ucv = r.ucv := rfl
@[simp] theorem Regs.setEncoding_k (bs : List Byte) : (r.setEncoding bs).k = r.k := rfl
@[simp] theorem Regs.setEncoding_pr (bs : List Byte) : (r.setEncoding bs).pr = r.pr := rfl
@[simp] theorem Regs.setEncoding_sigR (bs : List Byte) : (r.setEncoding bs).sigR = r.sigR := rfl
@[simp] theorem Regs.setEncoding_sigS (bs : List Byte) : (r.setEncoding bs).sigS = r.sigS := rfl
@[simp] theorem Regs.setEncoding_ua (bs : List Byte) : (r.setEncoding bs).ua = r.ua := rfl
@[simp] theorem Regs.setEncoding_ub (bs : List Byte) : (r.setEncoding bs).ub = r.ub := rfl
@[simp] theorem Regs.setEncoding_up (bs : List Byte) : (r.setEncoding bs).up = r.up := rfl
@[simp] theorem Regs.setEncoding_ebuf (bs : List Byte) : (r.setEncoding bs).ebuf = bufOf 65 bs := rfl
@[simp] theorem Regs.setEncoding_elen (bs : List Byte) : (r.setEncoding bs).elen = Fin.ofNat 66 bs.length := rfl
@[simp] theorem Regs.setEncoding_digest (bs : List Byte) : (r.setEncoding bs).digest = r.digest := rfl
@[simp] theorem Regs.setEncoding_dlen (bs : List Byte) : (r.setEncoding bs).dlen = r.dlen := rfl

/-! ## The derived reads -/

theorem State.inputs_idle (h : s.phase = .idle) : s.inputs = s.regs := by simp [State.inputs, h]

theorem State.inputs_busy {s : State} {snap : Regs} {rng : RngPort} {n : Nat} (h : s.phase = .busy snap rng n) :
    s.inputs = snap := by simp [State.inputs, h]

theorem State.port_busy {s : State} {snap : Regs} {rng : RngPort} {n : Nat} (h : s.phase = .busy snap rng n) :
    s.port = rng := by simp [State.port, h]

theorem State.redraws_busy {s : State} {snap : Regs} {rng : RngPort} {n : Nat} (h : s.phase = .busy snap rng n) :
    s.redraws = n := by simp [State.redraws, h]

theorem State.busy_iff {s : State} : s.busy = true ↔ ∃ snap rng n, s.phase = .busy snap rng n := by
  unfold State.busy; split <;> simp_all

theorem State.busy_eq_false_iff {s : State} : s.busy = false ↔ s.phase = .idle := by
  unfold State.busy; split <;> simp_all

/-- What a buffer made from a byte string holds. -/
@[simp] theorem bufOf_getElem (n : Nat) (bs : List Byte) (j : Nat) (h : j < n) : (bufOf n bs)[j] = bs.getD j 0 := by
  unfold bufOf
  simp

/-- What a scalar register reads after a write to one (10_state.md R30). -/
theorem Regs.kNat_setK (i j : KIdx) (v : Nat) (hv : v < 2 ^ 512) :
    (r.setK i v).kNat j = if i = j then v else r.kNat j := by
  simp only [Regs.kNat, Regs.setK, Fin.getElem_fin, Vector.getElem_set, Fin.ext_iff]
  split
  · rw [BitVec.toNat_ofNat, Nat.mod_eq_of_lt hv]
  · rfl

/-- What a point register reads after a write to one. -/
theorem Regs.setPt_getPr (i j : PIdx) (p : Point) : (r.setPt i p).pr[j] = if i = j then p.toReg else r.pr[j] := by
  simp only [Regs.setPt, Fin.getElem_fin, Vector.getElem_set, Fin.ext_iff]

theorem Regs.setMp_getPr (i j : PIdx) (p : MPoint) : (r.setMp i p).pr[j] = if i = j then p.toReg else r.pr[j] := by
  simp only [Regs.setMp, Fin.getElem_fin, Vector.getElem_set, Fin.ext_iff]

end Sys2Proof.Machine
end

