-- ==== Sys2Proof/Laws/Ops.lean ====
section
/-! SUPPORT. One inversion lemma per shared operation: if it answers a next state, then one of these cases holds. -/

namespace Sys2Proof.Machine

/-! ## Ending a command -/

@[simp] theorem State.finish_ok (s : State) (r : Regs) (b : Bool) : s.finish (.ok (r, b)) = .next (s.commitOk r b) := rfl

@[simp] theorem State.finish_error (s : State) (e : ErrCode) : s.finish (.error e) = .next (s.commitError e) := rfl

@[simp] theorem except_ok_bind {ε α β : Type} (a : α) (f : α → Except ε β) : (Except.ok a >>= f) = f a := rfl

@[simp] theorem except_error_bind {ε α β : Type} (e : ε) (f : α → Except ε β) : (Except.error e >>= f) = .error e := rfl

@[simp] theorem except_pure {ε α : Type} (a : α) : (pure a : Except ε α) = .ok a := rfl

/-- A bind that succeeds came through both its parts. -/
theorem except_bind_eq_ok {ε α β : Type} {x : Except ε α} {f : α → Except ε β} {b : β} (h : (x >>= f) = .ok b) :
    ∃ a, x = .ok a ∧ f a = .ok b := by
  cases x with
  | ok a => exact ⟨a, rfl, h⟩
  | error e => cases h

/-- A command ended by `finish` commits, with success or with the body's first error. -/
theorem State.finish_cases {s t : State} {body : Except ErrCode (Regs × Bool)} (h : s.finish body = .next t) :
    (∃ r b, body = .ok (r, b) ∧ t = s.commitOk r b) ∨ (∃ e, body = .error e ∧ t = s.commitError e) := by
  rcases body with e | ⟨r, b⟩
  · exact .inr ⟨e, rfl, by simpa using h.symm⟩
  · exact .inl ⟨r, b, rfl, by simpa using h.symm⟩

theorem State.finish_next (s : State) (body : Except ErrCode (Regs × Bool)) : ∃ t, s.finish body = .next t := by
  rcases body with e | ⟨r, b⟩ <;> exact ⟨_, rfl⟩

theorem State.writeKMod_ok {s : State} {kd : KIdx} {ms : ModSel} {f : Nat → Except ErrCode Nat} {m v : Nat}
    (hm : s.inputs.modulus ms = .ok m) (hv : f m = .ok v) :
    s.writeKMod kd ms f = .next (s.commitOk (s.regs.setK kd v) false) := by
  simp [State.writeKMod, hm, hv]

theorem State.writePtCurve_ok {s : State} {pd : PIdx} {cs : CurveSel} {f : Curve → Except ErrCode Point} {c : Curve}
    {p : Point} (hc : s.inputs.curve cs = .ok c) (hp : f c = .ok p) :
    s.writePtCurve pd cs f = .next (s.commitOk (s.regs.setPt pd p) false) := by
  simp [State.writePtCurve, hc, hp]

/-! ## The random source port -/

/-- What one turn of a drawing command can do. -/
theorem State.drawTurn_cases {s t : State} {bound : Nat} {body : Nat → Except ErrCode Attempt}
    (h : s.drawTurn bound body = .next t) :
    (s.port = .idle ∧ t = s.requestDraw bound 0) ∨
    (∃ id b, s.port = .pending id b ∧ t = s) ∨
    (∃ b, s.port = .answered b .fail ∧ t = s.commitError .rngFail) ∨
    (∃ b v, s.port = .answered b (.value v) ∧
      ((∃ r, body v = .ok (.done r) ∧ t = s.commitOk r false) ∨
       (body v = .ok .redraw ∧ t = s.requestDraw bound (s.redraws + 1)) ∨
       (∃ e, body v = .error e ∧ t = s.commitError e))) := by
  unfold State.drawTurn at h
  split at h
  · rename_i hp; exact .inl ⟨hp, by simpa using h.symm⟩
  · rename_i id b hp; exact .inr (.inl ⟨id, b, hp, by simpa using h.symm⟩)
  · rename_i b hp; exact .inr (.inr (.inl ⟨b, hp, by simpa using h.symm⟩))
  · rename_i b v hp
    refine .inr (.inr (.inr ⟨b, v, hp, ?_⟩))
    split at h
    · rename_i r hb; exact .inl ⟨r, hb, by simpa using h.symm⟩
    · rename_i hb; exact .inr (.inl ⟨hb, by simpa using h.symm⟩)
    · rename_i e hb; exact .inr (.inr ⟨e, hb, by simpa using h.symm⟩)

theorem State.drawTurn_next (s : State) (bound : Nat) (body : Nat → Except ErrCode Attempt) :
    ∃ t, s.drawTurn bound body = .next t := by
  unfold State.drawTurn
  split
  · exact ⟨_, rfl⟩
  · exact ⟨_, rfl⟩
  · exact ⟨_, rfl⟩
  · split <;> exact ⟨_, rfl⟩

/-- What the arrival of an answer can do. -/
theorem State.deliver_cases {s t : State} {id : Nat} {a : RngAnswer} (h : s.deliver id a = .next t) :
    t = s ∨ ∃ snap bound n, s.phase = .busy snap (.pending id bound) n ∧
      (∀ v, a = .value v → v < bound) ∧ t = { s with phase := .busy snap (.answered bound a) n } := by
  unfold State.deliver at h
  split at h
  · rename_i snap pid bound n hp
    split at h
    · rename_i hid
      subst hid
      split at h
      · exact .inr ⟨snap, bound, n, hp, by simp, by simpa using h.symm⟩
      · split at h
        · rename_i hv
          exact .inr ⟨snap, bound, n, hp, fun w hw => by cases hw; exact hv, by simpa using h.symm⟩
        · cases h
    · exact .inl (by simpa using h.symm)
  all_goals exact .inl (by simpa using h.symm)

/-- The awaited answer, when it is taken, is handed over. -/
theorem State.deliver_awaited {s t : State} {snap : Regs} {id bound n : Nat} {a : RngAnswer}
    (hp : s.phase = .busy snap (.pending id bound) n) (h : s.deliver id a = .next t) :
    t.phase = .busy snap (.answered bound a) n := by
  simp only [State.deliver, hp, if_true] at h
  split at h
  · cases h; rfl
  · split at h
    · cases h; rfl
    · cases h

theorem State.deliver_fault {s : State} {id : Nat} {a : RngAnswer} {r : Fault} (h : s.deliver id a = .fault r) :
    r = .rngAnswerOutOfRange ∧ ∃ snap bound n v, s.phase = .busy snap (.pending id bound) n ∧ a = .value v ∧ bound ≤ v := by
  unfold State.deliver at h
  split at h
  · rename_i snap pid bound n hp
    split at h
    · rename_i hid
      subst hid
      split at h
      · cases h
      · rename_i v
        split at h
        · cases h
        · rename_i hv
          exact ⟨by simpa using h.symm, snap, bound, n, v, hp, rfl, Nat.le_of_not_lt hv⟩
    · cases h
  · cases h
  · cases h
  · cases h

theorem State.deliver_not_refused (s : State) (id : Nat) (a : RngAnswer) (r : Refusal) : s.deliver id a ≠ .refused r := by
  unfold State.deliver
  split
  · split
    · split
      · exact nofun
      · split <;> exact nofun
    · exact nofun
  · exact nofun
  · exact nofun
  · exact nofun

end Sys2Proof.Machine
end

