-- ==== Sys2Proof/Laws/Exec.lean ====
section
/-! SUPPORT. What one command can do, said once: `exec_cases` (which every invariant rests on), `exec_next` (every command answers a next state) and the inversion of the engine's turn and of a step. -/

namespace Sys2Proof.Machine

/-- The registers that no command but W.CONS changes: CMD, HARDEN, UCV, the user curve and the digest. -/
structure Regs.Kept (r r0 : Regs) : Prop where
  cmd : r.cmd = r0.cmd
  harden : r.harden = r0.harden
  ucv : r.ucv = r0.ucv
  ua : r.ua = r0.ua
  ub : r.ub = r0.ub
  up : r.up = r0.up
  digest : r.digest = r0.digest
  dlen : r.dlen = r0.dlen

theorem Regs.Kept.refl (r : Regs) : r.Kept r := ⟨rfl, rfl, rfl, rfl, rfl, rfl, rfl, rfl⟩
theorem Regs.Kept.setK (r : Regs) (i : KIdx) (v : Nat) : (r.setK i v).Kept r := ⟨rfl, rfl, rfl, rfl, rfl, rfl, rfl, rfl⟩
theorem Regs.Kept.setPt (r : Regs) (i : PIdx) (p : Point) : (r.setPt i p).Kept r := ⟨rfl, rfl, rfl, rfl, rfl, rfl, rfl, rfl⟩
theorem Regs.Kept.setMp (r : Regs) (i : PIdx) (p : MPoint) : (r.setMp i p).Kept r := ⟨rfl, rfl, rfl, rfl, rfl, rfl, rfl, rfl⟩
theorem Regs.Kept.setSig (r : Regs) (a b : Nat) : (r.setSig a b).Kept r := ⟨rfl, rfl, rfl, rfl, rfl, rfl, rfl, rfl⟩
theorem Regs.Kept.setEncoding (r : Regs) (bs : List Byte) : (r.setEncoding bs).Kept r := ⟨rfl, rfl, rfl, rfl, rfl, rfl, rfl, rfl⟩

theorem Regs.Kept.trans {a b c : Regs} (h1 : a.Kept b) (h2 : b.Kept c) : a.Kept c :=
  ⟨h1.cmd.trans h2.cmd, h1.harden.trans h2.harden, h1.ucv.trans h2.ucv, h1.ua.trans h2.ua, h1.ub.trans h2.ub,
    h1.up.trans h2.up, h1.digest.trans h2.digest, h1.dlen.trans h2.dlen⟩

/-- The five things one turn of a command can do to the state. -/
inductive Turn (s : State) : State → Prop where
  | commit (r : Regs) (b : Bool) : r.Kept s.regs → Turn s (s.commitOk r b)
  | error (e : ErrCode) : Turn s (s.commitError e)
  | request (bound n : Nat) : Turn s (s.requestDraw bound n)
  | wait (id bound : Nat) : s.port = .pending id bound → Turn s s

theorem Turn.of_finish {s t : State} {body : Except ErrCode (Regs × Bool)} (h : s.finish body = .next t)
    (hk : ∀ r b, body = .ok (r, b) → r.Kept s.regs) : Turn s t := by
  rcases State.finish_cases h with ⟨r, b, hb, rfl⟩ | ⟨e, -, rfl⟩
  · exact .commit r b (hk r b hb)
  · exact .error e

theorem Turn.of_writeKMod {s t : State} {kd : KIdx} {ms : ModSel} {f : Nat → Except ErrCode Nat}
    (h : s.writeKMod kd ms f = .next t) : Turn s t := by
  refine Turn.of_finish h fun r b hb => ?_
  obtain ⟨m, -, h1⟩ := except_bind_eq_ok hb
  obtain ⟨v, -, h2⟩ := except_bind_eq_ok h1
  cases h2
  exact .setK s.regs kd v

theorem Turn.of_writePtCurve {s t : State} {pd : PIdx} {cs : CurveSel} {f : Curve → Except ErrCode Point}
    (h : s.writePtCurve pd cs f = .next t) : Turn s t := by
  refine Turn.of_finish h fun r b hb => ?_
  obtain ⟨c, -, h1⟩ := except_bind_eq_ok hb
  obtain ⟨p, -, h2⟩ := except_bind_eq_ok h1
  cases h2
  exact .setPt s.regs pd p

theorem Turn.of_drawTurn {s t : State} {bound : Nat} {body : Nat → Except ErrCode Attempt}
    (h : s.drawTurn bound body = .next t) (hk : ∀ v r, body v = .ok (.done r) → r.Kept s.regs) : Turn s t := by
  rcases State.drawTurn_cases h with ⟨-, rfl⟩ | ⟨id, b, hp, rfl⟩ | ⟨b, -, rfl⟩ | ⟨b, v, -, hv⟩
  · exact .request _ _
  · exact .wait id b hp
  · exact .error _
  · rcases hv with ⟨r, hr, rfl⟩ | ⟨-, rfl⟩ | ⟨e, -, rfl⟩
    · exact .commit r false (hk v r hr)
    · exact .request _ _
    · exact .error e

/-- What W.CONS can do: set UCV after its checks passed, or clear it and end with an error. -/
theorem execWCons_cases {s t : State} (h : execWCons s = .next t) :
    (wConstruct s.inputs.ua.toNat s.inputs.ub.toNat s.inputs.up.toNat s.draws = .ok () ∧
      t = s.commitOk (s.regs.setUcv true) false) ∨
    (∃ e, wConstruct s.inputs.ua.toNat s.inputs.ub.toNat s.inputs.up.toNat s.draws = .error e ∧
      t = { s with regs := s.regs.setUcv false }.commitError e) := by
  unfold execWCons at h
  dsimp only at h
  split at h
  · rename_i u hu; exact .inl ⟨hu, by simpa using h.symm⟩
  · rename_i e he; exact .inr ⟨e, he, by simpa using h.symm⟩

/-- What success of W.CONS's checks says (41_weierstrass.md R170). -/
theorem wConstruct_ok {a b p d : Nat} (h : wConstruct a b p d = .ok ()) :
    p < 2 ^ 256 ∧ fPrime p d = true ∧ wDisc a b p ≠ 0 := by
  unfold wConstruct at h
  split at h
  · cases h
  · split at h
    · cases h
    · split at h
      · cases h
      · rename_i h1 h2 h3; exact ⟨Nat.lt_of_not_le h1, by simpa using h2, h3⟩

/-! ## The arms of exec -/

theorem exec_nop (s : State) : exec .nop s = execNop s := rfl
theorem exec_ldc (kd : KIdx) (ms : ModSel) (s : State) : exec (.ldc kd ms) s = execLdc kd ms s := rfl
theorem exec_wldg (pd : PIdx) (s : State) : exec (.wldg pd) s = execWLdg pd s := rfl
theorem exec_mldg (pd : PIdx) (s : State) : exec (.mldg pd) s = execMLdg pd s := rfl
theorem exec_h2i (kd : KIdx) (s : State) : exec (.h2i kd) s = execH2i kd s := rfl
theorem exec_fadd (kd : KIdx) (ka : KIdx) (kb : KIdx) (ms : ModSel) (s : State) : exec (.fadd kd ka kb ms) s = execFAdd kd ka kb ms s := rfl
theorem exec_fsub (kd : KIdx) (ka : KIdx) (kb : KIdx) (ms : ModSel) (s : State) : exec (.fsub kd ka kb ms) s = execFSub kd ka kb ms s := rfl
theorem exec_fmul (kd : KIdx) (ka : KIdx) (kb : KIdx) (ms : ModSel) (s : State) : exec (.fmul kd ka kb ms) s = execFMul kd ka kb ms s := rfl
theorem exec_fpow (kd : KIdx) (ka : KIdx) (kb : KIdx) (ms : ModSel) (s : State) : exec (.fpow kd ka kb ms) s = execFPow kd ka kb ms s := rfl
theorem exec_finv (kd : KIdx) (ka : KIdx) (ms : ModSel) (s : State) : exec (.finv kd ka ms) s = execFInv kd ka ms s := rfl
theorem exec_fleg (kd : KIdx) (ka : KIdx) (ms : ModSel) (s : State) : exec (.fleg kd ka ms) s = execFLeg kd ka ms s := rfl
theorem exec_fsqrt (kd : KIdx) (ka : KIdx) (ms : ModSel) (s : State) : exec (.fsqrt kd ka ms) s = execFSqrt kd ka ms s := rfl
theorem exec_fprime (ka : KIdx) (s : State) : exec (.fprime ka) s = execFPrime ka s := rfl
theorem exec_wcons (s : State) : exec .wcons s = execWCons s := rfl
theorem exec_wadd (pd : PIdx) (pa : PIdx) (pb : PIdx) (cs : CurveSel) (s : State) : exec (.wadd pd pa pb cs) s = execWAdd pd pa pb cs s := rfl
theorem exec_wdbl (pd : PIdx) (pa : PIdx) (cs : CurveSel) (s : State) : exec (.wdbl pd pa cs) s = execWDbl pd pa cs s := rfl
theorem exec_wneg (pd : PIdx) (pa : PIdx) (cs : CurveSel) (s : State) : exec (.wneg pd pa cs) s = execWNeg pd pa cs s := rfl
theorem exec_wmul (pd : PIdx) (pa : PIdx) (ka : KIdx) (cs : CurveSel) (s : State) : exec (.wmul pd pa ka cs) s = execWMul pd pa ka cs s := rfl
theorem exec_weval (kd : KIdx) (ka : KIdx) (cs : CurveSel) (s : State) : exec (.weval kd ka cs) s = execWEval kd ka cs s := rfl
theorem exec_wvalid (pa : PIdx) (cs : CurveSel) (s : State) : exec (.wvalid pa cs) s = execWValid pa cs s := rfl
theorem exec_wenc (pa : PIdx) (form : EncForm) (s : State) : exec (.wenc pa form) s = execWEnc pa form s := rfl
theorem exec_wdec (pd : PIdx) (cs : CurveSel) (s : State) : exec (.wdec pd cs) s = execWDec pd cs s := rfl
theorem exec_madd (pd : PIdx) (pa : PIdx) (pb : PIdx) (s : State) : exec (.madd pd pa pb) s = execMAdd pd pa pb s := rfl
theorem exec_mdbl (pd : PIdx) (pa : PIdx) (s : State) : exec (.mdbl pd pa) s = execMDbl pd pa s := rfl
theorem exec_mmul (pd : PIdx) (pa : PIdx) (ka : KIdx) (s : State) : exec (.mmul pd pa ka) s = execMMul pd pa ka s := rfl
theorem exec_meval (pa : PIdx) (s : State) : exec (.meval pa) s = execMEval pa s := rfl
theorem exec_mvalid (pa : PIdx) (s : State) : exec (.mvalid pa) s = execMValid pa s := rfl
theorem exec_mrand (pd : PIdx) (s : State) : exec (.mrand pd) s = execMRand pd s := rfl
theorem exec_maffx (kd : KIdx) (pa : PIdx) (s : State) : exec (.maffx kd pa) s = execMAffx kd pa s := rfl
theorem exec_ekeygen (pd : PIdx) (kd : KIdx) (s : State) : exec (.ekeygen pd kd) s = execEKeygen pd kd s := rfl
theorem exec_esign (ka : KIdx) (s : State) : exec (.esign ka) s = execESign ka s := rfl
theorem exec_everify (pa : PIdx) (s : State) : exec (.everify pa) s = execEVerify pa s := rfl

/-- Every command but W.CONS does one of the things of `Turn`. -/
theorem exec_turn {i : Instr} {s t : State} (hi : i ≠ .wcons) (h : exec i s = .next t) : Turn s t := by
  cases i with
  | wcons => exact absurd rfl hi
  | nop => rw [exec_nop, execNop] at h; exact Turn.of_finish h fun r b hb => by cases hb; exact .refl _
  | ldc kd ms =>
    refine Turn.of_finish h fun r b hb => ?_
    obtain ⟨m, -, h1⟩ := except_bind_eq_ok hb
    cases h1; exact .setK _ _ _
  | wldg pd => rw [exec_wldg, execWLdg] at h; exact Turn.of_finish h fun r b hb => by cases hb; exact .setPt _ _ _
  | mldg pd => rw [exec_mldg, execMLdg] at h; exact Turn.of_finish h fun r b hb => by cases hb; exact .setMp _ _ _
  | h2i kd => rw [exec_h2i, execH2i] at h; exact Turn.of_finish h fun r b hb => by cases hb; exact .setK _ _ _
  | fadd kd ka kb ms => exact Turn.of_writeKMod h
  | fsub kd ka kb ms => exact Turn.of_writeKMod h
  | fmul kd ka kb ms => exact Turn.of_writeKMod h
  | fpow kd ka kb ms => exact Turn.of_writeKMod h
  | finv kd ka ms => exact Turn.of_writeKMod h
  | fleg kd ka ms => exact Turn.of_writeKMod h
  | fsqrt kd ka ms => exact Turn.of_writeKMod h
  | fprime ka => rw [exec_fprime, execFPrime] at h; exact Turn.of_finish h fun r b hb => by cases hb; exact .refl _
  | wadd pd pa pb cs => exact Turn.of_writePtCurve h
  | wdbl pd pa cs => exact Turn.of_writePtCurve h
  | wneg pd pa cs => exact Turn.of_writePtCurve h
  | wmul pd pa ka cs => exact Turn.of_writePtCurve h
  | weval kd ka cs =>
    refine Turn.of_finish h fun r b hb => ?_
    obtain ⟨c, -, h1⟩ := except_bind_eq_ok hb
    obtain ⟨y, -, h2⟩ := except_bind_eq_ok h1
    cases h2; exact .setK _ _ _
  | wvalid pa cs =>
    refine Turn.of_finish h fun r b hb => ?_
    obtain ⟨c, -, h1⟩ := except_bind_eq_ok hb
    cases h1; exact .refl _
  | wenc pa form =>
    refine Turn.of_finish h fun r b hb => ?_
    obtain ⟨bs, -, h1⟩ := except_bind_eq_ok hb
    cases h1; exact .setEncoding _ _
  | wdec pd cs => exact Turn.of_writePtCurve h
  | madd pd pa pb => rw [exec_madd, execMAdd] at h; exact Turn.of_finish h fun r b hb => by cases hb; exact .setMp _ _ _
  | mdbl pd pa => rw [exec_mdbl, execMDbl] at h; exact Turn.of_finish h fun r b hb => by cases hb; exact .setMp _ _ _
  | mmul pd pa ka => rw [exec_mmul, execMMul] at h; exact Turn.of_finish h fun r b hb => by cases hb; exact .setMp _ _ _
  | meval pa =>
    refine Turn.of_finish h fun r b hb => ?_
    obtain ⟨u, -, h1⟩ := except_bind_eq_ok hb
    cases h1; exact .refl _
  | mvalid pa =>
    refine Turn.of_finish h fun r b hb => ?_
    obtain ⟨v, -, h1⟩ := except_bind_eq_ok hb
    cases h1; exact .refl _
  | mrand pd =>
    refine Turn.of_drawTurn h fun v r hr => ?_
    split at hr
    · cases hr; exact .setMp _ _ _
    · cases hr
  | maffx kd pa =>
    refine Turn.of_finish h fun r b hb => ?_
    obtain ⟨x, -, h1⟩ := except_bind_eq_ok hb
    cases h1; exact .setK _ _ _
  | ekeygen pd kd =>
    refine Turn.of_drawTurn h fun v r hr => ?_
    obtain ⟨q, -, h1⟩ := except_bind_eq_ok hr
    cases h1; exact .trans (.setPt _ _ _) (.setK _ _ _)
  | esign ka =>
    refine Turn.of_drawTurn h fun v r hr => ?_
    obtain ⟨sig, -, h1⟩ := except_bind_eq_ok hr
    rcases sig with _ | ⟨a, b⟩
    · cases h1
    · cases h1; exact .setSig _ _ _
  | everify pa =>
    refine Turn.of_finish h fun r b hb => ?_
    obtain ⟨v, -, h1⟩ := except_bind_eq_ok hb
    cases h1; exact .refl _

/-- Every command answers a next state on every state: "refused: none", and an error commit is no fault (60_exceptions.md R333). -/
theorem exec_next (i : Instr) (s : State) : ∃ t, exec i s = .next t := by
  cases i with
  | wcons => change ∃ t, execWCons s = .next t; unfold execWCons; dsimp only; split <;> exact ⟨_, rfl⟩
  | mrand pd => exact State.drawTurn_next s _ _
  | ekeygen pd kd => exact State.drawTurn_next s _ _
  | esign ka => exact State.drawTurn_next s _ _
  | nop => rw [exec_nop, execNop]; exact s.finish_next _
  | wldg pd => rw [exec_wldg, execWLdg]; exact s.finish_next _
  | mldg pd => rw [exec_mldg, execMLdg]; exact s.finish_next _
  | h2i kd => rw [exec_h2i, execH2i]; exact s.finish_next _
  | fprime ka => rw [exec_fprime, execFPrime]; exact s.finish_next _
  | madd pd pa pb => rw [exec_madd, execMAdd]; exact s.finish_next _
  | mdbl pd pa => rw [exec_mdbl, execMDbl]; exact s.finish_next _
  | mmul pd pa ka => rw [exec_mmul, execMMul]; exact s.finish_next _
  | _ => exact State.finish_next s _

/-- What the engine's turn can do. -/
theorem engineTurn_cases {s t : State} (h : engineTurn s = .next t) :
    t = s ∨ ∃ snap rng n, s.inReset = false ∧ s.phase = .busy snap rng n ∧ (∀ id b, rng ≠ .pending id b) ∧
      ((∃ i, snap.command = .ok i ∧ exec i s = .next t) ∨
       (∃ e, snap.command = .error e ∧ t = s.commitError .illegalCmd)) := by
  unfold engineTurn at h
  split at h
  · exact .inl (by simpa using h.symm)
  · rename_i hr
    split at h
    · exact .inl (by simpa using h.symm)
    · exact .inl (by simpa using h.symm)
    · rename_i snap rng n hp hb
      refine .inr ⟨snap, rng, n, by simpa using hr, hb, fun id b hrng => hp id b hrng, ?_⟩
      split at h
      · rename_i i hi; exact .inl ⟨i, hi, h⟩
      · rename_i e he; exact .inr ⟨e, he, by simpa using h.symm⟩

/-- The engine's turn always answers a next state. -/
theorem engineTurn_next (s : State) : ∃ t, engineTurn s = .next t := by
  unfold engineTurn
  split
  · exact ⟨_, rfl⟩
  · split
    · exact ⟨_, rfl⟩
    · exact ⟨_, rfl⟩
    · split
      · exact exec_next _ _
      · exact ⟨_, rfl⟩

/-- What a host write can do to the state. -/
inductive Written (s : State) : State → Prop where
  | same : Written s s
  | ovr : s.busy = true → Written s s.setOvr
  | status (v : Word) : Written s (s.writeStatus v)
  | reset : Written s s.resetRegs
  | accept (h q : Bool) : s.busy = false → Written s (s.accept h q)
  | ctrl (h q : Bool) : s.busy = false → Written s { s with regs := { s.regs with harden := h }, irqEn := q }
  | operand (t : Target) (v : Word) : s.busy = false → Written s { s with regs := s.regs.writeOperand t v }

theorem State.writeIdle_cases (s : State) (t : Target) (v : Word) : Written s (s.writeIdle t v) := by
  unfold State.writeIdle
  split
  · rename_i h; exact .ovr h
  · rename_i h; exact .operand t v (by simpa using h)

theorem State.writeWord_cases (s : State) (t : Target) (v : Word) : Written s (s.writeWord t v) := by
  cases t with
  | id => exact .same
  | reserved => exact .same
  | status => exact .status v
  | ctrl =>
    change Written s (s.writeCtrl v)
    unfold State.writeCtrl
    split
    · exact .reset
    · split
      · rename_i h; exact .ovr h
      · rename_i h
        split
        · exact .accept _ _ (by simpa using h)
        · exact .ctrl _ _ (by simpa using h)
  | cmd => exact s.writeIdle_cases _ v
  | pinf => exact s.writeIdle_cases _ v
  | elen => exact s.writeIdle_cases _ v
  | dlen => exact s.writeIdle_cases _ v
  | ebuf w => exact s.writeIdle_cases _ v
  | digest w => exact s.writeIdle_cases _ v
  | big b w => exact s.writeIdle_cases _ v

/-- What a host access can do: a response, and for a legal write one of the effects of `Written`. -/
theorem State.access_cases (s : State) (a : HostAccess) : ∃ t b, Written s t ∧ s.access a = { t with bus := b } := by
  unfold State.access
  split
  · split
    · exact ⟨s, _, .same, rfl⟩
    · exact ⟨_, _, s.writeWord_cases _ _, rfl⟩
  · exact ⟨s, _, .same, rfl⟩

end Sys2Proof.Machine
end

