-- ==== Sys2Proof/Laws/Bus.lean ====
section
/-! SUPPORT. The laws of the register window: words of 512-bit registers and of byte buffers read back what was written and leave the rest alone, and the address map places every register (20_memory.md R85 to R87). -/

namespace Sys2Proof.Machine

/-- The word just written reads back (20_memory.md R86). -/
theorem bigWord_setBigWord_same (v : Big) {w : Nat} (hw : w < 16) (x : Word) : bigWord (setBigWord v w x) w = x := by
  apply BitVec.eq_of_getLsbD_eq
  intro i hi
  simp only [bigWord, setBigWord, BitVec.getLsbD_extractLsb', BitVec.getLsbD_or, BitVec.getLsbD_and, BitVec.getLsbD_not,
    BitVec.getLsbD_shiftLeft, BitVec.getLsbD_setWidth, BitVec.getLsbD_allOnes, hi]
  have h1 : 480 - 32 * w + i < 512 := by omega
  have h3 : 480 - 32 * w + i - (480 - 32 * w) = i := by omega
  have h2 : ¬ (480 - 32 * w + i < 480 - 32 * w) := by omega
  have h4 : i < 512 := by omega
  simp [h1, h2, h3, h4, hi]

/-- Every other word of the register is left alone (20_memory.md R86). -/
theorem bigWord_setBigWord_ne (v : Big) {w u : Nat} (hw : w < 16) (hu : u < 16) (h : u ≠ w) (x : Word) :
    bigWord (setBigWord v w x) u = bigWord v u := by
  apply BitVec.eq_of_getLsbD_eq
  intro i hi
  simp only [bigWord, setBigWord, BitVec.getLsbD_extractLsb', BitVec.getLsbD_or, BitVec.getLsbD_and, BitVec.getLsbD_not,
    BitVec.getLsbD_shiftLeft, BitVec.getLsbD_setWidth, BitVec.getLsbD_allOnes, hi]
  have h1 : 480 - 32 * u + i < 512 := by omega
  rcases Nat.lt_or_gt_of_ne h with hlt | hgt
  · have h3 : ¬ (480 - 32 * u + i < 480 - 32 * w) := by omega
    have h4 : ¬ (480 - 32 * u + i - (480 - 32 * w) < 32) := by omega
    have h5 : x.getLsbD (480 - 32 * u + i - (480 - 32 * w)) = false := BitVec.getLsbD_of_ge x _ (by omega)
    simp [h1, h3, h4, h5]
  · have h3 : 480 - 32 * u + i < 480 - 32 * w := by omega
    simp [h1, h3]

/-- A 512-bit register is its sixteen words. -/
theorem big_ext {v u : Big} (h : ∀ w, w < 16 → bigWord v w = bigWord u w) : v = u := by
  apply BitVec.eq_of_getLsbD_eq
  intro i hi
  have hw := h (15 - i / 32) (by omega)
  have hb := congrArg (fun y => y.getLsbD (i % 32)) hw
  simp only [bigWord, BitVec.getLsbD_extractLsb'] at hb
  have e : 480 - 32 * (15 - i / 32) + i % 32 = i := by omega
  have hm : i % 32 < 32 := Nat.mod_lt _ (by omega)
  simpa [e, hm] using hb

/-- The register just written reads back. -/
theorem Regs.bigReg_setBigReg_same (r : Regs) (b : BigReg) (v : Big) : (r.setBigReg b v).bigReg b = v := by
  cases b <;> simp [Regs.setBigReg, Regs.bigReg]

/-- Every other 512-bit register is left alone. -/
theorem Regs.bigReg_setBigReg_ne (r : Regs) {b c : BigReg} (h : c ≠ b) (v : Big) :
    (r.setBigReg b v).bigReg c = r.bigReg c := by
  cases b <;> cases c <;> simp_all [Regs.setBigReg, Regs.bigReg, Vector.getElem_set, Fin.ext_iff, eq_comm] <;>
    split <;> simp_all

/-- Each word of each 512-bit register stands where the address map puts it (20_memory.md R86, R87). -/
theorem target_bigReg (b : BigReg) {w : Nat} (hw : w < 16) : target (b.offset + 4 * w) = .big b w := by
  have key : ∀ (i : Fin 8) (w : Fin 16), target (BigReg.offset (.prX i) + 4 * w.val) = .big (.prX i) w.val ∧
      target (BigReg.offset (.prY i) + 4 * w.val) = .big (.prY i) w.val ∧
      target (BigReg.offset (.k i) + 4 * w.val) = .big (.k i) w.val ∧
      target (BigReg.offset .sigR + 4 * w.val) = .big .sigR w.val ∧
      target (BigReg.offset .sigS + 4 * w.val) = .big .sigS w.val ∧
      target (BigReg.offset .ua + 4 * w.val) = .big .ua w.val ∧
      target (BigReg.offset .ub + 4 * w.val) = .big .ub w.val ∧
      target (BigReg.offset .up + 4 * w.val) = .big .up w.val := by decide +kernel
  cases b with
  | prX i => exact (key i ⟨w, hw⟩).1
  | prY i => exact (key i ⟨w, hw⟩).2.1
  | k i => exact (key i ⟨w, hw⟩).2.2.1
  | sigR => exact (key 0 ⟨w, hw⟩).2.2.2.1
  | sigS => exact (key 0 ⟨w, hw⟩).2.2.2.2.1
  | ua => exact (key 0 ⟨w, hw⟩).2.2.2.2.2.1
  | ub => exact (key 0 ⟨w, hw⟩).2.2.2.2.2.2.1
  | up => exact (key 0 ⟨w, hw⟩).2.2.2.2.2.2.2

/-- The offsets of ID, CTRL, STATUS and of the reserved ranges, and no others, reach them (20_memory.md R87). -/
theorem target_iff (off : BitVec 12) (h4 : off.toNat % 4 = 0) :
    (target off.toNat = .id ↔ off.toNat = 0x000) ∧ (target off.toNat = .ctrl ↔ off.toNat = 0x004) ∧
    (target off.toNat = .status ↔ off.toNat = 0x008) ∧
    (target off.toNat = .reserved ↔ (0x01C ≤ off.toNat ∧ off.toNat ≤ 0x03F) ∨ (0x084 ≤ off.toNat ∧ off.toNat ≤ 0x0BF) ∨
      (0x840 ≤ off.toNat ∧ off.toNat ≤ 0xFFF)) := by
  have key : ∀ w : Fin 1024, (target (4 * w.val) = .id ↔ 4 * w.val = 0x000) ∧ (target (4 * w.val) = .ctrl ↔ 4 * w.val = 0x004) ∧
      (target (4 * w.val) = .status ↔ 4 * w.val = 0x008) ∧
      (target (4 * w.val) = .reserved ↔ (0x01C ≤ 4 * w.val ∧ 4 * w.val ≤ 0x03F) ∨ (0x084 ≤ 4 * w.val ∧ 4 * w.val ≤ 0x0BF) ∨
        (0x840 ≤ 4 * w.val ∧ 4 * w.val ≤ 0xFFF)) := by decide +kernel
  have h := key ⟨off.toNat / 4, by have := off.isLt; omega⟩
  rwa [show 4 * (off.toNat / 4) = off.toNat by omega] at h

/-- A buffer byte after one word write: the written word's byte, or what it was (20_memory.md R85). -/
theorem setBufWord_getElem {n : Nat} (buf : Vector Byte n) (w : Nat) (x : Word) (j : Nat) (hj : j < n) :
    (setBufWord buf w x)[j] = if j / 4 = w then wordByte x (j % 4) else buf[j] := by
  simp only [setBufWord, Vector.getElem_setIfInBounds]
  by_cases h0 : j = 4 * w
  · subst h0; simp
  by_cases h1 : j = 4 * w + 1
  · subst h1
    have a : (4 * w + 1) / 4 = w := by omega
    have b : (4 * w + 1) % 4 = 1 := by omega
    simp [a, b]
  by_cases h2 : j = 4 * w + 2
  · subst h2
    have a : (4 * w + 2) / 4 = w := by omega
    have b : (4 * w + 2) % 4 = 2 := by omega
    simp [a, b]
  by_cases h3 : j = 4 * w + 3
  · subst h3
    have a : (4 * w + 3) / 4 = w := by omega
    have b : (4 * w + 3) % 4 = 3 := by omega
    simp [a, b]
  have a : j / 4 ≠ w := by omega
  simp [a, Ne.symm h0, Ne.symm h1, Ne.symm h2, Ne.symm h3]

/-- An operand write never touches CMD's neighbours that no window reaches: HARDEN stays, and UCV stays or falls. -/
theorem Regs.writeOperand_harden (r : Regs) (t : Target) (v : Word) : (r.writeOperand t v).harden = r.harden := by
  cases t with
  | big b w => cases b <;> rfl
  | _ => rfl

/-- UCV = 1 after an operand write was 1 before it and the user curve is the same (10_state.md R41, R52). -/
theorem Regs.writeOperand_ucv (r : Regs) (t : Target) (v : Word) (h : (r.writeOperand t v).ucv = true) :
    r.ucv = true ∧ (r.writeOperand t v).ua = r.ua ∧ (r.writeOperand t v).ub = r.ub ∧ (r.writeOperand t v).up = r.up := by
  cases t with
  | big b w => cases b <;> first | exact ⟨h, rfl, rfl, rfl⟩ | cases h
  | _ => exact ⟨h, rfl, rfl, rfl⟩

end Sys2Proof.Machine
end

