-- ==== Sys2Proof/Laws/Bytes.lean ====
section
/-! SUPPORT. Byte strings and byte buffers: big-endian integers and their bytes (00_scope.md R13, 40_field_ops.md R140), and the bytes of a buffer word (20_memory.md R85). -/

namespace Sys2Proof.Machine

/-! ## `int_be` and `be_n` -/

theorem intBe_append_singleton (s : List Byte) (b : Byte) : intBe (s ++ [b]) = intBe s * 256 + b.toNat := by
  simp [intBe, List.foldl_append]

/-- `int_be` is the value of the digits read from the last byte up (00_scope.md R13). -/
theorem intBe_eq_ofDigits (s : List Byte) : intBe s = Nat.ofDigits 256 (s.map BitVec.toNat).reverse := by
  induction s using List.reverseRecOn with
  | nil => rfl
  | append_singleton s b ih =>
    rw [intBe_append_singleton, ih]
    simp [Nat.ofDigits_cons]; ring

theorem beBytes_length (n v : Nat) : (beBytes n v).length = n := by
  induction n with
  | zero => rfl
  | succ n ih => simp [beBytes, ih]

theorem beBytes_getElem? : ∀ (n v j : Nat), j < n → (beBytes n v)[j]? = some (BitVec.ofNat 8 (v / 256 ^ (n - 1 - j))) := by
  intro n
  induction n with
  | zero => intro v j h; omega
  | succ n ih =>
    intro v j h
    cases j with
    | zero => simp [beBytes]
    | succ j => rw [beBytes, List.getElem?_cons_succ, ih v j (by omega)]; congr 4; omega

theorem intBe_foldl (s : List Byte) : ∀ a : Nat, s.foldl (fun n b => n * 256 + b.toNat) a = a * 256 ^ s.length + intBe s := by
  induction s with
  | nil => intro a; simp [intBe]
  | cons b s ih =>
    intro a
    have h : intBe (b :: s) = b.toNat * 256 ^ s.length + intBe s := by
      have := ih (0 * 256 + b.toNat)
      rw [Nat.zero_mul, Nat.zero_add] at this
      rw [← this, intBe, List.foldl_cons, Nat.zero_mul, Nat.zero_add]
    rw [List.foldl_cons, ih, h, List.length_cons]
    ring

/-- `int_be` undoes `be_n` (40_field_ops.md R140). -/
theorem intBe_beBytes (n v : Nat) : intBe (beBytes n v) = v % 256 ^ n := by
  induction n with
  | zero => simp [beBytes, intBe, Nat.mod_one]
  | succ n ih =>
    rw [beBytes, intBe, List.foldl_cons, intBe_foldl, ih, beBytes_length, BitVec.toNat_ofNat]
    have h1 := Nat.mod_mul (x := v) (a := 256 ^ n) (b := 256)
    rw [← Nat.pow_succ] at h1
    norm_num
    rw [h1]
    ring

/-- `be_n` in one lemma: the bytes, or RANGE when `v >= 2^(8n)` (40_field_ops.md R140). -/
theorem beN_cases (n v : Nat) :
    (v < 2 ^ (8 * n) ∧ beN n v = .ok (beBytes n v)) ∨ (2 ^ (8 * n) ≤ v ∧ beN n v = .error .range) := by
  by_cases h : v < 2 ^ (8 * n)
  · exact .inl ⟨h, by rw [beN, if_pos h]⟩
  · exact .inr ⟨Nat.le_of_not_lt h, by rw [beN, if_neg h]⟩

/-! ## Buffers -/

theorem bufWord_toNat {n : Nat} (buf : Vector Byte n) (w : Nat) :
    (bufWord buf w).toNat = (((bufByte buf (4 * w)).toNat * 256 + (bufByte buf (4 * w + 1)).toNat) * 256
      + (bufByte buf (4 * w + 2)).toNat) * 256 + (bufByte buf (4 * w + 3)).toNat := by
  have h1 := (bufByte buf (4 * w + 1)).isLt
  have h2 := (bufByte buf (4 * w + 2)).isLt
  have h3 := (bufByte buf (4 * w + 3)).isLt
  unfold bufWord
  rw [BitVec.toNat_append, BitVec.toNat_append, BitVec.toNat_append, ← Nat.shiftLeft_add_eq_or_of_lt h3,
    ← Nat.shiftLeft_add_eq_or_of_lt h2, ← Nat.shiftLeft_add_eq_or_of_lt h1]
  simp only [Nat.shiftLeft_eq]

/-- Byte `4w + i` of a buffer stands in bits `[31 - 8i : 24 - 8i]` of its word `w` (20_memory.md R85). -/
theorem wordByte_bufWord {n : Nat} (buf : Vector Byte n) (w : Nat) {i : Nat} (h : i < 4) :
    wordByte (bufWord buf w) i = bufByte buf (4 * w + i) := by
  have h0 := (bufByte buf (4 * w)).isLt
  have h1 := (bufByte buf (4 * w + 1)).isLt
  have h2 := (bufByte buf (4 * w + 2)).isLt
  have h3 := (bufByte buf (4 * w + 3)).isLt
  apply BitVec.eq_of_toNat_eq
  rw [wordByte, BitVec.extractLsb'_toNat, bufWord_toNat, Nat.shiftRight_eq_div_pow]
  have hi : i = 0 ∨ i = 1 ∨ i = 2 ∨ i = 3 := by omega
  rcases hi with rfl | rfl | rfl | rfl
  · simp only [Nat.add_zero]; norm_num; omega
  · norm_num; omega
  · norm_num; omega
  · norm_num; omega

end Sys2Proof.Machine
end

