-- ==== Sys2Proof/Laws/Decode.lean ====
section
/-! SUPPORT. The command word as a number, and what the decoder's fields read from it (30_encoding.md R100, R104, R110). -/

namespace Sys2Proof

theorem CurveSel.bit_lt (c : CurveSel) : c.bit < 2 := by cases c <;> decide
theorem EncForm.bit_lt (c : EncForm) : c.bit < 2 := by cases c <;> decide
theorem ModSel.bits_lt (m : ModSel) : m.bits < 8 := by cases m <;> decide

/-- Fields at their places, as a sum: no two overlap. -/
theorem assemble_toNat {op : Nat} (h : op < 64) (f : Fields) :
    (assemble op f).toNat = op + f.pd.val * 2 ^ 6 + f.pa.val * 2 ^ 9 + f.pb.val * 2 ^ 12 + f.kd.val * 2 ^ 15
      + f.ka.val * 2 ^ 18 + f.kb.val * 2 ^ 21 + f.cs.bit * 2 ^ 24 + f.cmp.bit * 2 ^ 25 + f.ms.bits * 2 ^ 26 := by
  have or_shift : ∀ a b i : Nat, b < 2 ^ i → b ||| a <<< i = b + a * 2 ^ i := by
    intro a b i hb
    rw [Nat.or_comm, ← Nat.shiftLeft_add_eq_or_of_lt hb, Nat.shiftLeft_eq, Nat.add_comm]
  have h1 := f.pd.isLt; have h2 := f.pa.isLt; have h3 := f.pb.isLt
  have h4 := f.kd.isLt; have h5 := f.ka.isLt; have h6 := f.kb.isLt
  have h7 := f.cs.bit_lt; have h8 := f.cmp.bit_lt; have h9 := f.ms.bits_lt
  unfold assemble
  rw [or_shift _ _ 6 (by omega), or_shift _ _ 9 (by omega), or_shift _ _ 12 (by omega), or_shift _ _ 15 (by omega),
    or_shift _ _ 18 (by omega), or_shift _ _ 21 (by omega), or_shift _ _ 24 (by omega), or_shift _ _ 25 (by omega),
    or_shift _ _ 26 (by omega), BitVec.toNat_ofNat, Nat.mod_eq_of_lt (by omega)]

/-- A 3-bit field as a number. -/
theorem field3_val (w : Word) (lo : Nat) : (field3 w lo).val = w.toNat / 2 ^ lo % 8 := by
  simp [field3, Nat.shiftRight_eq_div_pow]

theorem opField_eq (w : Word) : opField w = w.toNat % 64 := by
  simp [opField, BitVec.extractLsb'_toNat]

theorem rsvField_eq (w : Word) : rsvField w = w.toNat / 2 ^ 29 := by
  have := w.isLt
  simp only [rsvField, BitVec.extractLsb'_toNat, Nat.shiftRight_eq_div_pow]
  omega

theorem getLsbD_eq (w : Word) (i : Nat) : w.getLsbD i = decide (w.toNat / 2 ^ i % 2 = 1) := by
  rw [BitVec.getLsbD, Nat.testBit_eq_decide_div_mod_eq]

theorem curveSelOfBit_bit (c : CurveSel) : curveSelOfBit (decide (c.bit = 1)) = c := by cases c <;> decide
theorem encFormOfBit_bit (c : EncForm) : encFormOfBit (decide (c.bit = 1)) = c := by cases c <;> decide
theorem modSelOfBits_bits (m : ModSel) (i : Fin 8) (h : i.val = m.bits) : modSelOfBits i = m := by
  have : i = ⟨m.bits, m.bits_lt⟩ := Fin.ext h
  subst this
  cases m <;> rfl

/-- The decoder reads back every field the assembler wrote. -/
theorem fieldsOf_assemble {op : Nat} (h : op < 64) (f : Fields) : fieldsOf (assemble op f) = f := by
  have hn := assemble_toNat h f
  have h1 := f.pd.isLt; have h2 := f.pa.isLt; have h3 := f.pb.isLt
  have h4 := f.kd.isLt; have h5 := f.ka.isLt; have h6 := f.kb.isLt
  have h7 := f.cs.bit_lt; have h8 := f.cmp.bit_lt; have h9 := f.ms.bits_lt
  have e1 : field3 (assemble op f) 6 = f.pd := Fin.ext (by rw [field3_val]; omega)
  have e2 : field3 (assemble op f) 9 = f.pa := Fin.ext (by rw [field3_val]; omega)
  have e3 : field3 (assemble op f) 12 = f.pb := Fin.ext (by rw [field3_val]; omega)
  have e4 : field3 (assemble op f) 15 = f.kd := Fin.ext (by rw [field3_val]; omega)
  have e5 : field3 (assemble op f) 18 = f.ka := Fin.ext (by rw [field3_val]; omega)
  have e6 : field3 (assemble op f) 21 = f.kb := Fin.ext (by rw [field3_val]; omega)
  have e7 : (assemble op f).toNat / 2 ^ 24 % 2 = f.cs.bit := by omega
  have e8 : (assemble op f).toNat / 2 ^ 25 % 2 = f.cmp.bit := by omega
  have e9 : (field3 (assemble op f) 26).val = f.ms.bits := by rw [field3_val]; omega
  unfold fieldsOf
  rw [e1, e2, e3, e4, e5, e6, getLsbD_eq, e7, curveSelOfBit_bit, getLsbD_eq, e8, encFormOfBit_bit,
    modSelOfBits_bits _ _ e9]

theorem opField_assemble {op : Nat} (h : op < 64) (f : Fields) : opField (assemble op f) = op := by
  rw [opField_eq, assemble_toNat h f]; omega

theorem rsvField_assemble {op : Nat} (h : op < 64) (f : Fields) : rsvField (assemble op f) = 0 := by
  have h1 := f.pd.isLt; have h2 := f.pa.isLt; have h3 := f.pb.isLt
  have h4 := f.kd.isLt; have h5 := f.ka.isLt; have h6 := f.kb.isLt
  have h7 := f.cs.bit_lt; have h8 := f.cmp.bit_lt; have h9 := f.ms.bits_lt
  rw [rsvField_eq, assemble_toNat h f]; omega

theorem Instr.opcode_lt (i : Instr) : i.opcode < 64 := by cases i <;> simp [Instr.opcode]

/-- No OP value has two rows (30_encoding.md R104). -/
theorem opTable_nodup : (opTable.map OpRow.op).Nodup := by decide

end Sys2Proof
end

