-- ==== Sys2Proof/Laws/Step.lean ====
section
/-! SUPPORT. How a step is chosen: the head of the script, or the engine when the script is empty. -/

namespace Sys2Proof.Machine

theorem step_nil {s : State} (h : s.events = []) : step s = engineTurn s := by simp [step, h]

theorem step_cons {s : State} {e : Event} {rest : List Event} (h : s.events = e :: rest) :
    step s = applyEvent e { s with events := rest } := by simp [step, h]

/-- The engine's turn on an accepted command that is not waiting for the random source. -/
theorem engineTurn_command {s : State} {snap : Regs} {rng : RngPort} {n : Nat} {i : Instr} (hr : s.inReset = false)
    (hp : s.phase = .busy snap rng n) (hw : ∀ id b, rng ≠ .pending id b) (hi : snap.command = .ok i) :
    engineTurn s = exec i s := by
  unfold engineTurn
  cases rng with
  | pending id b => exact absurd rfl (hw id b)
  | idle => simp [hr, hp, hi]
  | answered b a => simp [hr, hp, hi]

/-- A word placed by `withFetchWord` runs in the very next step. -/
theorem step_withFetchWord {s : State} {nbits w : Nat} {i : Instr}
    (h : decode (BitVec.ofNat 32 (w % 2 ^ nbits)) = .ok i) :
    step (s.withFetchWord nbits w) = exec i { s.withFetchWord nbits w with events := s.events } := by
  rw [step_cons (e := .engine) (rest := s.events) rfl]
  exact engineTurn_command rfl rfl (by intro _ _ h; cases h) h

/-- A run peels off its first step. -/
theorem run_step {s t : State} (n : Nat) (h : step s = .next t) :
    Host.Core.run Sys2Proof.core (n + 1) s = Host.Core.run Sys2Proof.core n t := by
  have h' : Sys2Proof.core.step s = .next t := h
  simp only [Host.Core.run, h']

end Sys2Proof.Machine
end

