-- ==== Sys2Proof/Laws/Fairness.lean ====
section
/-! SUPPORT. Under the premise RngFair every accepted command ends (70_reset_and_hazards.md R381). -/

namespace Sys2Proof.Machine

/-! ## What a turn on a draw depends on -/

/-- A command's turn leaves the engine BUSY only by waiting or by a request. -/
theorem exec_busy {i : Instr} {s t : State} (h : exec i s = .next t) (hb : t.busy = true) :
    (∃ id b, s.port = .pending id b) ∨ ∃ snap id b k, t.phase = .busy snap (.pending id b) k := by
  by_cases hi : i = .wcons
  · subst hi
    rcases execWCons_cases h with ⟨-, rfl⟩ | ⟨e, -, rfl⟩ <;> cases hb
  · cases exec_turn hi h with
    | commit r b k => cases hb
    | error e => cases hb
    | request b n => exact .inr ⟨_, _, _, _, rfl⟩
    | wait id b hp => exact .inl ⟨id, b, hp⟩

/-- Two states at which a drawing command goes the same way: whether it redraws rests on the port and on the loop's body. -/
theorem drawTurn_busy_congr {s u t : State} {b : Nat} {f g : Nat → Except ErrCode Attempt} (hp : s.port = u.port)
    (hfg : ∀ v, f v = .ok .redraw → g v = .ok .redraw) (h : s.drawTurn b f = .next t) (ht : t.busy = true)
    (ha : s.drawArrived = true) : ∃ t', u.drawTurn b g = .next t' ∧ t'.busy = true := by
  rcases State.drawTurn_cases h with ⟨h0, -⟩ | ⟨id, bd, h0, -⟩ | ⟨bd, -, rfl⟩ | ⟨bd, v, h0, ⟨r, -, rfl⟩ | ⟨h1, -⟩ | ⟨e, -, rfl⟩⟩
  · simp [State.drawArrived, h0] at ha
  · simp [State.drawArrived, h0] at ha
  · cases ht
  · cases ht
  · exact ⟨u.requestDraw b (u.redraws + 1), by rw [State.drawTurn, ← hp, h0]; simp only [hfg v h1], rfl⟩
  · cases ht

/-- A turn that redraws does so on every state with the same phase and draw index. -/
theorem engineTurn_busy_congr {s u t : State} (hph : s.phase = u.phase) (hd : s.draws = u.draws) (hu : u.inReset = false)
    (ha : s.drawArrived = true) (h : engineTurn s = .next t) (hs : s.inReset = false) (ht : t.busy = true) :
    u.drawDegenerate := by
  have hport : s.port = u.port := by simp only [State.port, hph]
  obtain ⟨snap, rng, n, hp⟩ : ∃ snap rng n, s.phase = .busy snap rng n := by
    cases hq : s.phase with
    | idle => simp [State.drawArrived, State.port, hq] at ha
    | busy snap rng n => exact ⟨snap, rng, n, rfl⟩
  have hw : ∀ id b, rng ≠ .pending id b := by
    rintro id b rfl
    simp [State.drawArrived, State.port, hp] at ha
  have hsi : s.inputs = snap := by simp only [State.inputs, hp]
  have hui : u.inputs = snap := by simp only [State.inputs, ← hph, hp]
  cases hc : snap.command with
  | error e =>
    have : engineTurn s = .next (s.commitError .illegalCmd) := by
      unfold engineTurn
      cases rng with
      | pending id b => exact absurd rfl (hw id b)
      | idle => simp [hs, hp, hc]
      | answered b a => simp [hs, hp, hc]
    rw [this] at h
    cases h; cases ht
  | ok i =>
    rw [engineTurn_command hs hp hw hc] at h
    rw [State.drawDegenerate, engineTurn_command hu (hph ▸ hp) hw hc]
    have stop : ∀ {body : Except ErrCode (Regs × Bool)}, s.finish body = .next t → False := fun hb => by
      rcases State.finish_cases hb with ⟨r, b, -, rfl⟩ | ⟨e, -, rfl⟩ <;> cases ht
    cases i with
    | mrand pd => exact drawTurn_busy_congr hport (fun v hv => by rw [← hd]; split at hv <;> simp_all) h ht ha
    | ekeygen pd kd =>
      refine drawTurn_busy_congr hport (fun v hv => ?_) h ht ha
      obtain ⟨q, -, h1⟩ := except_bind_eq_ok hv
      cases h1
    | esign ka =>
      refine drawTurn_busy_congr hport (fun v hv => ?_) h ht ha
      obtain ⟨sig, h0, h1⟩ := except_bind_eq_ok hv
      rw [hsi] at h0
      rw [hui, h0]
      rcases sig with _ | ⟨a, b⟩
      · rfl
      · cases h1
    | wcons => rcases execWCons_cases h with ⟨-, rfl⟩ | ⟨e, -, rfl⟩ <;> cases ht
    | nop => rw [exec_nop, execNop] at h; exact (stop h).elim
    | wldg pd => rw [exec_wldg, execWLdg] at h; exact (stop h).elim
    | mldg pd => rw [exec_mldg, execMLdg] at h; exact (stop h).elim
    | h2i kd => rw [exec_h2i, execH2i] at h; exact (stop h).elim
    | fprime ka => rw [exec_fprime, execFPrime] at h; exact (stop h).elim
    | madd pd pa pb => rw [exec_madd, execMAdd] at h; exact (stop h).elim
    | mdbl pd pa => rw [exec_mdbl, execMDbl] at h; exact (stop h).elim
    | mmul pd pa ka => rw [exec_mmul, execMMul] at h; exact (stop h).elim
    | _ => exact (stop h).elim

/-! ## One move of a run, seen from a BUSY engine -/

/-- A move that is not the engine's and leaves the engine BUSY keeps the draw index, and keeps the phase unless it is the
answer to the pending request. -/
theorem other_move {s t : State} {e : Event} (he : e ≠ .engine) (hr : s.inReset = false) (hb : s.busy = true)
    (ht : t.busy = true) (h : step { s with events := [e] } = .next t) :
    t.inReset = false ∧ t.draws = s.draws ∧ (t.phase = s.phase ∨
      ∃ snap id bound k a, s.phase = .busy snap (.pending id bound) k ∧ t.phase = .busy snap (.answered bound a) k) := by
  rw [step_cons (e := e) (rest := []) rfl] at h
  cases e with
  | engine => exact absurd rfl he
  | host a =>
    rw [show applyEvent (.host a) { s with events := [] } = .next ({ s with events := [] }.access a) by
      simp only [applyEvent, hr]; rfl] at h
    cases h
    obtain ⟨u, b, hw, hu⟩ := State.access_cases { s with events := [] } a
    rw [hu] at ht ⊢
    cases hw with
    | same => exact ⟨hr, rfl, .inl rfl⟩
    | ovr _ => exact ⟨hr, rfl, .inl rfl⟩
    | status v => exact ⟨hr, rfl, .inl rfl⟩
    | reset => cases ht
    | accept x y hn => exact absurd (hn.symm.trans hb) (by decide)
    | ctrl x y hn => exact absurd (hn.symm.trans hb) (by decide)
    | operand x y hn => exact absurd (hn.symm.trans hb) (by decide)
  | rng id a =>
    rcases State.deliver_cases (s := { s with events := [] }) h with rfl | ⟨snap, bound, k, hp, -, rfl⟩
    · exact ⟨hr, rfl, .inl rfl⟩
    · exact ⟨hr, rfl, .inr ⟨snap, id, bound, k, a, hp, rfl⟩⟩
  | rstAssert => cases h; cases ht
  | rstRelease => cases h; exact ⟨rfl, rfl, .inl rfl⟩

/-- The engine's move, when it leaves the engine BUSY: it waited, or it made a request. -/
theorem engine_move {s t : State} (hr : s.inReset = false) (ht : t.busy = true)
    (h : step { s with events := [.engine] } = .next t) :
    t.inReset = false ∧ ((t.phase = s.phase ∧ t.draws = s.draws ∧ ∃ snap id b k, s.phase = .busy snap (.pending id b) k) ∨
      ∃ snap id b k, t.phase = .busy snap (.pending id b) k) := by
  rw [step_cons (e := .engine) (rest := []) rfl] at h
  change engineTurn { s with events := [] } = .next t at h
  rcases engineTurn_cases h with rfl | ⟨snap, rng, n, -, hp, hw, ⟨i, -, hx⟩ | ⟨e, -, rfl⟩⟩
  · obtain ⟨snap, rng, k, hp⟩ := State.busy_iff.1 ht
    by_cases hpend : ∃ id b, rng = .pending id b
    · obtain ⟨id, b, rfl⟩ := hpend
      exact ⟨hr, .inl ⟨rfl, rfl, snap, id, b, k, hp⟩⟩
    · exfalso
      have hw : ∀ id b, rng ≠ .pending id b := fun id b hq => hpend ⟨id, b, hq⟩
      cases hc : snap.command with
      | ok i =>
        rw [engineTurn_command (s := { s with events := [] }) hr hp hw hc] at h
        rcases exec_busy h ht with ⟨id, b, hq⟩ | ⟨_, id, b, _, hq⟩
        · exact hw id b (by simpa only [State.port, show s.phase = _ from hp] using hq)
        · rw [hp] at hq; cases hq; exact hw id b rfl
      | error e =>
        have : engineTurn { s with events := [] } = .next ({ s with events := [] }.commitError .illegalCmd) := by
          unfold engineTurn
          cases rng with
          | pending id b => exact absurd rfl (hw id b)
          | idle => simp_all
          | answered b a => simp_all
        rw [this] at h
        have hd := congrArg State.draws (Host.Outcome.next.inj h)
        simp at hd
  · have hir : t.inReset = false := by
      by_cases hi : i = .wcons
      · subst hi; rcases execWCons_cases hx with ⟨-, rfl⟩ | ⟨e, -, rfl⟩ <;> exact hr
      · cases exec_turn hi hx <;> exact hr
    rcases exec_busy hx ht with ⟨id, b, hq⟩ | hq
    · exact absurd (by simpa only [State.port, show s.phase = _ from hp] using hq) (hw id b)
    · exact ⟨hir, .inr hq⟩
  · cases ht

/-! ## The liveness theorem -/

/-- Every accepted command ends, if the random source is fair and the engine's turn comes again and again: "That every
accepted command ends is not a property of the engine. It is a premise on the random source" (70_reset_and_hazards.md R381). -/
theorem command_ends {move : Nat → Event} {trace : Nat → State} (hrun : IsRun move trace) (he : EngineMoves move)
    (hf : RngFair move trace) {n : Nat} (hr : (trace n).inReset = false) :
    ∃ m, n ≤ m ∧ (trace m).busy = false := by
  by_contra hcon
  have busy : ∀ m, n ≤ m → (trace m).busy = true := fun m hm => by
    cases hb : (trace m).busy
    · exact absurd ⟨m, hm, hb⟩ hcon
    · rfl
  have released : ∀ d, (trace (n + d)).inReset = false := by
    intro d
    induction d with
    | zero => exact hr
    | succ d ih =>
      by_cases hm : move (n + d) = .engine
      · exact (engine_move ih (busy _ (by omega)) (hm ▸ hrun (n + d))).1
      · exact (other_move hm ih (busy _ (by omega)) (busy _ (by omega)) (hrun (n + d))).1
  have released' : ∀ m, n ≤ m → (trace m).inReset = false := fun m hm => by
    have := released (m - n); rwa [show n + (m - n) = m by omega] at this
  -- a pending request is answered
  have pending : ∀ m, n ≤ m → ∀ snap id b k, (trace m).phase = .busy snap (.pending id b) k →
      ∃ j, m ≤ j ∧ (trace j).drawArrived = true := by
    intro m hm snap id b k hp
    by_contra hno
    have still : ∀ d, (trace (m + d)).phase = .busy snap (.pending id b) k := by
      intro d
      induction d with
      | zero => exact hp
      | succ d ih =>
        have hbs := busy (m + d) (by omega)
        have hbt := busy (m + d + 1) (by omega)
        by_cases hme : move (m + d) = .engine
        · have hst := hrun (m + d)
          rw [hme, step_cons (e := .engine) (rest := []) rfl] at hst
          have : engineTurn { trace (m + d) with events := [] } = .next { trace (m + d) with events := [] } := by
            unfold engineTurn; simp [ih, released' (m + d) (by omega)]
          change engineTurn { trace (m + d) with events := [] } = _ at hst
          rw [this] at hst
          have := congrArg State.phase (Host.Outcome.next.inj hst)
          exact this.symm.trans ih
        · rcases (other_move hme (released' _ (by omega)) hbs hbt (hrun (m + d))).2.2 with h | ⟨s', i', b', k', a', h1, h2⟩
          · exact h.trans ih
          · exact absurd ⟨m + d + 1, by omega, by simp [State.drawArrived, State.port, h2]⟩ hno
    obtain ⟨j, hj, ⟨a, ha⟩ | hidle⟩ := hf.answered m snap id b k hp
    · have hst := hrun j
      have hpj := still (j - m)
      rw [show m + (j - m) = j by omega] at hpj
      rw [ha, step_cons (e := .rng id a) (rest := []) rfl] at hst
      change State.deliver { trace j with events := [] } id a = _ at hst
      have hph := State.deliver_awaited (s := { trace j with events := [] }) hpj hst
      exact hno ⟨j + 1, by omega, by simp only [State.drawArrived, State.port, hph]⟩
    · exact absurd (hidle.symm.trans (busy j (by omega))) (by decide)
  -- draws keep arriving
  have arrive : ∀ m, n ≤ m → ∃ j, m ≤ j ∧ (trace j).drawArrived = true := by
    intro m hm
    obtain ⟨e, hme, hmv⟩ := he m
    by_contra hno
    have nop : ∀ j, m ≤ j → ∀ snap id b k, (trace j).phase ≠ .busy snap (.pending id b) k := fun j hj snap id b k hp => by
      obtain ⟨i, hi, ha⟩ := pending j (by omega) snap id b k hp
      exact hno ⟨i, by omega, ha⟩
    rcases (engine_move (released' e (by omega)) (busy _ (by omega)) (hmv ▸ hrun e)).2 with
      ⟨-, -, snap, id, b, k, hp⟩ | ⟨snap, id, b, k, hp⟩
    · exact nop e hme snap id b k hp
    · exact nop (e + 1) (by omega) snap id b k hp
  -- one of them ends the command at the engine's next turn
  obtain ⟨j, hj, ha, hnd⟩ := hf.acceptable n arrive
  obtain ⟨d, hd, hmin⟩ : ∃ d, move (j + d) = .engine ∧ ∀ c, c < d → move (j + c) ≠ .engine := by
    obtain ⟨e, hje, hmv⟩ := he j
    have hex : ∃ d, move (j + d) = .engine := ⟨e - j, by rwa [show j + (e - j) = e by omega]⟩
    classical exact ⟨Nat.find hex, Nat.find_spec hex, fun c hc => Nat.find_min hex hc⟩
  have same : ∀ c, c ≤ d → (trace (j + c)).phase = (trace j).phase ∧ (trace (j + c)).draws = (trace j).draws := by
    intro c
    induction c with
    | zero => intro _; exact ⟨rfl, rfl⟩
    | succ c ih =>
      intro hc
      obtain ⟨h1, h2⟩ := ih (by omega)
      obtain ⟨-, h3, h4⟩ := other_move (hmin c (by omega)) (released' _ (by omega)) (busy _ (by omega)) (busy _ (by omega))
        (hrun (j + c))
      refine ⟨?_, h3.trans h2⟩
      rcases h4 with h4 | ⟨s', i', b', k', a', h5, -⟩
      · exact h4.trans h1
      · rw [h1] at h5
        simp [State.drawArrived, State.port, h5] at ha
  obtain ⟨hph, hdr⟩ := same d le_rfl
  have hst := hrun (j + d)
  rw [hd, step_cons (e := .engine) (rest := []) rfl] at hst
  refine hnd (engineTurn_busy_congr (s := { trace (j + d) with events := [] }) hph hdr (released' j hj) ?_ hst
    (released' (j + d) (by omega)) (busy _ (by omega)))
  simp only [State.drawArrived, State.port, hph] at ha ⊢
  exact ha

end Sys2Proof.Machine
end

