-- ==== Sys2Proof/Laws/Field.lean ====
section
/-! SUPPORT. One spec lemma per FieldOps primitive (40_field_ops.md R132 to R139): the definitions compute the mathematical functions the spec names. -/

namespace Sys2Proof.Machine


/-- Every integer is below the power of two its bit length gives (41_weierstrass.md R186). -/
theorem lt_two_pow_bitlen (k : Nat) : k < 2 ^ bitlen k := by
  unfold bitlen
  split
  · simp_all
  · exact Nat.lt_log2_self

/-! ## Ranges (40_field_ops.md R142: "Every result is reduced into `[0, m)`") -/

theorem fAdd_lt {a b m : Nat} (h : 0 < m) : fAdd a b m < m := Nat.mod_lt _ h
theorem fSub_lt {a b m : Nat} (h : 0 < m) : fSub a b m < m := Nat.mod_lt _ h
theorem fMul_lt {a b m : Nat} (h : 0 < m) : fMul a b m < m := Nat.mod_lt _ h

/-! ## The functions -/

/-- FSub is the non-negative remainder of the integer difference (40_field_ops.md R133). -/
theorem fSub_eq_emod {a b m : Nat} (h : 0 < m) : (fSub a b m : ℤ) = ((a : ℤ) - b) % m := by
  have hb : b % m ≤ m := (Nat.mod_lt b h).le
  unfold fSub
  push_cast [Nat.cast_sub hb]
  rw [show (a : ℤ) + (m - (b : ℤ) % m) = (a - (b : ℤ) % m) + m by ring, Int.add_emod_right, Int.sub_emod,
    Int.emod_emod_of_dvd _ dvd_rfl, ← Int.sub_emod]

theorem fAdd_cast (a b m : Nat) : (fAdd a b m : ZMod m) = a + b := by simp [fAdd]

theorem fMul_cast (a b m : Nat) : (fMul a b m : ZMod m) = a * b := by simp [fMul]

theorem fSub_cast {a b m : Nat} (h : 0 < m) : (fSub a b m : ZMod m) = a - b := by
  have := congrArg (Int.cast (R := ZMod m)) (fSub_eq_emod (a := a) (b := b) h)
  simpa using this

/-- The low `i + 1` bits of `e` are bit `i` above its low `i` bits. -/
theorem mod_two_pow_succ_testBit (e i : Nat) :
    e % 2 ^ (i + 1) = (e.testBit i).toNat * 2 ^ i + e % 2 ^ i := by
  rw [Nat.mod_pow_succ, Nat.toNat_testBit]; ring

/-- What `n` rounds of square and multiply compute. -/
theorem powLoop_eq (a e m : Nat) : ∀ n acc, powLoop a e m n acc % m = acc ^ 2 ^ n * a ^ (e % 2 ^ n) % m := by
  intro n
  induction n with
  | zero => intro acc; simp [powLoop, Nat.mod_one]
  | succ i ih =>
    intro acc
    rw [powLoop, ih, mod_two_pow_succ_testBit]
    cases h : e.testBit i
    · simp only [Bool.false_eq_true, if_false, Bool.toNat_false, zero_mul, zero_add]
      rw [Nat.mul_mod, ← Nat.pow_mod, ← Nat.mul_mod, ← pow_two, ← pow_mul, pow_succ' 2 i]
    · simp only [if_true, Bool.toNat_true, one_mul]
      rw [Nat.mul_mod, ← Nat.pow_mod, ← Nat.mul_mod, Nat.mul_mod]
      have e1 : (acc * acc % m * a) ^ 2 ^ i % m = (acc * acc * a) ^ 2 ^ i % m := by
        rw [Nat.pow_mod, Nat.mod_mul_mod, ← Nat.pow_mod]
      rw [e1, ← Nat.mul_mod]
      congr 1
      rw [mul_pow, ← pow_two, ← pow_mul, ← pow_succ', pow_add a, mul_assoc]

theorem powLoop_lt {a e m : Nat} (h : 0 < m) : ∀ n acc, acc < m → powLoop a e m n acc < m := by
  intro n
  induction n with
  | zero => intro acc ha; exact ha
  | succ i ih => intro acc _; rw [powLoop]; apply ih; split <;> exact Nat.mod_lt _ h

/-- FPow is the power modulo m (40_field_ops.md R135). -/
theorem fPow_eq {a e m : Nat} (h : 0 < m) : fPow a e m = a ^ e % m := by
  unfold fPow
  rw [← Nat.mod_eq_of_lt (powLoop_lt h _ _ (Nat.mod_lt 1 h)), powLoop_eq,
    Nat.mod_eq_of_lt (lt_two_pow_bitlen e), Nat.mul_mod, ← Nat.pow_mod, ← Nat.pow_mod, ← Nat.mul_mod]
  simp

theorem fPow_lt {a e m : Nat} (h : 0 < m) : fPow a e m < m := powLoop_lt h _ _ (Nat.mod_lt 1 h)

/-- What the upward search for a divisor says. -/
theorem noDivisorFrom_iff (n : Nat) : ∀ fuel d, 0 < d →
    (noDivisorFrom n fuel d = true ↔ ∀ k, d ≤ k → k < d + fuel → k * k ≤ n → ¬ k ∣ n) := by
  intro fuel
  induction fuel with
  | zero => intro d _; simp only [noDivisorFrom, true_iff]; intro k h1 h2; omega
  | succ f ih =>
    intro d hd
    rw [noDivisorFrom]
    split
    · rename_i hlt
      simp only [true_iff]
      intro k h1 _ h3
      have := Nat.mul_le_mul h1 h1
      omega
    · rename_i hge
      split
      · rename_i hdvd
        simp only [Bool.false_eq_true, false_iff]
        intro hall
        exact hall d le_rfl (by omega) (by omega) (Nat.dvd_of_mod_eq_zero hdvd)
      · rename_i hnd
        rw [ih (d + 1) (by omega)]
        constructor
        · intro hall k h1 h2 h3
          rcases Nat.eq_or_lt_of_le h1 with rfl | h4
          · intro hdv; exact hnd (Nat.mod_eq_zero_of_dvd hdv)
          · exact hall k h4 (by omega) h3
        · intro hall k h1 h2 h3
          exact hall k (by omega) (by omega) h3

/-- Trial division decides primality. -/
theorem trialDivision_iff (v : Nat) : (decide (2 ≤ v) && noDivisorFrom v v 2) = true ↔ v.Prime := by
  rw [Nat.prime_def_le_sqrt, Bool.and_eq_true, decide_eq_true_eq, noDivisorFrom_iff v v 2 (by omega)]
  refine and_congr_right fun h2 => ⟨fun h m h1 h3 => ?_, fun h k h1 _ h3 => h k h1 (Nat.le_sqrt.2 h3)⟩
  have hm : m * m ≤ v := Nat.le_sqrt.1 h3
  exact h m h1 (by nlinarith) hm


/-- Extended Euclid ends with a multiple of `a` that is the gcd modulo `m`; the product of the two
remainders halves each round, so `fuel` rounds suffice. -/
theorem euclidLoop_spec (a m : Nat) (hm : 0 < m) : ∀ fuel r0 r1 t0 t1 : Nat,
    ((r0 : Nat) : ZMod m) = t0 * a → ((r1 : Nat) : ZMod m) = t1 * a → r1 < r0 → r0 * r1 < 2 ^ fuel →
    ((Nat.gcd r0 r1 : Nat) : ZMod m) = (euclidLoop m fuel r0 r1 t0 t1 : Nat) * a := by
  intro fuel
  induction fuel with
  | zero =>
    intro r0 r1 t0 t1 h0 _ hlt hb
    have : r1 = 0 := by
      rcases Nat.eq_zero_or_pos r1 with h | h
      · exact h
      · have := Nat.mul_pos (by omega : 0 < r0) h; omega
    subst this
    simpa [euclidLoop] using h0
  | succ f ih =>
    intro r0 r1 t0 t1 h0 h1 hlt hb
    rw [euclidLoop]
    split
    · rename_i hz; subst hz; simpa using h0
    · rename_i hz
      have hr1 : 0 < r1 := Nat.pos_of_ne_zero hz
      have hdm := Nat.div_add_mod r0 r1
      have hmod := Nat.mod_lt r0 hr1
      rw [Nat.gcd_comm r0 r1, Nat.gcd_rec r1 r0, Nat.gcd_comm]
      refine ih r1 (r0 % r1) t1 _ h1 ?_ hmod ?_
      · have h2 : ((r0 % r1 : Nat) : ZMod m) = r0 - r1 * (r0 / r1 : Nat) := by
          rw [eq_sub_iff_add_eq, ← Nat.cast_mul, ← Nat.cast_add, Nat.mod_add_div]
        rw [h2, fSub_cast hm, h0, h1]
        push_cast
        ring
      · have hq : 1 ≤ r0 / r1 := (Nat.one_le_div_iff hr1).2 hlt.le
        have h3 : r1 * 1 ≤ r1 * (r0 / r1) := Nat.mul_le_mul_left r1 hq
        have h4 : 2 * (r0 % r1) ≤ r0 := by omega
        have h5 : r1 * (2 * (r0 % r1)) ≤ r1 * r0 := Nat.mul_le_mul_left r1 h4
        rw [pow_succ] at hb
        nlinarith

/-- The inverse is in range and inverts (40_field_ops.md R136). -/
theorem modInverse_spec {a m : Nat} (hm : 2 ≤ m) (ha : a < m) (hg : Nat.gcd a m = 1) :
    modInverse a m < m ∧ a * modInverse a m % m = 1 := by
  have h0 : 0 < m := by omega
  refine ⟨Nat.mod_lt _ h0, ?_⟩
  have hb : m * a < 2 ^ (2 * bitlen m + 2) := by
    have h1 := lt_two_pow_bitlen m
    have h2 : a < 2 ^ bitlen m := ha.trans h1
    calc m * a < 2 ^ bitlen m * 2 ^ bitlen m := Nat.mul_lt_mul'' h1 h2
      _ = 2 ^ (2 * bitlen m) := by rw [← pow_add]; congr 1; ring
      _ ≤ _ := Nat.pow_le_pow_right (by omega) (by omega)
  have h := euclidLoop_spec a m h0 (2 * bitlen m + 2) m a 0 1 (by simp) (by simp) ha hb
  rw [Nat.gcd_comm, hg] at h
  have h2 : ((a * modInverse a m : Nat) : ZMod m) = ((1 : Nat) : ZMod m) := by
    rw [h]; unfold modInverse; push_cast; rw [ZMod.natCast_mod]; ring
  have h3 := (ZMod.natCast_eq_natCast_iff _ _ _).1 h2
  rw [Nat.ModEq, Nat.mod_eq_of_lt (by omega : 1 < m)] at h3
  exact h3

/-- FInv in one lemma: the failure when the operand is no unit, else the inverse in `[0, m)` (40_field_ops.md R136). -/
theorem fInv_cases (a : Nat) {m : Nat} (hm : 2 ≤ m) :
    (Nat.gcd (a % m) m ≠ 1 ∧ fInv a m = .error .notInvertible) ∨
    (Nat.gcd (a % m) m = 1 ∧ ∃ b, fInv a m = .ok b ∧ b < m ∧ a * b % m = 1) := by
  by_cases hg : Nat.gcd (a % m) m = 1
  · refine .inr ⟨hg, modInverse (a % m) m, by simp [fInv, hg], ?_⟩
    obtain ⟨h1, h2⟩ := modInverse_spec hm (Nat.mod_lt a (by omega)) hg
    exact ⟨h1, by rw [← Nat.mod_mul_mod, h2]⟩
  · exact .inl ⟨hg, by simp [fInv, hg]⟩

/-- A draw decides FPrime on a composite only (40_field_ops.md R137). -/
theorem fPrime_of_isPrime {v : Nat} (d : Nat) (h2 : 2 ≤ v) (h : isPrime v = true) : fPrime v d = true := by
  simp [fPrime, h, Nat.not_lt.2 h2]

theorem fPrime_lt_two {v : Nat} (d : Nat) (h : v < 2) : fPrime v d = false := by simp [fPrime, h]

/-- A composite's verdict is the free value itself (40_field_ops.md R137). -/
theorem fPrime_composite {v : Nat} (d : Nat) (h2 : 2 ≤ v) (h : isPrime v = false) :
    fPrime v d = Config.primeOracle d := by
  simp [fPrime, h, Nat.not_lt.2 h2]

/-- FPrime's only success cases are at least 2 (40_field_ops.md R143). -/
theorem two_le_of_fPrime {v d : Nat} (h : fPrime v d = true) : 2 ≤ v := by
  by_contra h2
  simp [fPrime_lt_two d (Nat.lt_of_not_le h2)] at h

end Sys2Proof.Machine
end

