-- ==== Sys2Proof/Laws/HostProgram.lean ====
section
/-! SUPPORT. The laws of the host pseudo-instructions: what EXEC's two writes leave, what one round of its poll loop does, and what a sequence of words assembles to (30_encoding.md R111). -/

namespace Sys2Proof.Machine

/-- A step that takes a host access while `rst_n` is released is that access. -/
theorem step_host {s : State} {a : HostAccess} {rest : List Event} (h : s.events = .host a :: rest) (hr : s.inReset = false) :
    step s = .next (State.access { s with events := rest } a) := by
  rw [step_cons h]
  simp [applyEvent, hr]

/-- A legal write is the register's write rule and an Okay response (20_memory.md R82). -/
theorem State.access_write {s : State} {off : BitVec 12} (h4 : off.toNat % 4 = 0) (v : Word) :
    s.access ⟨off, 4, .write 0b1111 v⟩ = { s.writeWord (target off.toNat) v with bus := .okayWrite } := by
  rw [State.access, if_pos]
  simp only [HostAccess.legal, h4]
  decide

/-- Two steps of the machine, one after the other. -/
theorem run_two {s a b : State} (h1 : step s = .next a) (h2 : step a = .next b) :
    Host.Core.run Sys2Proof.core 2 s = .next b := by
  have e1 : Sys2Proof.core.step s = .next a := h1
  have e2 : Sys2Proof.core.step a = .next b := h2
  simp only [Host.Core.run]
  rw [e1]; dsimp only; rw [e2]

/-- The bits of EXEC's CTRL value (30_encoding.md R111; 10_state.md R33). -/
theorem execCtrl_bits (h q : Bool) : ctrlSrst (execCtrl h q) = false ∧ ctrlStart (execCtrl h q) = true ∧
    ctrlHarden (execCtrl h q) = h ∧ ctrlIrqEn (execCtrl h q) = q := by
  revert h q; decide

/-- EXEC's two writes, from an idle engine: the command and the mode are stored and accepted (60_exceptions.md R330). -/
theorem run_execStart (s : State) (w : Word) (h q : Bool) (rest : List Event) (hb : s.busy = false) (hr : s.inReset = false) :
    Host.Core.run Sys2Proof.core 2 { s with events := execStart w h q ++ rest } =
      .next { State.accept { s with regs := { s.regs with cmd := w } } h q with bus := .okayWrite, events := rest } := by
  obtain ⟨b1, b2, b3, b4⟩ := execCtrl_bits h q
  refine run_two (a := { s with regs := { s.regs with cmd := w }, bus := .okayWrite, events := evWr 0x004 (execCtrl h q) :: rest }) ?_ ?_
  · refine (step_host (s := { s with events := execStart w h q ++ rest }) (a := ⟨0x00C, 4, .write 0b1111 w⟩) rfl hr).trans ?_
    rw [State.access_write rfl]
    change Host.Outcome.next { State.writeIdle _ .cmd w with bus := .okayWrite } = _
    rw [State.writeIdle, if_neg (by change ¬ s.busy = true; simp [hb])]
    rfl
  · refine (step_host (s := { s with regs := { s.regs with cmd := w }, bus := .okayWrite, events := evWr 0x004 (execCtrl h q) :: rest })
      (a := ⟨0x004, 4, .write 0b1111 (execCtrl h q)⟩) rfl hr).trans ?_
    rw [State.access_write rfl]
    change Host.Outcome.next { State.writeCtrl _ (execCtrl h q) with bus := .okayWrite } = _
    rw [State.writeCtrl, b1, if_neg (by simp), if_neg (by change ¬ s.busy = true; simp [hb]), if_pos b2, b3, b4]
    rfl

/-- The host's poll: a read of STATUS (10_state.md R34). -/
theorem step_poll {s : State} {rest : List Event} (hr : s.inReset = false) (he : s.events = evRd 0x008 :: rest) :
    step s = .next { s with events := rest, bus := .okayRead s.statusWord } := step_host he hr

/-- Bit 1 of STATUS is DONE (10_state.md R34). -/
theorem statusWord_done (s : State) : s.statusWord.getLsbD 1 = s.done := by
  rw [State.statusWord]
  generalize s.errcode.code = c
  generalize s.busy = b0
  generalize s.done = b1
  generalize s.result = b2
  generalize s.ovr = b3
  generalize s.regs.ucv = b4
  revert c b0 b1 b2 b3 b4
  decide +kernel

/-- What the host learns from the poll is DONE (30_encoding.md R111). -/
theorem State.polledDone_eq {s t : State} (h : t.bus = .okayRead s.statusWord) : t.polledDone = s.done := by
  rw [State.polledDone, State.readAnswer, h]
  exact statusWord_done s

/-- One round of the poll loop in which only the engine moves: its turn, then the poll. -/
theorem State.runMoves_turn {s t : State} (h : engineTurn { s with events := [evRd 0x008] } = .next t) (hr : t.inReset = false)
    (he : t.events = [evRd 0x008]) :
    s.runMoves ([.engine] ++ [evRd 0x008]) = .next { t with events := [], bus := .okayRead t.statusWord } :=
  run_two (a := t) ((step_cons (s := { s with events := [.engine] ++ [evRd 0x008] }) rfl).trans h) (step_poll hr he)

/-- A further word goes below the words already assembled (20_memory.md R86). -/
theorem bigOfWords_append (l : List Word) (w : Word) : bigOfWords (l ++ [w]) = (bigOfWords l <<< 32) ||| w.setWidth 512 := by
  simp [bigOfWords]

/-- The first `n` words of a value assemble its upper `32 * n` bits (20_memory.md R86). -/
theorem bigOfWords_range (v : Big) (n : Nat) (hn : n ≤ 16) :
    bigOfWords ((List.range n).map (bigWord v)) = v >>> (512 - 32 * n) := by
  induction n with
  | zero => apply BitVec.eq_of_getLsbD_eq; intro i hi; simp [bigOfWords]
  | succ n ih =>
    rw [List.range_succ, List.map_append, List.map_singleton, bigOfWords_append, ih (by omega)]
    apply BitVec.eq_of_getLsbD_eq
    intro i hi
    simp only [BitVec.getLsbD_or, BitVec.getLsbD_shiftLeft, BitVec.getLsbD_ushiftRight, BitVec.getLsbD_setWidth, bigWord,
      BitVec.getLsbD_extractLsb', hi]
    by_cases h : i < 32
    · simp [h, show 512 - 32 * (n + 1) + i = 480 - 32 * n + i by omega]
    · simp [h, show 512 - 32 * (n + 1) + i = 512 - 32 * n + (i - 32) by omega]

end Sys2Proof.Machine
end

