-- ==== Sys2Proof/Laws/Prime.lean ====
section
/-! SUPPORT. The four built-in moduli are prime, which 40_field_ops.md R138 takes from general knowledge: Lucas certificates, checked by the kernel. So `isPrime` is primality. -/

namespace Sys2Proof.Machine

/-- A Lucas certificate: `base` has order `p - 1` modulo `p`, and `factors` multiply to `p - 1`. -/
structure PrimeCert where
  p : Nat
  base : Nat
  factors : List Nat

/-- Certificate rows, part 1. -/
def primeCerts1 : List PrimeCert :=
  [ ⟨4681609, 23, [2, 2, 2, 3, 97, 2011]⟩,
    ⟨7240687, 3, [2, 3, 1206781]⟩,
    ⟨8574133, 2, [2, 2, 3, 7, 103, 991]⟩,
    ⟨13331831, 13, [2, 5, 971, 1373]⟩,
    ⟨14741173, 2, [2, 2, 3, 3, 409477]⟩,
    ⟨44706919, 6, [2, 3, 797, 9349]⟩,
    ⟨58964693, 2, [2, 2, 14741173]⟩,
    ⟨107590001, 3, [2, 2, 2, 2, 5, 5, 5, 5, 7, 29, 53]⟩,
    ⟨292386187, 2, [2, 3, 3, 3, 3, 307, 5879]⟩,
    ⟨545358713, 5, [2, 2, 2, 41, 59, 28181]⟩ ]

/-- Certificate rows, part 2. -/
def primeCerts2 : List PrimeCert :=
  [ ⟨2773320623, 5, [2, 2437, 569003]⟩,
    ⟨72106336199, 7, [2, 13, 2773320623]⟩,
    ⟨213441916511, 13, [2, 5, 73, 292386187]⟩,
    ⟨297159362677, 2, [2, 2, 3, 3, 11, 461, 1627771]⟩,
    ⟨1257559732178653, 2, [2, 2, 3, 7, 23, 531581, 1224481]⟩,
    ⟨1919519569386763, 2, [2, 3, 7, 19, 47, 47, 127, 8574133]⟩,
    ⟨31757755568855353, 10, [2, 2, 2, 3, 31, 107, 223, 4153, 430751]⟩,
    ⟨107361793816595537, 3, [2, 2, 2, 2, 16699, 85831, 4681609]⟩,
    ⟨173378833005251801, 6, [2, 2, 2, 5, 5, 2621, 24809, 13331831]⟩,
    ⟨4434155615661930479, 17, [2, 41, 43, 1257559732178653]⟩ ]

/-- Certificate rows, part 3. -/
def primeCerts3 : List PrimeCert :=
  [ ⟨174723607534414371449, 3, [2, 2, 2, 17, 59, 4051, 120233, 44706919]⟩,
    ⟨3044861653679985063343, 5, [2, 3, 11, 30703, 82163, 132667, 137849]⟩,
    ⟨22149492674086928081353, 5, [2, 2, 2, 3, 5323, 173378833005251801]⟩,
    ⟨132896956044521568488119, 6, [2, 3, 22149492674086928081353]⟩,
    ⟨172054593956031949258510691, 2, [2, 5, 1361, 2851, 4434155615661930479]⟩,
    ⟨29047611873442575647497758179, 2, [2, 293, 305873, 545358713, 297159362677]⟩,
    ⟨198211423230930754013084525763697, 5, [2, 2, 2, 2, 3, 23, 58964693, 3044861653679985063343]⟩,
    ⟨341948486974166000522343609283189, 2, [2, 2, 3, 3, 3, 109, 29047611873442575647497758179]⟩,
    ⟨75445702479781427272750846543864801, 7, [2, 2, 2, 2, 2, 3, 3, 5, 5, 75707, 72106336199, 1919519569386763]⟩,
    ⟨255515944373312847190720520512484175977, 3, [2, 2, 2, 7, 7, 11, 1627, 2657, 4423, 41201, 96557, 7240687, 107590001]⟩ ]

/-- Certificate rows, part 4. -/
def primeCerts4 : List PrimeCert :=
  [ ⟨19757330305831588566944191468367130476339, 2, [2, 269, 213441916511, 172054593956031949258510691]⟩,
    ⟨276602624281642239937218680557139826668747, 2, [2, 7, 19757330305831588566944191468367130476339]⟩,
    ⟨74058212732561358302231226437062788676166966415465897661863160754340907, 2, [2, 3, 353, 57467, 132049, 1923133, 31757755568855353, 75445702479781427272750846543864801]⟩,
    ⟨205115282021455665897114700593932402728804164701536103180137503955397371, 10, [2, 3, 5, 29, 29, 31, 7723, 132896956044521568488119, 255515944373312847190720520512484175977]⟩,
    ⟨7237005577332262213973186563042994240857116359379907606001950938285454250989, 2, [2, 2, 3, 11, 198211423230930754013084525763697, 276602624281642239937218680557139826668747]⟩,
    ⟨57896044618658097711785492504343953926634992332820282019728792003956564819949, 2, [2, 2, 3, 65147, 74058212732561358302231226437062788676166966415465897661863160754340907]⟩,
    ⟨115792089237316195423570985008687907852837564279074904382605163141518161494337, 7, [2, 2, 2, 2, 2, 2, 3, 149, 631, 107361793816595537, 174723607534414371449, 341948486974166000522343609283189]⟩,
    ⟨115792089237316195423570985008687907853269984665640564039457584007908834671663, 3, [2, 3, 7, 13441, 205115282021455665897114700593932402728804164701536103180137503955397371]⟩ ]

/-- All rows, the smaller primes first. -/
def primeCerts : List PrimeCert := primeCerts1 ++ primeCerts2 ++ primeCerts3 ++ primeCerts4

/-- One row holds, given primes already known. A factor below 3000000 is settled by trial division. -/
def PrimeCert.check (known : List Nat) (c : PrimeCert) : Bool :=
  2 ≤ c.p && c.factors.prod + 1 == c.p && fPow c.base (c.p - 1) c.p == 1 &&
    c.factors.all fun q => fPow c.base ((c.p - 1) / q) c.p != 1 &&
      (known.contains q || (q < 3000000 && (2 ≤ q && noDivisorFrom q q 2)))

/-- Every row holds, each resting on the rows before it. -/
def checkCerts : List PrimeCert → List Nat → Bool
  | [], _ => true
  | c :: rest, known => c.check known && checkCerts rest (c.p :: known)

theorem PrimeCert.prime_of_check {known : List Nat} {c : PrimeCert} (hk : ∀ q ∈ known, q.Prime)
    (h : c.check known = true) : c.p.Prime := by
  simp only [PrimeCert.check, Bool.and_eq_true, decide_eq_true_eq, beq_iff_eq, List.all_eq_true] at h
  obtain ⟨⟨⟨h2, hprod⟩, hone⟩, hall⟩ := h
  have hp : 0 < c.p := by omega
  rw [fPow_eq hp] at hone
  have cast_pow : ∀ e, ((c.base ^ e % c.p : Nat) : ZMod c.p) = (c.base : ZMod c.p) ^ e := by
    intro e; rw [ZMod.natCast_mod]; push_cast; rfl
  refine lucas_primality c.p (c.base : ZMod c.p) ?_ ?_
  · rw [← cast_pow, hone]; simp
  · intro q hq hdvd
    have hmem : q ∈ c.factors := by
      have hd : q ∣ c.factors.prod := by rwa [show c.factors.prod = c.p - 1 by omega]
      obtain ⟨r, hr, hqr⟩ := (Prime.dvd_prod_iff hq.prime).1 hd
      have hrp : r.Prime := by
        obtain ⟨-, h3⟩ := hall r hr
        simp only [Bool.or_eq_true, List.contains_iff_mem] at h3
        rcases h3 with h3 | h3
        · exact hk r h3
        · simp only [Bool.and_eq_true] at h3
          exact (trialDivision_iff r).1 (by simpa using h3.2)
      exact (Nat.prime_dvd_prime_iff_eq hq hrp).1 hqr ▸ hr
    obtain ⟨h3, -⟩ := hall q hmem
    simp only [bne_iff_ne, ne_eq, fPow_eq hp] at h3
    intro h4
    apply h3
    have h5 := (ZMod.natCast_eq_natCast_iff _ 1 _).1 ((cast_pow _).trans (h4.trans Nat.cast_one.symm))
    rw [Nat.ModEq, Nat.mod_mod, Nat.mod_eq_of_lt (by omega : 1 < c.p)] at h5
    exact h5

theorem prime_of_checkCerts : ∀ (cs : List PrimeCert) (known : List Nat), (∀ q ∈ known, q.Prime) →
    checkCerts cs known = true → ∀ c ∈ cs, c.p.Prime := by
  intro cs
  induction cs with
  | nil => intro _ _ _ c hc; cases hc
  | cons d rest ih =>
    intro known hk h c hc
    rw [checkCerts, Bool.and_eq_true] at h
    have hd := PrimeCert.prime_of_check hk h.1
    rcases List.mem_cons.1 hc with rfl | hc
    · exact hd
    · exact ih _ (by simpa using ⟨hd, hk⟩) h.2 c hc

theorem checkCerts_primeCerts : checkCerts primeCerts [] = true := by decide +kernel

/-- A number with a row is prime. -/
theorem prime_of_mem {n : Nat} (h : (primeCerts.map PrimeCert.p).contains n = true) : n.Prime := by
  obtain ⟨c, hc, rfl⟩ := List.mem_map.1 (List.contains_iff_mem.1 h)
  exact prime_of_checkCerts primeCerts [] (by simp) checkCerts_primeCerts c hc

theorem prime_P256 : P256.Prime := prime_of_mem (by decide +kernel)
theorem prime_N256 : N256.Prime := prime_of_mem (by decide +kernel)
theorem prime_P25519 : P25519.Prime := prime_of_mem (by decide +kernel)
theorem prime_N25519 : N25519.Prime := prime_of_mem (by decide +kernel)

/-- The decision the model makes is primality (40_field_ops.md R137, R138). -/
theorem isPrime_iff (v : Nat) : isPrime v = true ↔ v.Prime := by
  unfold isPrime
  simp only [Bool.or_eq_true, beq_iff_eq]
  rw [trialDivision_iff]
  constructor
  · rintro ((((rfl | rfl) | rfl) | rfl) | h)
    exacts [prime_P256, prime_N256, prime_P25519, prime_N25519, h]
  · exact .inr

theorem isPrime_eq_false_iff (v : Nat) : isPrime v = false ↔ ¬ v.Prime := by
  rw [← isPrime_iff, Bool.not_eq_true]

/-- "m is an odd prime" (40_field_ops.md R138). -/
theorem isOddPrime_iff (m : Nat) : isOddPrime m = true ↔ m.Prime ∧ m ≠ 2 := by
  simp [isOddPrime, isPrime_iff, and_comm]

/-- For a prime modulus FInv fails exactly on the multiples of it (40_field_ops.md R136). -/
theorem fInv_prime {a p : Nat} (hp : p.Prime) (ha : a % p ≠ 0) :
    ∃ b, fInv a p = .ok b ∧ b < p ∧ a * b % p = 1 := by
  rcases fInv_cases a hp.two_le with ⟨hg, -⟩ | ⟨-, h⟩
  · exact absurd (Nat.Coprime.symm ((Nat.Prime.coprime_iff_not_dvd hp).2 fun hd => ha
      ((Nat.mod_mod a p).symm.trans (Nat.mod_eq_zero_of_dvd hd)))) hg
  · exact h

/-- FLeg over an odd prime is the Legendre symbol: 0 for a multiple of it, +1 for another square, else -1
(40_field_ops.md R138, 93_implementation_defined.md G4). -/
theorem fLeg_cases {a m : Nat} (d : Nat) (hp : m.Prime) (h2 : m ≠ 2) :
    (fLeg a m d = .zero ∧ m ∣ a) ∨ (fLeg a m d = .plusOne ∧ ¬ m ∣ a ∧ IsSquare (a : ZMod m)) ∨
    (fLeg a m d = .minusOne ∧ ¬ m ∣ a ∧ ¬ IsSquare (a : ZMod m)) := by
  have := Fact.mk hp
  have hodd := hp.odd_of_ne_two h2
  have hm3 : 3 ≤ m := by have := hp.two_le; omega
  have hexp : (m - 1) / 2 = m / 2 := by obtain ⟨k, rfl⟩ := hodd; omega
  have ht : ((a % m) ^ (m / 2) % m : Nat) = ((a : ZMod m) ^ (m / 2)).val := by
    rw [← ZMod.val_natCast]; push_cast; simp
  unfold fLeg
  rw [(isOddPrime_iff m).2 ⟨hp, h2⟩, if_pos rfl, fPow_eq (by omega), hexp]
  dsimp only
  rw [ht]
  by_cases hd : m ∣ a
  · have h0 : (a : ZMod m) = 0 := (ZMod.natCast_eq_zero_iff a m).2 hd
    exact .inl ⟨by rw [h0, zero_pow (by omega)]; simp, hd⟩
  · have ha : (a : ZMod m) ≠ 0 := fun h => hd ((ZMod.natCast_eq_zero_iff a m).1 h)
    rcases ZMod.pow_div_two_eq_neg_one_or_one m ha with h | h
    · exact .inr (.inl ⟨by rw [h, ZMod.val_one]; rfl, hd, (ZMod.euler_criterion m ha).2 h⟩)
    · have hne : (-1 : ZMod m) ≠ 1 := by
        have : Fact (2 < m) := ⟨by omega⟩
        exact ZMod.neg_one_ne_one
      refine .inr (.inr ⟨?_, hd, fun hs => hne (h.symm.trans ((ZMod.euler_criterion m ha).1 hs))⟩)
      rw [h, if_neg, if_neg]
      · intro h1
        exact hne (ZMod.val_injective m (by rw [h1, ZMod.val_one]))
      · rw [ZMod.val_eq_zero]; simp

/-- FLeg over an odd prime answers -1 exactly on the non-squares (40_field_ops.md R138). -/
theorem fLeg_minusOne_iff {a m : Nat} (d : Nat) (hp : m.Prime) (h2 : m ≠ 2) :
    fLeg a m d = .minusOne ↔ ¬ IsSquare (a : ZMod m) := by
  rcases fLeg_cases (a := a) d hp h2 with ⟨h, h1⟩ | ⟨h, -, h1⟩ | ⟨h, -, h1⟩ <;> rw [h]
  · have h0 : (a : ZMod m) = 0 := (ZMod.natCast_eq_zero_iff a m).2 h1
    simp [h0]
  · simp [h1]
  · simp [h1]

/-- FSqrt's value is a root of a square when m is a prime ≡ 3 (mod 4) (40_field_ops.md R139). -/
theorem sqrt_formula_sq {a m : Nat} (hp : m.Prime) (h3 : m % 4 = 3) (hs : IsSquare (a : ZMod m)) :
    ((a : ZMod m) ^ ((m + 1) / 4)) ^ 2 = a := by
  have := Fact.mk hp
  have e : (m + 1) / 4 * 2 = m / 2 + 1 := by omega
  rw [← pow_mul, e, pow_succ]
  by_cases ha : (a : ZMod m) = 0
  · rw [ha]; simp
  · rw [(ZMod.euler_criterion m ha).1 hs, one_mul]

end Sys2Proof.Machine
end

