-- ==== Sys2Proof/Laws/Weierstrass.lean ====
section
/-! SUPPORT. One spec lemma per function of the Weierstrass engine (41_weierstrass.md section 2): what it answers, in the field of p elements. -/

namespace Sys2Proof.Machine

/-- Two numbers below m that are equal modulo m are equal. -/
theorem eq_of_cast_eq {a b m : Nat} (ha : a < m) (hb : b < m) (h : (a : ZMod m) = b) : a = b := by
  have := (ZMod.natCast_eq_natCast_iff' _ _ _).1 h
  rwa [Nat.mod_eq_of_lt ha, Nat.mod_eq_of_lt hb] at this

/-! ## The right-hand side and the discriminant -/

theorem wRhs_cast (c : Curve) (x : Nat) : (wRhs c x : ZMod c.p) = (x : ZMod c.p) ^ 3 + c.a * x + c.b := by
  simp only [wRhs, fAdd_cast, fMul_cast]; ring

theorem wRhs_lt {c : Curve} (h : 0 < c.p) (x : Nat) : wRhs c x < c.p := fAdd_lt h

theorem wRhs_eq {c : Curve} (h : 0 < c.p) (x : Nat) : wRhs c x = (x ^ 3 + c.a * x + c.b) % c.p :=
  eq_of_cast_eq (wRhs_lt h x) (Nat.mod_lt _ h) (by rw [wRhs_cast, ZMod.natCast_mod]; push_cast; rfl)

theorem wDisc_eq {p : Nat} (h : 0 < p) (a b : Nat) : wDisc a b p = (4 * a ^ 3 + 27 * b ^ 2) % p :=
  eq_of_cast_eq (fAdd_lt h) (Nat.mod_lt _ h) (by
    rw [ZMod.natCast_mod]; simp only [wDisc, fAdd_cast, fMul_cast]; push_cast; ring)

/-- WValid is the curve equation (41_weierstrass.md R188). -/
theorem wValid_finite_iff {c : Curve} (h : 0 < c.p) (x y : Nat) :
    wValid c (.finite x y) = true ↔ (y : ZMod c.p) ^ 2 = (x : ZMod c.p) ^ 3 + c.a * x + c.b := by
  rw [wValid, beq_iff_eq, ← wRhs_cast, pow_two, ← fMul_cast]
  exact ⟨fun h => by rw [h], eq_of_cast_eq (fMul_lt h) (wRhs_lt h x)⟩

/-! ## Doubling, addition and the slope construction -/

theorem wSlopePoint_spec {c : Curve} (h : 0 < c.p) (sl px py qx : Nat) :
    ∃ rx ry, wSlopePoint c sl px py qx = .finite rx ry ∧ rx < c.p ∧ ry < c.p ∧
      (rx : ZMod c.p) = (sl : ZMod c.p) ^ 2 - px - qx ∧ (ry : ZMod c.p) = sl * (px - rx) - py := by
  refine ⟨_, _, rfl, fSub_lt h, fSub_lt h, ?_, ?_⟩
  · simp only [fSub_cast h, fMul_cast]; ring
  · simp only [fSub_cast h, fMul_cast]

/-- WDouble in one lemma: vertical tangent, no inverse of 2·y, or the tangent formula (41_weierstrass.md R183). -/
theorem wDouble_finite_cases {c : Curve} (h2 : 2 ≤ c.p) (x y : Nat) :
    (y = 0 ∧ wDouble c (.finite x y) = .ok .identity) ∨
    (y ≠ 0 ∧ ¬ Nat.Coprime (2 * y) c.p ∧ wDouble c (.finite x y) = .error .notInvertible) ∨
    (y ≠ 0 ∧ Nat.Coprime (2 * y) c.p ∧ ∃ rx ry, wDouble c (.finite x y) = .ok (.finite rx ry) ∧ rx < c.p ∧ ry < c.p ∧
      ∃ sl : ZMod c.p, sl * (2 * y) = 3 * (x : ZMod c.p) ^ 2 + c.a ∧ (rx : ZMod c.p) = sl ^ 2 - x - x ∧
        (ry : ZMod c.p) = sl * (x - rx) - y) := by
  have h0 : 0 < c.p := by omega
  by_cases hy : y = 0
  · exact .inl ⟨hy, by simp [wDouble, hy]⟩
  · have hg : Nat.gcd (fMul 2 y c.p % c.p) c.p = Nat.gcd (2 * y) c.p := by
      simp only [fMul, Nat.mod_mod]; rw [← Nat.gcd_rec, Nat.gcd_comm]
    rcases fInv_cases (fMul 2 y c.p) h2 with ⟨hn, he⟩ | ⟨hc, b, hb, -, hi⟩
    · rw [hg] at hn
      exact .inr (.inl ⟨hy, hn, by simp [wDouble, hy, he]⟩)
    · rw [hg] at hc
      refine .inr (.inr ⟨hy, hc, ?_⟩)
      obtain ⟨rx, ry, hs, h3, h4, h5, h6⟩ := wSlopePoint_spec h0 (fMul (fAdd (fMul 3 (fMul x x c.p) c.p) c.a c.p) b c.p) x y x
      refine ⟨rx, ry, by simp [wDouble, hy, hb, hs], h3, h4, _, ?_, h5, h6⟩
      have h1 : (2 * y : ZMod c.p) * b = 1 := by
        have := congrArg (Nat.cast (R := ZMod c.p)) hi
        simpa [fMul_cast] using this
      simp only [fMul_cast, fAdd_cast]
      push_cast
      linear_combination (3 * (x : ZMod c.p) ^ 2 + c.a) * h1

/-- WAdd of two different stored finite points: the same x modulo p, no inverse of the denominator, or the chord
formula (41_weierstrass.md R184). -/
theorem wAdd_finite_cases {c : Curve} (h2 : 2 ≤ c.p) {px py qx qy : Nat} (hne : ¬ (px = qx ∧ py = qy)) :
    (px % c.p = qx % c.p ∧ wAdd c (.finite px py) (.finite qx qy) = .ok .identity) ∨
    (px % c.p ≠ qx % c.p ∧ Int.gcd ((qx : ℤ) - px) c.p ≠ 1 ∧
      wAdd c (.finite px py) (.finite qx qy) = .error .notInvertible) ∨
    (px % c.p ≠ qx % c.p ∧ Int.gcd ((qx : ℤ) - px) c.p = 1 ∧
      ∃ rx ry, wAdd c (.finite px py) (.finite qx qy) = .ok (.finite rx ry) ∧ rx < c.p ∧ ry < c.p ∧
        ∃ sl : ZMod c.p, sl * ((qx : ZMod c.p) - px) = (qy : ZMod c.p) - py ∧
          (rx : ZMod c.p) = sl ^ 2 - px - qx ∧ (ry : ZMod c.p) = sl * (px - rx) - py) := by
  have h0 : 0 < c.p := by omega
  have hden := fSub_cast (a := qx) (b := px) h0
  have hz : fSub qx px c.p = 0 ↔ px % c.p = qx % c.p := by
    constructor
    · intro h; rw [h, Nat.cast_zero, eq_comm, sub_eq_zero] at hden
      exact ((ZMod.natCast_eq_natCast_iff' _ _ _).1 hden).symm
    · intro h
      refine eq_of_cast_eq (fSub_lt h0) h0 ?_
      rw [hden, (ZMod.natCast_eq_natCast_iff' _ _ _).2 h]; simp
  have hg : Nat.gcd (fSub qx px c.p % c.p) c.p = Int.gcd ((qx : ℤ) - px) c.p := by
    rw [Nat.mod_eq_of_lt (fSub_lt h0), ← Int.gcd_natCast_natCast, fSub_eq_emod h0]
    exact Int.gcd_emod _ _
  by_cases hx : px % c.p = qx % c.p
  · exact .inl ⟨hx, by simp [wAdd, hne, hz.2 hx]⟩
  · have hd : fSub qx px c.p ≠ 0 := fun h => hx (hz.1 h)
    rcases fInv_cases (fSub qx px c.p) h2 with ⟨hn, he⟩ | ⟨hc, b, hb, -, hi⟩
    · rw [hg] at hn
      exact .inr (.inl ⟨hx, hn, by simp [wAdd, hne, hd, he]⟩)
    · rw [hg] at hc
      refine .inr (.inr ⟨hx, hc, ?_⟩)
      obtain ⟨rx, ry, hs, h3, h4, h5, h6⟩ := wSlopePoint_spec h0 (fMul (fSub qy py c.p) b c.p) px py qx
      refine ⟨rx, ry, by simp [wAdd, hne, hd, hb, hs], h3, h4, _, ?_, h5, h6⟩
      have h1 : ((qx : ZMod c.p) - px) * b = 1 := by
        have := congrArg (Nat.cast (R := ZMod c.p)) hi
        simpa [hden] using this
      simp only [fMul_cast, fSub_cast h0]
      linear_combination ((qy : ZMod c.p) - py) * h1

/-- WEval in one lemma: the formula's value or POINT_NOT_ON_CURVE, and over an odd prime the error exactly for a
non-square (41_weierstrass.md R187). -/
theorem wEval_cases {c : Curve} (h2 : 2 ≤ c.p) (x d : Nat) :
    (wEval c x d = .ok (wRhs c x ^ ((c.p + 1) / 4) % c.p) ∧ fLeg (wRhs c x) c.p d ≠ .minusOne) ∨
    (wEval c x d = .error .pointNotOnCurve ∧ fLeg (wRhs c x) c.p d = .minusOne) := by
  have hs : fSqrt (wRhs c x) c.p = wRhs c x ^ ((c.p + 1) / 4) % c.p := fPow_eq (by omega)
  unfold wEval
  cases h : fLeg (wRhs c x) c.p d
  · exact .inr ⟨rfl, rfl⟩
  · exact .inl ⟨by rw [hs], by simp⟩
  · exact .inl ⟨by rw [hs], by simp⟩

/-! ## Scalar multiplication -/

/-- WMul starts from the operand below the highest bit (41_weierstrass.md R186). -/
theorem wMul_of_ne_zero {c : Curve} {p : Point} {k : Nat} (h : k ≠ 0) : wMul c p k = wMulLoop c p k (bitlen k - 1) p := by
  simp [wMul, h]

/-- What every point that WMul meets satisfies, its result satisfies. -/
theorem wMulLoop_induct {c : Curve} {p : Point} {k : Nat} (Q : Point → Prop) (hid : Q .identity)
    (hd : ∀ a r, Q a → wDouble c a = .ok r → Q r) (ha : ∀ a r, Q a → wAdd c a p = .ok r → Q r) :
    ∀ n acc r, Q acc → wMulLoop c p k n acc = .ok r → Q r := by
  intro n
  induction n with
  | zero => intro acc r h hr; cases hr; exact h
  | succ n ih =>
    intro acc r h hr
    obtain ⟨dbl, hdbl, hr⟩ := except_bind_eq_ok hr
    have hq := hd _ _ h hdbl
    cases dbl with
    | identity => cases hr; exact hid
    | finite x y =>
      dsimp only at hr
      split at hr
      · obtain ⟨sum, hsum, hr⟩ := except_bind_eq_ok hr
        exact ih _ _ (ha _ _ hq hsum) hr
      · exact ih _ _ hq hr

/-- When no doubling and no addition on the way fails, WMul answers a point. -/
theorem wMulLoop_ok {c : Curve} {p : Point} {k : Nat} (Q : Point → Prop)
    (hd : ∀ a, Q a → ∃ r, wDouble c a = .ok r ∧ Q r) (ha : ∀ a, Q a → ∃ r, wAdd c a p = .ok r ∧ Q r) :
    ∀ n acc, Q acc → ∃ r, wMulLoop c p k n acc = .ok r ∧ (Q r ∨ r = .identity) := by
  intro n
  induction n with
  | zero => intro acc h; exact ⟨acc, rfl, .inl h⟩
  | succ n ih =>
    intro acc h
    obtain ⟨dbl, hdbl, hq⟩ := hd _ h
    rw [wMulLoop, hdbl, except_ok_bind]
    cases dbl with
    | identity => exact ⟨_, rfl, .inr rfl⟩
    | finite x y =>
      dsimp only
      split
      · obtain ⟨sum, hsum, hq2⟩ := ha _ hq
        rw [hsum, except_ok_bind]; exact ih _ hq2
      · exact ih _ hq

end Sys2Proof.Machine
end

