-- ==== Sys2Proof/Laws/Montgomery.lean ====
section
/-! SUPPORT. One spec lemma per function of the Montgomery ladder engine (42_montgomery.md section 2): what it answers, in the field of P25519 elements. -/

namespace Sys2Proof.Machine

theorem P25519_pos : 0 < P25519 := prime_P25519.pos

theorem P25519_ne_two : P25519 ≠ 2 := by norm_num [P25519]

/-- MDouble's two coordinates (42_montgomery.md R241). -/
theorem mDouble_cast (p : MPoint) :
    ((mDouble p).x : ZMod P25519) = ((p.x : ZMod P25519) ^ 2 - (p.z : ZMod P25519) ^ 2) ^ 2 ∧
    ((mDouble p).z : ZMod P25519) =
      4 * p.x * p.z * ((p.x : ZMod P25519) ^ 2 + 486662 * p.x * p.z + (p.z : ZMod P25519) ^ 2) := by
  constructor <;> simp only [mDouble, fMul_cast, fAdd_cast, fSub_cast P25519_pos, A25519] <;> push_cast <;> ring

theorem mDouble_lt (p : MPoint) : (mDouble p).x < P25519 ∧ (mDouble p).z < P25519 :=
  ⟨fMul_lt P25519_pos, fMul_lt P25519_pos⟩

/-- MAdd's formula branch (42_montgomery.md R240). -/
theorem mAdd_cast {p q : MPoint} (hp : p.z ≠ 0) (hq : q.z ≠ 0) (h : p ≠ q) :
    (mAdd p q).x < P25519 ∧ (mAdd p q).z < P25519 ∧
    ((mAdd p q).x : ZMod P25519) = ((p.x : ZMod P25519) * q.x - p.z * q.z) ^ 2 ∧
    ((mAdd p q).z : ZMod P25519) = ((p.x : ZMod P25519) * q.z - q.x * p.z) ^ 2 * 9 := by
  rw [mAdd, if_neg hp, if_neg hq, if_neg h]
  refine ⟨fMul_lt P25519_pos, fMul_lt P25519_pos, ?_, ?_⟩ <;>
    simp only [fMul_cast, fSub_cast P25519_pos, GX25519] <;> push_cast <;> ring

/-- MAffX in one lemma: NOT_INVERTIBLE when Z ≡ 0, else the x with `x·Z ≡ X` (42_montgomery.md R243). -/
theorem mAffX_cases (p : MPoint) :
    (p.z % P25519 = 0 ∧ mAffX p = .error .notInvertible) ∨
    (p.z % P25519 ≠ 0 ∧ ∃ x, mAffX p = .ok x ∧ x < P25519 ∧ (x : ZMod P25519) * p.z = p.x) := by
  by_cases hz : p.z % P25519 = 0
  · left
    refine ⟨hz, ?_⟩
    have hg : Nat.gcd (p.z % P25519) P25519 ≠ 1 := by
      rw [hz, Nat.gcd_zero_left]; exact prime_P25519.one_lt.ne'
    simp [mAffX, fInv, hg]
  · right
    obtain ⟨b, hb, -, hi⟩ := fInv_prime prime_P25519 hz
    refine ⟨hz, fMul p.x b P25519, by simp [mAffX, hb], fMul_lt P25519_pos, ?_⟩
    have h1 : (p.z : ZMod P25519) * b = 1 := by
      have := congrArg (Nat.cast (R := ZMod P25519)) hi
      simpa using this
    rw [fMul_cast]
    linear_combination (p.x : ZMod P25519) * h1

theorem mCurve_cast (x : Nat) : (mCurve x : ZMod P25519) = (x : ZMod P25519) ^ 3 + 486662 * (x : ZMod P25519) ^ 2 + x := by
  simp only [mCurve, fMul_cast, fAdd_cast, A25519]; push_cast; ring

/-- The residue test on an affine x (42_montgomery.md R244). -/
theorem mOnCurve_iff (x d : Nat) : mOnCurve x d = true ↔ IsSquare (mCurve x : ZMod P25519) := by
  have := fLeg_minusOne_iff (a := mCurve x) d prime_P25519 P25519_ne_two
  rw [mOnCurve, bne_iff_ne, ne_eq, this, not_not]

end Sys2Proof.Machine
end

