-- ==== Sys2Proof/Laws/PerInstr.lean ====
section
/-! SUPPORT. Statements made for every command, one lemma per constructor: `OpcodeRow`, the command's word matches its row of the opcode map (30_encoding.md R104). -/

namespace Sys2Proof.Laws.OpcodeRow

/-- The word the assembler writes for `i` has `i`'s OP value and RSV = 0, "The match value of each row is
`OP` and its mask is `0xE000003F`" (30_encoding.md R104). -/
def Statement (i : Instr) : Prop := opField (encode i) = i.opcode ∧ rsvField (encode i) = 0

theorem all (i : Instr) : Statement i :=
  ⟨opField_assemble i.opcode_lt i.fields, rsvField_assemble i.opcode_lt i.fields⟩

theorem nop : Statement .nop := all _
theorem ldc (kd : KIdx) (ms : ModSel) : Statement (.ldc kd ms) := all _
theorem wldg (pd : PIdx) : Statement (.wldg pd) := all _
theorem mldg (pd : PIdx) : Statement (.mldg pd) := all _
theorem h2i (kd : KIdx) : Statement (.h2i kd) := all _
theorem fadd (kd : KIdx) (ka : KIdx) (kb : KIdx) (ms : ModSel) : Statement (.fadd kd ka kb ms) := all _
theorem fsub (kd : KIdx) (ka : KIdx) (kb : KIdx) (ms : ModSel) : Statement (.fsub kd ka kb ms) := all _
theorem fmul (kd : KIdx) (ka : KIdx) (kb : KIdx) (ms : ModSel) : Statement (.fmul kd ka kb ms) := all _
theorem fpow (kd : KIdx) (ka : KIdx) (kb : KIdx) (ms : ModSel) : Statement (.fpow kd ka kb ms) := all _
theorem finv (kd : KIdx) (ka : KIdx) (ms : ModSel) : Statement (.finv kd ka ms) := all _
theorem fleg (kd : KIdx) (ka : KIdx) (ms : ModSel) : Statement (.fleg kd ka ms) := all _
theorem fsqrt (kd : KIdx) (ka : KIdx) (ms : ModSel) : Statement (.fsqrt kd ka ms) := all _
theorem fprime (ka : KIdx) : Statement (.fprime ka) := all _
theorem wcons : Statement .wcons := all _
theorem wadd (pd : PIdx) (pa : PIdx) (pb : PIdx) (cs : CurveSel) : Statement (.wadd pd pa pb cs) := all _
theorem wdbl (pd : PIdx) (pa : PIdx) (cs : CurveSel) : Statement (.wdbl pd pa cs) := all _
theorem wneg (pd : PIdx) (pa : PIdx) (cs : CurveSel) : Statement (.wneg pd pa cs) := all _
theorem wmul (pd : PIdx) (pa : PIdx) (ka : KIdx) (cs : CurveSel) : Statement (.wmul pd pa ka cs) := all _
theorem weval (kd : KIdx) (ka : KIdx) (cs : CurveSel) : Statement (.weval kd ka cs) := all _
theorem wvalid (pa : PIdx) (cs : CurveSel) : Statement (.wvalid pa cs) := all _
theorem wenc (pa : PIdx) (form : EncForm) : Statement (.wenc pa form) := all _
theorem wdec (pd : PIdx) (cs : CurveSel) : Statement (.wdec pd cs) := all _
theorem madd (pd : PIdx) (pa : PIdx) (pb : PIdx) : Statement (.madd pd pa pb) := all _
theorem mdbl (pd : PIdx) (pa : PIdx) : Statement (.mdbl pd pa) := all _
theorem mmul (pd : PIdx) (pa : PIdx) (ka : KIdx) : Statement (.mmul pd pa ka) := all _
theorem meval (pa : PIdx) : Statement (.meval pa) := all _
theorem mvalid (pa : PIdx) : Statement (.mvalid pa) := all _
theorem mrand (pd : PIdx) : Statement (.mrand pd) := all _
theorem maffx (kd : KIdx) (pa : PIdx) : Statement (.maffx kd pa) := all _
theorem ekeygen (pd : PIdx) (kd : KIdx) : Statement (.ekeygen pd kd) := all _
theorem esign (ka : KIdx) : Statement (.esign ka) := all _
theorem everify (pa : PIdx) : Statement (.everify pa) := all _

end Sys2Proof.Laws.OpcodeRow
end

