-- ==== Sys2Proof/Tests/Slice0.lean ====
section
/-! SUPPORT. The model's own tests: the well-formedness smoke, decoding, one or two steps per command with results from spec/95_test_vectors.md, and for every statement with hypotheses concrete states that meet them. -/

section

open Sys2Proof Sys2Proof.Machine

set_option Elab.async false

/-! ## Builders -/

/-- The state an outcome answers, if it answers one. -/
def Sys2Proof.Tests.next? (o : Host.Outcome State Fault Refusal) : Option State :=
  match o with
  | .next t => some t
  | .fault _ => none
  | .refused _ => none

/-- An idle engine with these registers. -/
def Sys2Proof.Tests.idle (r : Regs) : State := { State.reset with regs := r }

/-- An engine that has accepted the command in CMD with these registers. -/
def Sys2Proof.Tests.accepted (r : Regs) : State := { State.reset with regs := r, phase := .busy r .idle 0 }

/-- An engine whose first request has been answered. -/
def Sys2Proof.Tests.answered (r : Regs) (bound : Nat) (a : RngAnswer) : State :=
  { State.reset with regs := r, phase := .busy r (.answered bound a) 0, requests := 1 }

/-- An engine whose first request is pending. -/
def Sys2Proof.Tests.waiting (r : Regs) (bound : Nat) : State :=
  { State.reset with regs := r, phase := .busy r (.pending 0 bound) 0, requests := 1 }

/-- K0 = a, K1 = b. -/
def Sys2Proof.Tests.ks (a b : Nat) : Regs := (Regs.reset.setK 0 a).setK 1 b

/-- PR0 and PR1 as Weierstrass points. -/
def Sys2Proof.Tests.prs (P Q : Point) : Regs := (Regs.reset.setPt 0 P).setPt 1 Q

/-- PR0 and PR1 as projective points. -/
def Sys2Proof.Tests.mps (P Q : MPoint) : Regs := (Regs.reset.setMp 0 P).setMp 1 Q

/-- A constructed user curve beside the registers. -/
def Sys2Proof.Tests.user (a b p : Nat) (r : Regs) : Regs :=
  { r with ua := BitVec.ofNat 512 a, ub := BitVec.ofNat 512 b, up := BitVec.ofNat 512 p, ucv := true }

/-- "UC", the user curve (1, 1, 23) of 95_test_vectors.md. -/
def Sys2Proof.Tests.uc (r : Regs) : Regs := Tests.user 1 1 23 r

/-- The digest of V-E1, d of V-E2, and the r and s of V-E3. -/
def Sys2Proof.Tests.digest : Nat := 0x4ABF46A5D23AA854E1A80209E1325795D012A6E904B22087AA0657A73779DE34
def Sys2Proof.Tests.keyD : Nat := 0x1E99423A4ED27608A15A2616A2B0E9E52CED330AC530EDCC32C8FFC6A526AEDD
def Sys2Proof.Tests.sigR : Nat := 0xD86BBAA0A0556B9A4035C091528C1C9EEA7A2D290821E2A7E0522ACB4A2E564C
def Sys2Proof.Tests.sigS : Nat := 0x3035FF9CF155616299F0568E7614575AB7E918C47FC34895044680DDE23E5316
def Sys2Proof.Tests.pubQ : Point := .finite 0xF028892BAD7ED57D2FB57BF33081D5CFCF6F9ED3D3D7F159C2E2FFF579DC341A
  0x07CF33DA18BD734C600B96A72BBC4749D5141C90EC8AC328AE52DDFE2E505BDB

/-- DIGEST holding the 32 bytes of `e`, DLEN 32. -/
def Sys2Proof.Tests.hashed (e : Nat) (r : Regs) : Regs := { r with digest := bufOf 64 (beBytes 32 e), dlen := 32 }

/-- EBUF and ELEN holding these bytes. -/
def Sys2Proof.Tests.encoded (bytes : List Byte) : Regs := Regs.reset.setEncoding bytes

/-- One step that runs the command word `w` on these registers. -/
def Sys2Proof.Tests.run (w : Nat) (r : Regs) : Option State := Tests.next? (step ((Tests.idle r).withFetchWord 32 w))

/-- One step of a drawing command whose first request was answered with `v`. -/
def Sys2Proof.Tests.runDraw (w : Word) (bound v : Nat) (r : Regs) : Option State :=
  Tests.next? (step (Tests.answered { r with cmd := w } bound (.value v)))

/-- STATUS and K[i] after one step. -/
def Sys2Proof.Tests.kAfter (t : Option State) (i : KIdx) : Option (Nat × Nat) :=
  t.map fun t => (t.statusWord.toNat, t.regs.kNat i)

/-- STATUS and PR[i] after one step. -/
def Sys2Proof.Tests.prAfter (t : Option State) (i : PIdx) : Option (Nat × Bool × Nat × Nat) :=
  t.map fun t => (t.statusWord.toNat, t.regs.pr[i].inf, t.regs.pr[i].x.toNat, t.regs.pr[i].y.toNat)

/-- STATUS after one step. -/
def Sys2Proof.Tests.statusAfter (t : Option State) : Option Nat := t.map fun t => t.statusWord.toNat

open Sys2Proof.Tests

/-! ## Well-formedness -/

theorem test_wf_refuses_reserved_ms :
    (Instr.ldc 0 .rsv5).wf = false ∧ (Instr.fadd 1 0 0 .rsv5).wf = false ∧ (Instr.fsub 0 1 2 .rsv6).wf = false ∧
    (Instr.fmul 0 1 2 .rsv7).wf = false ∧ (Instr.fpow 0 1 2 .rsv5).wf = false ∧ (Instr.finv 0 1 .rsv6).wf = false ∧
    (Instr.fleg 0 1 .rsv7).wf = false ∧ (Instr.fsqrt 0 1 .rsv5).wf = false := by decide

theorem test_wf_accepts_legal_ms : (Instr.ldc 0 .up).wf = true ∧ (Instr.fadd 0 0 0 .p256).wf = true := by decide

/-! ## Decoding: words written field by field, RSV MS CMP CS KB KA KD PB PA PD OP (30_encoding.md R100, R104) -/

theorem test_decode_system :
    decode 0b000_000_0_0_000_000_000_000_000_000_000000 = .ok .nop ∧
    decode 0b000_011_0_0_000_000_101_000_000_000_000001 = .ok (.ldc 5 .n25519) ∧
    decode 0b000_000_0_0_000_000_000_000_000_110_000010 = .ok (.wldg 6) ∧
    decode 0b000_000_0_0_000_000_000_000_000_001_000011 = .ok (.mldg 1) ∧
    decode 0b000_000_0_0_000_000_001_000_000_000_000100 = .ok (.h2i 1) := by decide +kernel

theorem test_decode_field :
    decode 0b000_100_0_0_001_000_010_000_000_000_001000 = .ok (.fadd 2 0 1 .up) ∧
    decode 0b000_000_0_0_001_110_010_000_000_000_001001 = .ok (.fsub 2 6 1 .p256) ∧
    decode 0b000_001_0_0_011_101_111_000_000_000_001010 = .ok (.fmul 7 5 3 .n256) ∧
    decode 0b000_010_0_0_100_010_001_000_000_000_001011 = .ok (.fpow 1 2 4 .p25519) ∧
    decode 0b000_011_0_0_000_100_011_000_000_000_001100 = .ok (.finv 3 4 .n25519) ∧
    decode 0b000_100_0_0_000_000_001_000_000_000_001101 = .ok (.fleg 1 0 .up) ∧
    decode 0b000_010_0_0_000_110_101_000_000_000_001110 = .ok (.fsqrt 5 6 .p25519) ∧
    decode 0b000_000_0_0_000_101_000_000_000_000_001111 = .ok (.fprime 5) := by decide +kernel

theorem test_decode_weierstrass :
    decode 0b000_000_0_0_000_000_000_000_000_000_010000 = .ok .wcons ∧
    decode 0b000_000_0_1_000_000_000_001_000_010_010001 = .ok (.wadd 2 0 1 .user) ∧
    decode 0b000_000_0_0_000_000_000_000_100_011_010010 = .ok (.wdbl 3 4 .secp256k1) ∧
    decode 0b000_000_0_1_000_000_000_000_000_001_010011 = .ok (.wneg 1 0 .user) ∧
    decode 0b000_000_0_0_000_110_000_000_101_011_010100 = .ok (.wmul 3 5 6 .secp256k1) ∧
    decode 0b000_000_0_1_000_010_001_000_000_000_010101 = .ok (.weval 1 2 .user) ∧
    decode 0b000_000_0_0_000_000_000_000_011_000_010110 = .ok (.wvalid 3 .secp256k1) ∧
    decode 0b000_000_1_0_000_000_000_000_010_000_010111 = .ok (.wenc 2 .compressed) ∧
    decode 0b000_000_0_1_000_000_000_000_000_100_011000 = .ok (.wdec 4 .user) := by decide +kernel

theorem test_decode_montgomery :
    decode 0b000_000_0_0_000_000_000_000_010_011_100000 = .ok (.madd 3 2 0) ∧
    decode 0b000_000_0_0_000_000_000_000_001_010_100001 = .ok (.mdbl 2 1) ∧
    decode 0b000_000_0_0_000_111_000_000_101_110_100010 = .ok (.mmul 6 5 7) ∧
    decode 0b000_000_0_0_000_000_000_000_001_000_100011 = .ok (.meval 1) ∧
    decode 0b000_000_0_0_000_000_000_000_010_000_100100 = .ok (.mvalid 2) ∧
    decode 0b000_000_0_0_000_000_000_000_000_001_100101 = .ok (.mrand 1) ∧
    decode 0b000_000_0_0_000_000_010_000_001_000_100110 = .ok (.maffx 2 1) := by decide +kernel

theorem test_decode_ecdsa :
    decode 0b000_000_0_0_000_000_011_000_000_100_110000 = .ok (.ekeygen 4 3) ∧
    decode 0b000_000_0_0_000_010_000_000_000_000_110001 = .ok (.esign 2) ∧
    decode 0b000_000_0_0_000_000_000_000_001_000_110010 = .ok (.everify 1) := by decide +kernel

/-! ## One step per command (95_test_vectors.md, the id in each name) -/

theorem test_nop_VS1 : (run 0x00000000 Regs.reset).map (fun t => (t.statusWord, t.regs)) = some (2, Regs.reset) := by
  decide +kernel

theorem test_ldc_VS2 : kAfter (run 0x04000001 Regs.reset) 0 =
    some (2, 0xFFFFFFFFFFFFFFFFFFFFFFFFFFFFFFFEBAAEDCE6AF48A03BBFD25E8CD0364141) := by decide +kernel
theorem test_ldc_no_curve_VS4 : kAfter (run 0x10000001 Regs.reset) 0 = some (0x702, 0) := by decide +kernel

theorem test_wldg_VS5 : prAfter (run 0x01000002 Regs.reset) 0 = some (2, false,
    0x79BE667EF9DCBBAC55A06295CE870B07029BFCDB2DCE28D959F2815B16F81798,
    0x483ADA7726A3C4655DA4FBFC0E1108A8FD17B448A68554199C47D08FFB10D4B8) := by decide +kernel

theorem test_mldg_VS6 : prAfter (run 0x00000043 Regs.reset) 1 = some (2, false, 9, 1) := by decide +kernel

theorem test_h2i_VE15 : kAfter (run 0x00008004 { Regs.reset with digest := bufOf 64 [1, 2, 3, 4], dlen := 3 }) 1 =
    some (2, 66051) := by decide +kernel
theorem test_h2i_VE1 : kAfter (run 0x00008004 (hashed digest Regs.reset)) 1 = some (2, digest) := by decide +kernel

theorem test_fadd_VF30 : kAfter (run 0x10000008 (uc (ks 20 0))) 0 = some (0x12, 17) := by decide +kernel
theorem test_fadd_VF8 : kAfter (run 0x00210008 (ks (2 ^ 512 - 1) 0)) 2 = some (2, 0x1000007A2000E90A0) := by decide +kernel

theorem test_fsub_VF2 : kAfter (run 0x10210009 (uc (ks 3 5))) 2 = some (0x12, 21) := by decide +kernel
theorem test_fsub_VF4 : kAfter (run 0x04210009 (ks 0 1)) 2 =
    some (2, 0xFFFFFFFFFFFFFFFFFFFFFFFFFFFFFFFEBAAEDCE6AF48A03BBFD25E8CD0364140) := by decide +kernel

theorem test_fmul_VF5 : kAfter (run 0x1021000A (uc (ks 7 9))) 2 = some (0x12, 17) := by decide +kernel
theorem test_fmul_VF6 : kAfter (run 0x0401000A (ks (2 ^ 512 - 1) 0)) 2 =
    some (2, 0x7529571E9E9E623D7B2701C97A49EF0C40738262285A19F20662F90BC8010FEB) := by decide +kernel

theorem test_fpow_VF9 : kAfter (run 0x1021000B (uc (ks 0 0))) 2 = some (0x12, 1) := by decide +kernel
theorem test_fpow_VF11 : kAfter (run 0x1021000B (uc (ks 0 5))) 2 = some (0x12, 0) := by decide +kernel

theorem test_finv_VF15 : kAfter (run 0x0000800C (ks 2 0)) 1 =
    some (2, 0x7FFFFFFFFFFFFFFFFFFFFFFFFFFFFFFFFFFFFFFFFFFFFFFFFFFFFFFF7FFFFE18) := by decide +kernel
theorem test_finv_VF14 : kAfter (run 0x1000800C (uc (ks 23 5))) 1 = some (0x612, 5) := by decide +kernel

theorem test_fleg_VF18 : kAfter (run 0x1000800D (uc (ks 5 0))) 1 = some (0x12, 22) := by decide +kernel
theorem test_fleg_VF19 : kAfter (run 0x1000800D (uc (ks 2 0))) 1 = some (0x12, 1) := by decide +kernel

theorem test_fsqrt_VF22 : kAfter (run 0x1000800E (uc (ks 2 0))) 1 = some (0x12, 18) := by decide +kernel
theorem test_fsqrt_VF25 : kAfter (run 0x0800800E (ks 4 0)) 1 =
    some (2, 0x7FFFFFFFFFFFFFFFFFFFFFFFFFFFFFFFFFFFFFFFFFFFFFFFFFFFFFFFFFFFFFEC) := by decide +kernel

theorem test_fprime_VF26 : statusAfter (run 0x0000000F (ks 23 0)) = some 6 := by decide +kernel
theorem test_fprime_VF27 : statusAfter (run 0x0000000F (ks 1 0)) = some 2 := by decide +kernel

theorem test_wcons_VW32 : statusAfter (run 0x00000010 { Regs.reset with ub := 7, up := BitVec.ofNat 512 P256 }) = some 0x12 := by
  decide +kernel
theorem test_wcons_singular_S86 : statusAfter (run 0x00000010 { Regs.reset with up := 23, ucv := true }) = some 0x202 := by
  decide +kernel

theorem test_wadd_VW13 : prAfter (run 0x01001091 (uc (prs (.finite 3 10) (.finite 9 7)))) 2 = some (0x12, false, 17, 20) := by
  decide +kernel
theorem test_wadd_VW17 : prAfter (run 0x01001091 (uc (prs (.finite 3 10) (.finite 26 10)))) 2 = some (0x12, true, 0, 0) := by
  decide +kernel

theorem test_wdbl_VW1 : prAfter (run 0x00000052 (prs genG .identity)) 1 = some (2, false,
    0xC6047F9441ED7D6D3045406E95C07CD85C778E4B8CEF3CA7ABAC09B95C709EE5,
    0x1AE168FEA63DC339A3C58419466CEAEEF7F632653266D0E1236431A950CFE52A) := by decide +kernel
theorem test_wdbl_VW35 : prAfter (run 0x00000052 (prs (.finite GX256 P256) (.finite 3 4))) 1 = some (0x602, false, 3, 4) := by
  decide +kernel

theorem test_wneg_VW19 : prAfter (run 0x01000053 (uc (prs (.finite 3 10) .identity))) 1 = some (0x12, false, 3, 13) := by
  decide +kernel
theorem test_wneg_VW5 : prAfter (run 0x01000053 (uc (prs (.finite 4 0) .identity))) 1 = some (0x12, false, 4, 0) := by
  decide +kernel

theorem test_wmul_VW15 : prAfter (run 0x01000054 (uc ((prs (.finite 3 10) .identity).setK 0 7))) 1 =
    some (0x12, false, 11, 3) := by decide +kernel
theorem test_wmul_VW12 : prAfter (run 0x01000054 (uc ((prs (.finite 3 10) (.finite 1 1)).setK 0 29))) 1 =
    some (0x12, true, 0, 0) := by decide +kernel

theorem test_weval_VW37 : kAfter (run 0x00008015 (ks GX256 0)) 1 = some (2, GY256) := by decide +kernel
theorem test_weval_VW21 : kAfter (run 0x01008015 (uc (ks 2 5))) 1 = some (0x312, 5) := by decide +kernel

theorem test_wvalid_VW36 : statusAfter (run 0x00000016 (prs (.finite (GX256 + P256) GY256) .identity)) = some 6 := by
  decide +kernel
theorem test_wvalid_VW31 : statusAfter (run 0x00000016 Regs.reset) = some 2 := by decide +kernel

theorem test_wenc_VW23 : (run 0x00000017 (prs genG .identity)).map
    (fun t => (t.statusWord, t.regs.elen, t.readWord (target 0x040), t.readWord (target 0x080))) =
    some (2, 65, 0x0479BE66, 0xB8000000) := by decide +kernel
theorem test_wenc_VW28 : (run 0x02000017 (prs (.finite 3 10) .identity)).map
    (fun t => (t.statusWord, t.regs.elen, t.readWord (target 0x040), t.readWord (target 0x060))) =
    some (2, 33, 0x02000000, 0x03000000) := by decide +kernel

theorem test_wdec_VW30 : prAfter (run 0x01000058 (uc (encoded (3 :: beBytes 32 3)))) 1 = some (0x12, false, 3, 13) := by
  decide +kernel
theorem test_wdec_VX10 : prAfter (run 0x00000058 (encoded (4 :: beBytes 32 3))) 1 = some (0x802, false, 0, 0) := by
  decide +kernel

theorem test_madd_VM2 : prAfter (run 0x000010E0 (mps ⟨6400, 157681440⟩ ⟨9, 1⟩)) 3 =
    some (2, false, 24845274936345600, 18125281739676902400) := by decide +kernel
theorem test_madd_VM7 : prAfter (run 0x000010A0 (mps ⟨9, 1⟩ ⟨18, 2⟩)) 2 = some (2, true, 25600, 0) := by decide +kernel

theorem test_mdbl_VM1 : prAfter (run 0x00000061 (mps ⟨9, 1⟩ ⟨0, 0⟩)) 1 = some (2, false, 6400, 157681440) := by decide +kernel
theorem test_mdbl_VM6 : prAfter (run 0x00000061 (mps ⟨5, 0⟩ ⟨0, 0⟩)) 1 = some (2, true, 625, 0) := by decide +kernel

theorem test_mmul_VM3 : prAfter (run 0x00000062 ((mps ⟨9, 1⟩ ⟨0, 0⟩).setK 0 2)) 1 = some (2, false, 6400, 157681440) := by
  decide +kernel
theorem test_mmul_VM5 : prAfter (run 0x00000062 (mps ⟨9, 1⟩ ⟨0, 0⟩)) 1 = some (2, true, 1, 0) := by decide +kernel

theorem test_meval_VM12 : statusAfter (run 0x00000023 (mps ⟨2, 1⟩ ⟨0, 0⟩)) = some 0x302 := by decide +kernel
theorem test_meval_identity_VM12 : statusAfter (run 0x00000023 (mps ⟨7, 0⟩ ⟨0, 0⟩)) = some 6 := by decide +kernel

theorem test_mvalid_VM11 : statusAfter (run 0x00000024 (mps ⟨9, 1⟩ ⟨0, 0⟩)) = some 6 := by decide +kernel
theorem test_mvalid_VM17 : statusAfter (run 0x00000024 (mps ⟨14, 1⟩ ⟨0, 0⟩)) = some 2 := by decide +kernel

theorem test_mrand_VM16 : prAfter (runDraw 0x00000065 N25519 0 Regs.reset) 1 = some (2, false, 0, 1) := by decide +kernel
theorem test_mrand_VM14 : (runDraw 0x00000065 N25519 3 Regs.reset).map (fun t => (t.statusWord, t.port, t.redraws)) =
    some (1, .pending 1 N25519, 1) := by decide +kernel

theorem test_maffx_VM13 : kAfter (run 0x00008026 (mps ⟨18, 2⟩ ⟨0, 0⟩)) 1 = some (2, 9) := by decide +kernel
theorem test_maffx_identity_VM13 : kAfter (run 0x00008026 ((mps ⟨5, 0⟩ ⟨0, 0⟩).setK 1 7)) 1 = some (0x602, 7) := by
  decide +kernel

theorem test_ekeygen_VE13 : prAfter (runDraw 0x00000030 N256 0 (ks 5 5)) 0 = some (2, true, 0, 0) := by decide +kernel
theorem test_ekeygen_two : prAfter (runDraw 0x00000030 N256 2 Regs.reset) 0 = some (2, false,
    0xC6047F9441ED7D6D3045406E95C07CD85C778E4B8CEF3CA7ABAC09B95C709EE5,
    0x1AE168FEA63DC339A3C58419466CEAEEF7F632653266D0E1236431A950CFE52A) := by decide +kernel

theorem test_esign_VE3 : (runDraw 0x00000031 N256 0x3A780 (hashed digest (ks keyD 0))).map
    (fun t => (t.statusWord, t.regs.sigR.toNat, t.regs.sigS.toNat)) = some (2, sigR, sigS) := by decide +kernel
theorem test_esign_VE7 : statusAfter (runDraw 0x00000031 N256 0 (hashed digest (ks keyD 0))) = some 0x602 := by decide +kernel

theorem test_everify_VE9 : statusAfter (run 0x00000032 { Regs.reset with harden := true, sigR := 1 }) = some 2 := by
  decide +kernel
theorem test_everify_VE12 : statusAfter (run 0x00000032 { (prs .identity .identity) with sigS := 1 }) = some 6 := by
  decide +kernel

/-- Precedence of the decode checks (V-X6, V-X7). -/
theorem test_illegal_words : statusAfter (run 0x34000005 Regs.reset) = some 0x102 ∧
    statusAfter (run 0x15000008 Regs.reset) = some 0x102 ∧ statusAfter (run 0x10008008 Regs.reset) = some 0x702 := by
  decide +kernel

/-! ## Witnesses: for every statement with hypotheses, concrete states and operands that meet all of them -/

theorem Sys2Proof.Tests.exists_next {o : Host.Outcome State Fault Refusal} {P : State → Prop} [DecidablePred P]
    (h : (next? o).any (fun t => decide (P t)) = true) : ∃ t, o = .next t ∧ P t := by
  cases o with
  | next t => exact ⟨t, rfl, by simpa [next?] using h⟩
  | fault r => simp [next?] at h
  | refused r => simp [next?] at h

/-- A finite point of the user curve (1, 1, 23), with K0 = 2 and K1 = 5. -/
def Sys2Proof.Tests.ucRegs : Regs := uc (((prs (.finite 3 10) (.finite 9 7)).setK 0 2).setK 1 5)

theorem witness_ReservedWordsAreRejected :
    (0x20000000 : Word).toNat / 2 ^ 29 ≠ 0 ∧ (0xFFFFFFFF : Word).toNat / 2 ^ 29 ≠ 0 ∧
    ∀ op ∈ [0x04, 0x05, 0x07, 0x08, 0x18, 0x19, 0x1F, 0x20, 0x26, 0x27, 0x2F, 0x30, 0x32, 0x33, 0x3F],
      (BitVec.ofNat 32 op).toNat / 2 ^ 29 = 0 ∧
      (decode (BitVec.ofNat 32 op) = .error .reservedOpcode ↔ op ∈ [0x05, 0x07, 0x19, 0x1F, 0x27, 0x2F, 0x33, 0x3F]) := by
  decide +kernel

theorem witness_UnusedFieldsDoNotAffectDecoding : decode 0x10008008 = .ok (.fadd 1 0 0 .up) ∧
    (0x1300FFC8 : Word) ≠ 0x10008008 ∧
    (0x1300FFC8 : Word) &&& Claims.usedMask (.fadd 1 0 0 .up) = 0x10008008 &&& Claims.usedMask (.fadd 1 0 0 .up) := by
  decide +kernel

/-- The engine's turn, with the script empty and with the turn named in it, on a command and on no command. -/
theorem witness_StepRunsTheAcceptedCommand :
    (accepted { Regs.reset with cmd := 1 }).phase = .busy { Regs.reset with cmd := 1 } .idle 0 ∧
    (accepted { Regs.reset with cmd := 1 }).inReset = false ∧ (accepted { Regs.reset with cmd := 1 }).events = [] ∧
    decode 1 = .ok (.ldc 0 .p256) ∧ decode 5 = .error .reservedOpcode ∧
    { accepted Regs.reset with events := [.engine] }.events = .engine :: [] := by decide +kernel

theorem witness_ControlRegister : State.reset.busy = false ∧
    (0xFFFFFFF7 : Word).getLsbD 3 = false ∧ (0xFFFFFFF7 : Word).getLsbD 0 = true ∧
    (0xFFFFFFF6 : Word).getLsbD 3 = false ∧ (0xFFFFFFF6 : Word).getLsbD 0 = false := by decide +kernel

/-- A command without a draw; E.KEYGEN with a draw at each end of its range; and M.RAND. -/
theorem witness_ExecPseudoInstructionRunsTheCommand :
    let s := { State.reset with events := execScript 0x04000001 true true ++ [Event.engine] }
    s.busy = false ∧ s.inReset = false ∧ s.events = execScript 0x04000001 true true ++ [Event.engine] ∧
    decode 0x04000001 = .ok (.ldc 0 .n256) ∧ Claims.draws (.ldc 0 .n256) = false ∧
    decode 0x00000030 = .ok (.ekeygen 0 0) ∧ 0 < N256 ∧ N256 - 1 < N256 ∧
    decode 0x00000025 = .ok (.mrand 0) ∧ Claims.draws (.mrand 0) = true := by decide +kernel

/-- A step that leaves the engine BUSY: a dropped write, and the request of M.RAND. -/
theorem witness_BusyStepsChangeNoRegister :
    (∃ t, step { accepted Regs.reset with events := [evWr 0x00C 7] } = .next t ∧ t.busy = true) ∧
    (accepted Regs.reset).busy = true ∧
    ∃ t, step (accepted { Regs.reset with cmd := 0x25 }) = .next t ∧ t.busy = true :=
  ⟨exists_next (by decide +kernel), by decide +kernel, exists_next (by decide +kernel)⟩

theorem witness_ErrorCommitWritesNoDestination :
    (∃ t, exec .wcons (accepted (user 0 0 23 Regs.reset)) = .next t ∧ t.busy = false ∧ t.errcode ≠ .ok) ∧
    (∃ t, exec (.finv 0 0 .n256) (accepted Regs.reset) = .next t ∧ t.busy = false ∧ t.errcode ≠ .ok) ∧
    (accepted Regs.reset).busy = true :=
  ⟨exists_next (by decide +kernel), exists_next (by decide +kernel), by decide +kernel⟩

theorem witness_OnlyBooleanCommandsSetResult :
    (∃ t, exec .nop (accepted Regs.reset) = .next t ∧ t.busy = false) ∧ Claims.writesResult .nop = false ∧
    (∃ t, exec (.everify 0) (accepted Regs.reset) = .next t ∧ t.busy = false ∧ t.errcode ≠ .ok) ∧
    ∃ t, exec (.fprime 0) (accepted (ks 2 0)) = .next t ∧ t.busy = false ∧ t.result = true :=
  ⟨exists_next (by decide +kernel), by decide, exists_next (by decide +kernel), exists_next (by decide +kernel)⟩

theorem witness_NoErrorBeyondDecode :
    Claims.noErrorBeyondDecode (.fadd 0 1 2 .up) = true ∧ (Instr.fadd 0 1 2 .up).wf = true ∧
    (Instr.fadd 0 1 2 .up).modSel? = some .up ∧ Claims.noErrorBeyondDecode (.wneg 0 1 .user) = true ∧
    (Instr.wneg 0 1 .user).wf = true ∧ (Instr.wneg 0 1 .user).curveSel? = some .user ∧
    (accepted ucRegs).inputs.ucv = true := by decide +kernel

theorem witness_ReservedModulusAndMissingCurveFail :
    (∀ ms ∈ [ModSel.rsv5, .rsv6, .rsv7], (Instr.ldc 0 ms).wf = false) ∧
    (accepted Regs.reset).inputs.ucv = false ∧ (Instr.wdec 0 .user).curveSel? = some .user ∧
    (Instr.ldc 0 .up).modSel? = some .up := by decide +kernel

/-- An accepted NOP, and the reset pin held, both meet the invariant and step. -/
theorem witness_StepKeepsTheInvariant :
    (accepted Regs.reset).Inv ∧ (∃ t, step (accepted Regs.reset) = .next t ∧ t.done = true) ∧
    State.reset.assertReset.Inv := by
  refine ⟨⟨?_, ?_, ⟨?_, ?_⟩, ?_, ?_, ?_⟩, exists_next (by decide +kernel), ⟨?_, ?_, ⟨?_, ?_⟩, ?_, ?_, ?_⟩⟩
  · intro _ _ _ h; cases h; rfl
  · intro _; rfl
  · intro _ _ _ _ h; cases h
  · intro _ _ _ _ h; cases h
  · intro _; rfl
  · intro h; cases h
  · intro h; cases h
  · intro _ _ _ h; cases h
  · intro h; cases h
  · intro _ _ _ _ h; cases h
  · intro _ _ _ _ h; cases h
  · intro _; rfl
  · intro h; cases h
  · intro _; rfl

/-- The contract holds with the script empty and with a draw at its bound minus 1; it fails for a draw at the bound and
for a host access while `rst_n` is asserted. -/
theorem witness_StepFaultsOnlyOnBrokenContract :
    State.reset.contractHolds = true ∧
    { waiting Regs.reset N256 with events := [.rng 0 (.value (N256 - 1))] }.contractHolds = true ∧
    { waiting Regs.reset N256 with events := [.rng 0 (.value N256)] }.contractHolds = false ∧
    { State.reset with inReset := true, events := [evRd 0] }.contractHolds = false := by decide +kernel

/-- UCV rises and falls by W.CONS; from 1 it falls at a write to the first or last word of UA, UB and UP, and at a reset. -/
theorem witness_UcvChangesOnlyByItsRules :
    (∃ t, step (accepted { uc Regs.reset with ucv := false, cmd := 0x10 }) = .next t ∧ false ≠ t.regs.ucv) ∧
    (∃ t, step (accepted { user 0 0 23 Regs.reset with cmd := 0x10 }) = .next t ∧ true ≠ t.regs.ucv) ∧
    ∀ e ∈ [evWr 0x780 0, evWr 0x7FC 0, evWr 0x83C 0, .rstAssert],
      (next? (step { idle ucRegs with events := [e] })).any (fun t => decide (true ≠ t.regs.ucv)) = true :=
  ⟨exists_next (by decide +kernel), exists_next (by decide +kernel), by decide +kernel⟩

theorem witness_IrqRisesOnlyAtCommitOrEnable :
    (∃ t, step { accepted Regs.reset with irqEn := true } = .next t ∧ t.irq = true) ∧
    { accepted Regs.reset with irqEn := true }.irq = false ∧
    (∃ t, step { State.reset with done := true, events := [evWr 0x004 4] } = .next t ∧ t.irq = true) ∧
    { State.reset with done := true, events := [evWr 0x004 4] }.irq = false :=
  ⟨exists_next (by decide +kernel), by decide +kernel, exists_next (by decide +kernel), by decide +kernel⟩

theorem witness_SoftResetGivesTheResetState : (0x8 : Word).getLsbD 3 = true ∧ (0x9 : Word).getLsbD 3 = true := by decide

theorem witness_HardResetHoldsTheResetState :
    { waiting ucRegs N256 with events := [.rstAssert, .engine] }.events = .rstAssert :: [Event.engine] ∧
    { State.reset with inReset := true }.inReset = true ∧ { State.reset with inReset := true }.events = [] ∧
    { State.reset with inReset := true, events := [.engine] }.events = .engine :: [] := by decide +kernel

theorem witness_PendingRequestFreezesTheEngine :
    (∃ t, step (accepted { Regs.reset with cmd := 0x25 }) = .next t ∧ t.requests = 1) ∧
    (waiting Regs.reset N256).events = [] ∧
    (waiting Regs.reset N256).phase = .busy Regs.reset (.pending 0 N256) 0 ∧ (1 : Nat) ≠ 0 ∧ N256 - 1 < N256 ∧
    { waiting Regs.reset N256 with events := [.engine] }.events = .engine :: [] ∧
    { waiting Regs.reset N256 with events := [.rng 1 .fail] }.events = .rng 1 .fail :: [] ∧
    { waiting Regs.reset N256 with events := [.rng 0 (.value (N256 - 1))] }.events = .rng 0 (.value (N256 - 1)) :: [] :=
  ⟨exists_next (by decide +kernel), by decide +kernel⟩

/-- No request yet, a failed one, and a new request after an abandoned one, number 0. -/
theorem witness_DrawingCommandsRequestAndReportFailure : (accepted Regs.reset).port = .idle ∧
    (answered Regs.reset N256 .fail).port = .answered N256 .fail ∧
    let s := { accepted Regs.reset with requests := 1 }
    (0 < s.requests ∧ Claims.Requests s N256 (s.requestDraw N256 0)) :=
  ⟨by decide +kernel, by decide +kernel, by decide, rfl, rfl, rfl, rfl, ⟨0, rfl⟩, rfl, rfl, rfl, rfl, rfl, rfl⟩

theorem witness_IllegalAccessesAndReadsChangeNothing :
    (1 ≠ 4 ∧ (0x002 : BitVec 12).toNat % 4 ≠ 0) ∧
    (AccessKind.write 0b0111 0 = .write 0b0111 0 ∧ (0b0111 : BitVec 4) ≠ 0b1111) ∧
    (0xFFC : BitVec 12).toNat % 4 = 0 ∧ (0x000 : BitVec 12).toNat % 4 = 0 := by decide

/-- The reserved ranges at both ends of each, and the offsets just outside them (20_memory.md R87). -/
theorem witness_ReservedOffset :
    (∀ off ∈ [0x01C, 0x03C, 0x084, 0x0BC, 0x840, 0xFFC], off % 4 = 0 ∧
      ((0x01C ≤ off ∧ off ≤ 0x03F) ∨ (0x084 ≤ off ∧ off ≤ 0x0BF) ∨ (0x840 ≤ off ∧ off ≤ 0xFFF))) ∧
    ∀ off ∈ [0x004, 0x00C, 0x018, 0x040, 0x080, 0x0C0, 0x0FC, 0x100, 0x83C], off % 4 = 0 ∧ off ≠ 0x000 ∧ off ≠ 0x008 ∧
      ¬ ((0x01C ≤ off ∧ off ≤ 0x03F) ∨ (0x084 ≤ off ∧ off ≤ 0x0BF) ∨ (0x840 ≤ off ∧ off ≤ 0xFFF)) := by decide +kernel

/-- A BUSY engine and a CTRL write with SRST = 0; the offsets are those of `witness_ReservedOffset`. -/
theorem witness_BusyWritesAreDroppedWithOvr :
    (accepted Regs.reset).busy = true ∧ (0x7 : Word).getLsbD 3 = false ∧
    Claims.ReservedOffset (0x01C : BitVec 12).toNat ∧ ¬ Claims.ReservedOffset (0x00C : BitVec 12).toNat :=
  ⟨by decide +kernel, by decide, .inl (by decide), by unfold Claims.ReservedOffset; decide⟩

/-- The address map at the ends of each of its ranges (20_memory.md R87). -/
theorem test_address_map :
    [0x000, 0x004, 0x008, 0x00C, 0x010, 0x014, 0x018, 0x01C, 0x03C, 0x040, 0x080, 0x084, 0x0BC, 0x0C0, 0x0FC].map target =
      [.id, .ctrl, .status, .cmd, .pinf, .elen, .dlen, .reserved, .reserved, .ebuf 0, .ebuf 16, .reserved, .reserved,
        .digest 0, .digest 15] ∧
    [0x100, 0x13C, 0x140, 0x17C, 0x4C0, 0x4FC, 0x500, 0x6FC, 0x700, 0x77C, 0x780, 0x7FC, 0x800, 0x83C, 0x840, 0xFFC].map target =
      [.big (.prX 0) 0, .big (.prX 0) 15, .big (.prY 0) 0, .big (.prY 0) 15, .big (.prY 7) 0, .big (.prY 7) 15, .big (.k 0) 0,
        .big (.k 7) 15, .big .sigR 0, .big .sigS 15, .big .ua 0, .big .ub 15, .big .up 0, .big .up 15, .reserved, .reserved] := by
  decide +kernel

/-- `EXEC LDC K0, N256`, one poll, then `RDBIG` of K0 (30_encoding.md R111; V-S2). -/
theorem test_exec_then_rdbig : (next? (State.reset.execCommand 0x04000001 false false [[.engine]])).map
    (fun t => (t.readAnswer, (t.rdBigValue 0x500).toNat)) =
    some (some 2, 0xFFFFFFFFFFFFFFFFFFFFFFFFFFFFFFFEBAAEDCE6AF48A03BBFD25E8CD0364141) := by decide +kernel

/-- `EXEC M.RAND P1` with the draws 2, 3 and 4, one poll after each turn: 2 and 3 are rejected (V-M14). -/
theorem test_exec_mrand_VM14 : prAfter (next? (State.reset.execCommand 0x00000065 false false
    [[.engine], [.rng 0 (.value 2), .engine], [.rng 1 (.value 3), .engine], [.rng 2 (.value 4), .engine]])) 1 =
    some (2, false, 4, 1) := by decide +kernel

theorem witness_BigWindowWriteReplacesOneWord : (0 : Nat) < 16 ∧ 15 < 16 ∧ State.reset.busy = false ∧
    ((BigReg.ub, 15) : BigReg × Nat) ≠ (.ua, 15) ∧ ((BigReg.ua, 14) : BigReg × Nat) ≠ (.ua, 15) := by decide +kernel

theorem witness_BigWindowsHoldBigEndianValues :
    let s := { State.reset with events := wrBig (BigReg.offset .up) 23 ++ [evRd 0x83C] }
    s.busy = false ∧ s.inReset = false ∧ s.events = wrBig (BigReg.offset .up) 23 ++ [evRd 0x83C] ∧ BigReg.ua ≠ .up ∧
    State.reset.inReset = false := by
  decide +kernel

theorem witness_ByteBuffersAreBigEndian : State.reset.busy = false ∧ (67 : Nat) < 68 ∧ ¬ (65 : Nat) < 65 ∧ (64 : Nat) < 65 ∧
    (63 : Nat) < 64 ∧ (16 : Nat) < 17 ∧ (15 : Nat) < 16 := by decide

/-- The caps at their boundaries: 65 and 66, 64 and 65, and bit 7 ignored. -/
theorem witness_SmallRegisterWrites : State.reset.busy = false ∧ ¬ 65 < (65 : Word).toNat % 128 ∧ 65 < (66 : Word).toNat % 128 ∧
    ¬ 64 < (64 : Word).toNat % 128 ∧ 64 < (65 : Word).toNat % 128 ∧ ¬ 65 < (0x80 : Word).toNat % 128 := by decide

theorem witness_ConstantLoadsAndNop : (accepted ucRegs).inputs.ucv = true := by decide +kernel

/-- The least modulus 2, and 23. -/
theorem witness_FieldAddSubMulPowResults : (accepted ucRegs).inputs.modulus .up = .ok 23 ∧
    (accepted (user 0 1 2 Regs.reset)).inputs.modulus .up = .ok 2 ∧ 2 ≤ 2 ∧
    (accepted Regs.reset).inputs.modulus .n25519 = .ok N25519 ∧ 2 ≤ N25519 := by decide +kernel

theorem witness_FieldInverseResult : (accepted (uc (ks 3 0))).inputs.modulus .up = .ok 23 ∧
    Nat.gcd (((accepted (uc (ks 3 0))).inputs.k[0]).toNat % 23) 23 = 1 ∧
    Nat.gcd (((accepted (uc (ks 23 0))).inputs.k[0]).toNat % 23) 23 ≠ 1 := by decide +kernel

theorem witness_FieldLegendreResult : (accepted (uc (ks 5 0))).inputs.modulus .up = .ok 23 ∧ Nat.Prime 23 ∧ 23 ≠ 2 ∧
    (accepted Regs.reset).inputs.modulus .p25519 = .ok P25519 ∧ Nat.Prime P25519 ∧ P25519 ≠ 2 :=
  ⟨by decide +kernel, by norm_num, by decide, by decide +kernel, prime_P25519, P25519_ne_two⟩

theorem witness_FieldSqrtResult : (accepted (uc (ks 2 0))).inputs.modulus .up = .ok 23 ∧ Nat.Prime 23 ∧ 23 % 4 = 3 ∧
    IsSquare (2 : ZMod 23) := ⟨by decide +kernel, by norm_num, by decide, ⟨18, by decide⟩⟩

theorem witness_PrimalityVerdict : ((accepted (ks 1 0)).inputs.k[0]).toNat < 2 ∧
    ((accepted (ks 2 0)).inputs.k[0]).toNat.Prime :=
  ⟨by decide +kernel, by rw [show ((accepted (ks 2 0)).inputs.k[0]).toNat = 2 by decide +kernel]; exact Nat.prime_two⟩

theorem witness_ScalarCommandsFrame :
    Claims.scalarDest? (.maffx 1 0) = some 1 ∧ (∃ t, exec (.maffx 1 0) (accepted (mps ⟨18, 2⟩ ⟨0, 0⟩)) = .next t ∧ t.done = true) ∧
    Claims.scalarDest? (.finv 1 0 .n256) = some 1 ∧ ∃ t, exec (.finv 1 0 .n256) (accepted Regs.reset) = .next t ∧ t.done = true :=
  ⟨by decide, exists_next (by decide +kernel), by decide, exists_next (by decide +kernel)⟩

theorem witness_PointCommandsFrame :
    Claims.pointDest? (.wadd 2 0 1 .user) = some 2 ∧ (∃ t, exec (.wadd 2 0 1 .user) (accepted ucRegs) = .next t ∧ t.done = true) ∧
    Claims.pointDest? (.mrand 1) = some 1 ∧ ∃ t, exec (.mrand 1) (accepted Regs.reset) = .next t ∧ t.busy = true :=
  ⟨by decide, exists_next (by decide +kernel), by decide, exists_next (by decide +kernel)⟩

theorem witness_OtherCommandsFrame :
    (∃ t, exec (.wenc 0 .compressed) (accepted (prs genG .identity)) = .next t ∧ t.regs.elen = 33) ∧
    (∃ t, exec (.esign 0) (answered (hashed 5 (ks 1 0)) N256 (.value 1)) = .next t ∧ t.done = true) ∧
    (∃ t, exec (.ekeygen 0 0) (answered Regs.reset N256 (.value 1)) = .next t ∧ t.done = true) ∧
    (∃ t, exec .wcons (accepted ucRegs) = .next t ∧ t.done = true) ∧
    Claims.writesResult (.mvalid 0) = true ∧ ∃ t, exec (.mvalid 0) (accepted Regs.reset) = .next t ∧ t.done = true :=
  ⟨exists_next (by decide +kernel), exists_next (by decide +kernel),
    exists_next (by decide +kernel), exists_next (by decide +kernel), by decide, exists_next (by decide +kernel)⟩

/-- p = 2^256, p = 1, p = 2 with discriminant 0 and 1, and a 256-bit p. -/
theorem witness_CurveConstructionVerdict :
    2 ^ 256 ≤ (accepted (user 1 1 (2 ^ 256) Regs.reset)).inputs.up.toNat ∧
    (accepted (user 1 1 1 Regs.reset)).inputs.up.toNat < 2 ∧
    (2 ≤ (accepted (user 1 0 2 Regs.reset)).inputs.up.toNat ∧ (4 * 1 ^ 3 + 27 * 0 ^ 2) % 2 = 0) ∧
    (2 ≤ (accepted (user 1 1 2 Regs.reset)).inputs.up.toNat ∧ (4 * 1 ^ 3 + 27 * 1 ^ 2) % 2 ≠ 0) ∧
    (2 ≤ (accepted (user 0 7 (2 ^ 256 - 1) Regs.reset)).inputs.up.toNat ∧
      (accepted (user 0 7 (2 ^ 256 - 1) Regs.reset)).inputs.up.toNat < 2 ^ 256 ∧
      (4 * 0 ^ 3 + 27 * 7 ^ 2) % (2 ^ 256 - 1) ≠ 0) := by decide +kernel

/-- Each operand of W.DBL: Identity, Y = 0, Y a non-zero multiple of p, and a regular Y. -/
theorem witness_PointDoubleResult :
    (accepted ucRegs).inputs.curve .user = .ok ⟨1, 1, 23⟩ ∧ 2 ≤ 23 ∧
    (accepted (uc (prs .identity .identity))).inputs.pt 0 = .identity ∧
    (accepted (uc (prs (.finite 4 0) .identity))).inputs.pt 0 = .finite 4 0 ∧
    (accepted (uc (prs (.finite 3 23) .identity))).inputs.pt 0 = .finite 3 23 ∧ ¬ Nat.Coprime (2 * 23) 23 ∧
    (accepted ucRegs).inputs.pt 0 = .finite 3 10 ∧ Nat.Coprime (2 * 10) 23 := by decide +kernel

/-- Each operand pair of W.ADD, the composite p = 15 with a difference of 3 among them. -/
theorem witness_PointAddResult :
    (accepted ucRegs).inputs.curve .user = .ok ⟨1, 1, 23⟩ ∧
    (accepted (uc (prs .identity (.finite 9 7)))).inputs.pt 0 = .identity ∧
    (accepted (uc (prs (.finite 9 7) .identity))).inputs.pt 1 = .identity ∧
    (accepted (uc (prs (.finite 9 7) (.finite 9 7)))).inputs.pt 0 = (accepted (uc (prs (.finite 9 7) (.finite 9 7)))).inputs.pt 1 ∧
    ((3, 10) ≠ (26, 10) ∧ 3 % 23 = 26 % 23 ∧ (accepted (uc (prs (.finite 3 10) (.finite 26 10)))).inputs.pt 1 = .finite 26 10) ∧
    ((accepted (user 1 1 15 (prs (.finite 1 2) (.finite 4 5)))).inputs.curve .user = .ok ⟨1, 1, 15⟩ ∧
      1 % 15 ≠ 4 % 15 ∧ Int.gcd ((4 : ℤ) - 1) 15 ≠ 1) ∧
    ((accepted ucRegs).inputs.pt 0 = .finite 3 10 ∧ (accepted ucRegs).inputs.pt 1 = .finite 9 7 ∧
      3 % 23 ≠ 9 % 23 ∧ Int.gcd ((9 : ℤ) - 3) 23 = 1) := by decide +kernel

theorem witness_PointNegateAndValidity :
    (accepted ucRegs).inputs.curve .user = .ok ⟨1, 1, 23⟩ ∧ (accepted ucRegs).inputs.pt 0 = .finite 3 10 ∧
    (accepted (uc (prs .identity .identity))).inputs.pt 0 = .identity := by decide +kernel

theorem witness_ScalarMultiplyByBits : 1 ≤ 1 ∧ (0 : Nat) < 2 ∧ 1 < 2 := by decide

/-- WMul answers a point, fails on a Y that is a multiple of p, and a regular operand over a prime field. -/
theorem witness_ScalarMultiplyCompletes :
    (accepted ucRegs).inputs.curve .user = .ok ⟨1, 1, 23⟩ ∧
    wMul ⟨1, 1, 23⟩ ((accepted ucRegs).inputs.pt 0) ((accepted ucRegs).inputs.kNat 0) = .ok (.finite 7 12) ∧
    wMul ⟨1, 1, 23⟩ (.finite 3 23) 2 = .error .notInvertible ∧ Nat.Prime 23 ∧ 23 ≠ 2 ∧
    Claims.YRegular 23 ((accepted ucRegs).inputs.pt 0) ∧ Claims.YRegular 23 (.finite 4 0) := by
  have pt0 : (accepted ucRegs).inputs.pt 0 = .finite 3 10 := by decide +kernel
  rw [pt0]
  refine ⟨by decide +kernel, by decide +kernel, by decide +kernel, by norm_num, by decide, .inr (by decide), .inl rfl⟩

theorem witness_GroupLawStaysOnTheCurve :
    let c : Curve := ⟨1, 1, 23⟩
    let P : Point := .finite 3 10
    let Q : Point := .finite 9 7
    c.p.Prime ∧ (wValid c P = true ∧ wValid c Q = true ∧ wDouble c P = .ok (.finite 7 12) ∧
      wAdd c P Q = .ok (.finite 17 20) ∧ wMul c P 29 = .ok .identity) :=
  ⟨by norm_num, by decide +kernel⟩

theorem witness_DecompressionResult : (accepted ucRegs).inputs.curve .user = .ok ⟨1, 1, 23⟩ ∧ Nat.Prime 23 ∧ 23 ≠ 2 ∧
    23 % 4 = 3 ∧ ∃ t, exec (.weval 1 0 .user) (accepted (uc (ks 4 0))) = .next t ∧ t.errcode = .ok :=
  ⟨by decide +kernel, by norm_num, by decide, by decide, exists_next (by decide +kernel)⟩

/-- The operands of W.ENC at the ends of the 32-byte range. -/
theorem witness_PointEncodingResult :
    (accepted (prs .identity .identity)).inputs.pt 0 = .identity ∧
    (accepted (prs (.finite (2 ^ 256) 0) .identity)).inputs.pt 0 = .finite (2 ^ 256) 0 ∧ 2 ^ 256 ≤ 2 ^ 256 ∧
    (accepted (prs (.finite 3 (2 ^ 256)) .identity)).inputs.pt 0 = .finite 3 (2 ^ 256) ∧ 3 < 2 ^ 256 ∧
    (accepted (prs (.finite (2 ^ 256 - 1) (2 ^ 256 - 1)) .identity)).inputs.pt 0 = .finite (2 ^ 256 - 1) (2 ^ 256 - 1) ∧
    2 ^ 256 - 1 < 2 ^ 256 := by decide +kernel

/-- EBUF and ELEN for each clause: empty, prefixes 1 and 5, wrong lengths, and both good forms. -/
theorem witness_PointDecodingResult :
    (accepted ucRegs).inputs.curve .user = .ok ⟨1, 1, 23⟩ ∧ (accepted ucRegs).inputs.elen.val = 0 ∧
    ((accepted (encoded (1 :: beBytes 32 3))).inputs.ebuf[0].toNat = 1 ∧ (accepted (encoded (1 :: beBytes 32 3))).inputs.elen.val ≠ 0) ∧
    (accepted (encoded (5 :: beBytes 32 3))).inputs.ebuf[0].toNat = 5 ∧
    ((accepted (encoded (4 :: beBytes 32 3))).inputs.ebuf[0].toNat = 4 ∧ (accepted (encoded (4 :: beBytes 32 3))).inputs.elen.val ≠ 65) ∧
    ((accepted (encoded (2 :: beBytes 64 3))).inputs.ebuf[0].toNat = 2 ∧ (accepted (encoded (2 :: beBytes 64 3))).inputs.elen.val ≠ 33) ∧
    ((accepted (encoded (4 :: beBytes 64 3))).inputs.ebuf[0].toNat = 4 ∧ (accepted (encoded (4 :: beBytes 64 3))).inputs.elen.val = 65) ∧
    ((accepted (encoded (3 :: beBytes 32 3))).inputs.ebuf[0].toNat = 3 ∧ (accepted (encoded (3 :: beBytes 32 3))).inputs.elen.val = 33) := by
  decide +kernel

theorem witness_DecodeUndoesEncode :
    wEncode .uncompressed (.finite (2 ^ 256 - 1) 0) = .ok (4 :: beBytes 32 (2 ^ 256 - 1) ++ beBytes 32 0) ∧
    wEncode .compressed (.finite 3 13) = .ok (3 :: beBytes 32 3) ∧ Nat.Prime 23 ∧ 23 % 4 = 3 ∧ 23 < 2 ^ 256 ∧ 3 < 23 ∧ 13 < 23 ∧
    Claims.OnCurve ⟨1, 1, 23⟩ 3 13 := by
  refine ⟨by decide +kernel, by decide +kernel, by norm_num, by decide, by norm_num, by decide, by decide, ?_⟩
  show ((13 : ℕ) : ZMod 23) ^ 2 = ((3 : ℕ) : ZMod 23) ^ 3 + ((1 : ℕ) : ZMod 23) * ((3 : ℕ) : ZMod 23) + ((1 : ℕ) : ZMod 23)
  decide

theorem witness_MontgomeryAddAndDouble :
    ((accepted (mps ⟨5, 0⟩ ⟨9, 1⟩)).inputs.mp 0).z = 0 ∧ ((accepted (mps ⟨5, 0⟩ ⟨9, 1⟩)).inputs.mp 1).z ≠ 0 ∧
    (accepted (mps ⟨9, 1⟩ ⟨9, 1⟩)).inputs.mp 0 = (accepted (mps ⟨9, 1⟩ ⟨9, 1⟩)).inputs.mp 1 ∧
    (accepted (mps ⟨9, 1⟩ ⟨18, 2⟩)).inputs.mp 0 ≠ (accepted (mps ⟨9, 1⟩ ⟨18, 2⟩)).inputs.mp 1 := by decide +kernel

theorem witness_AffineRecovery : ((accepted (mps ⟨5, 0⟩ ⟨0, 0⟩)).inputs.mp 0).z % P25519 = 0 ∧
    ((accepted (mps ⟨5, P25519⟩ ⟨0, 0⟩)).inputs.mp 0).z % P25519 = 0 ∧
    ((accepted (mps ⟨18, 2⟩ ⟨0, 0⟩)).inputs.mp 0).z % P25519 ≠ 0 := by decide +kernel

/-- The base point's right-hand side is a square and that of x = 2 is not (V-M11). -/
theorem witness_MontgomeryValidityVerdicts :
    ((accepted (mps ⟨9, 1⟩ ⟨0, 0⟩)).inputs.mp 0).z % P25519 ≠ 0 ∧ (accepted (mps ⟨9, 1⟩ ⟨0, 0⟩)).inputs.mp 0 = ⟨9, 1⟩ ∧
    IsSquare (Claims.montRhs ((9 : ℕ) : ZMod P25519)) ∧ ¬ IsSquare (Claims.montRhs ((2 : ℕ) : ZMod P25519)) ∧
    ((accepted Regs.reset).inputs.mp 0).z % P25519 = 0 := by
  refine ⟨by decide +kernel, by decide +kernel, ?_, ?_, by decide +kernel⟩
  · rw [Claims.montRhs, ← mCurve_cast, ← mOnCurve_iff 9 0]; decide +kernel
  · rw [Claims.montRhs, ← mCurve_cast, ← mOnCurve_iff 2 0]; decide +kernel

theorem witness_RandomPointAcceptsResidues :
    Claims.Drew (answered Regs.reset N25519 (.value 4)) N25519 4 ∧ 4 < N25519 ∧ N25519 - 1 < N25519 ∧
    IsSquare (Claims.montRhs ((4 : ℕ) : ZMod P25519)) ∧ ¬ IsSquare (Claims.montRhs ((3 : ℕ) : ZMod P25519)) := by
  refine ⟨rfl, by decide +kernel, by decide +kernel, ?_, ?_⟩
  · rw [Claims.montRhs, ← mCurve_cast, ← mOnCurve_iff 4 0]; decide +kernel
  · rw [Claims.montRhs, ← mCurve_cast, ← mOnCurve_iff 3 0]; decide +kernel

theorem witness_KeyGenerationResult : Claims.Drew (answered Regs.reset N256 (.value 0)) N256 0 ∧ 0 < N256 ∧
    Claims.Drew (answered Regs.reset N256 (.value (N256 - 1))) N256 (N256 - 1) ∧ N256 - 1 < N256 :=
  ⟨rfl, by decide +kernel, rfl, by decide +kernel⟩

/-- The digest value that makes s = 0 for d = 1 and k = 1: e = N256 - (GX256 mod N256). -/
def Sys2Proof.Tests.zeroSigE : Nat := N256 - GX256 % N256

/-- k = 0, and k = 1 with d = 1, in both modes; hardened k = 1 gives s = 0 for one digest and s ≠ 0 for another. -/
theorem witness_SignResult :
    Claims.Drew (answered (hashed 5 (ks 1 0)) N256 (.value 0)) N256 0 ∧ (0 : Nat) < N256 ∧
    Claims.Drew (answered (hashed 5 (ks 1 0)) N256 (.value 1)) N256 1 ∧ 1 < N256 ∧
    (answered (hashed 5 (ks 1 0)) N256 (.value 1)).inputs.harden = false ∧
    (answered { hashed 5 (ks 1 0) with harden := true } N256 (.value 1)).inputs.harden = true ∧
    wMul secp256k1 genG 0 = .ok .identity ∧ xcoord .identity % N256 = 0 ∧
    wMul secp256k1 genG 1 = .ok genG ∧ xcoord genG % N256 ≠ 0 ∧
    (answered (hashed zeroSigE (ks 1 0)) N256 (.value 1)).inputs.hashToInt = zeroSigE ∧
    (zeroSigE + 1 * (xcoord genG % N256)) % N256 = 0 ∧ (5 + 1 * (xcoord genG % N256)) % N256 ≠ 0 := by
  simp only [Claims.Drew]
  decide +kernel

theorem witness_HardenedSignaturesAreInRange :
    (∃ t, exec (.esign 0) (answered { hashed 5 (ks 1 0) with harden := true } N256 (.value 1)) = .next t ∧
      t.busy = false ∧ t.errcode = .ok) ∧
    (answered { hashed 5 (ks 1 0) with harden := true } N256 (.value 1)).inputs.harden = true ∧
    (answered { hashed 5 (ks 1 0) with harden := true } N256 (.value 1)).busy = true :=
  ⟨exists_next (by decide +kernel), by decide +kernel, by decide +kernel⟩

/-- r and s at the ends of `[1, n-1]` and just outside, and a reference s ≡ 0. -/
theorem witness_VerifyResult :
    let at_ (h : Bool) (r s : Nat) := accepted { (prs genG .identity).setSig r s with harden := h }
    (at_ true 0 1).inputs.harden = true ∧ (at_ true 0 1).inputs.sigR.toNat = 0 ∧
    (at_ true 1 N256).inputs.sigS.toNat = N256 ∧ ¬ N256 ≤ N256 - 1 ∧
    (at_ false 1 N256).inputs.harden = false ∧ N256 % N256 = 0 ∧
    ((at_ true 1 (N256 - 1)).inputs.sigR.toNat = 1 ∧ (at_ true 1 (N256 - 1)).inputs.sigS.toNat = N256 - 1 ∧
      (N256 - 1) % N256 ≠ 0) ∧ (at_ false 0 1).inputs.pt 0 = genG := by decide +kernel

/-- A regular public key, and one whose Y is P256: with r = 2 and s = 1, u2 is 2, and WMul fails on it. -/
theorem witness_VerifyResult_public_keys :
    (genG = .finite GX256 GY256 ∧ (GY256 = 0 ∨ GY256 % P256 ≠ 0)) ∧ ¬ (P256 = 0 ∨ P256 % P256 ≠ 0) ∧
    1 * 2 % N256 = 2 % N256 ∧ wMul secp256k1 (.finite GX256 P256) 2 = .error .notInvertible ∧
    wMul secp256k1 (.finite GX256 P256) 1 = .ok (.finite GX256 P256) := by decide +kernel

theorem witness_ZeroDigestGap :
    let s := accepted { (prs pubQ .identity).setSig N256 1 with harden := true }
    s.inputs.hashToInt = 0 ∧ s.inputs.sigR.toNat = N256 ∧ s.inputs.sigS.toNat = 1 ∧ s.inputs.harden = true ∧
    (accepted ((prs pubQ .identity).setSig 0 1)).inputs.sigR.toNat = 0 ∧
    (accepted ((prs pubQ .identity).setSig 0 1)).inputs.harden = false := by decide +kernel

end
end

section
/-! SUPPORT. One inversion lemma for a step: the one move it makes, and the state it makes it on. -/

namespace Sys2Proof.Machine

/-- The move of one step (60_exceptions.md R335, R356), on the state whose script is what is left of it. -/
inductive Moved (s : State) : State → Prop where
  | engine {t : State} (es : List Event) : engineTurn { s with events := es } = .next t → Moved s t
  | host (a : HostAccess) (es : List Event) : s.events = .host a :: es → s.inReset = false →
      Moved s (State.access { s with events := es } a)
  | rng {t : State} (id : Nat) (a : RngAnswer) (es : List Event) : State.deliver { s with events := es } id a = .next t →
      Moved s t
  | rstAssert (es : List Event) : Moved s (State.assertReset { s with events := es })
  | rstRelease (es : List Event) : Moved s (State.releaseReset { s with events := es })

/-- A host access that is no fault finds the reset pin released (70_reset_and_hazards.md R370). -/
theorem applyEvent_host {s t : State} {a : HostAccess} (h : applyEvent (.host a) s = .next t) :
    s.inReset = false ∧ t = s.access a := by
  cases hr : s.inReset with
  | true => simp [applyEvent, hr] at h
  | false => exact ⟨rfl, by simpa [applyEvent, hr] using h.symm⟩

theorem step_moved {s t : State} (h : step s = .next t) : Moved s t := by
  cases he : s.events with
  | nil => rw [step_nil he] at h; exact .engine s.events h
  | cons e es =>
    rw [step_cons he] at h
    cases e with
    | engine => exact .engine es h
    | host a =>
      obtain ⟨hr, rfl⟩ := applyEvent_host h
      exact .host a es he hr
    | rng id a => exact .rng id a es h
    | rstAssert => cases h; exact .rstAssert es
    | rstRelease => cases h; exact .rstRelease es

end Sys2Proof.Machine
end

section
/-! SUPPORT. Every step keeps the invariant of Safety.lean: one lemma per kind of move. -/

namespace Sys2Proof.Machine

/-! ## States on which the invariant reads the same fields -/

/-- The invariant does not read the script. -/
theorem State.Inv.setEvents {s : State} (h : s.Inv) (es : List Event) : { s with events := es }.Inv where
  snapshotHeld := h.snapshotHeld
  busyNotDone := h.busyNotDone
  drawLawful := h.drawLawful
  errorClearsResult := h.errorClearsResult
  curveValidated := h.curveValidated
  resetHeld hr := congrArg (fun u : State => { u with events := es }) (h.resetHeld hr)

/-- The invariant does not read the bus response. -/
theorem State.Inv.setBus {s : State} (h : s.Inv) (b : BusResponse) : { s with bus := b }.Inv where
  snapshotHeld := h.snapshotHeld
  busyNotDone := h.busyNotDone
  drawLawful := h.drawLawful
  errorClearsResult := h.errorClearsResult
  curveValidated := h.curveValidated
  resetHeld hr := congrArg (fun u : State => { u with bus := b }) (h.resetHeld hr)

/-- In IDLE the clauses on the snapshot, on DONE and on the random source say nothing. -/
theorem State.Inv.of_idle {t : State} (hp : t.phase = .idle) (he : t.ErrorClearsResult) (hc : t.regs.CurveValidated)
    (hr : t.ResetHeld) : t.Inv where
  snapshotHeld _ _ _ h := by rw [hp] at h; cases h
  busyNotDone h := by rw [State.busy_eq_false_iff.2 hp] at h; cases h
  drawLawful := by
    constructor
    · intro _ _ _ _ h; rw [hp] at h; cases h
    · intro _ _ _ _ h; rw [hp] at h; cases h
  errorClearsResult := he
  curveValidated := hc
  resetHeld := hr

/-- A released reset pin asks nothing of the registers. -/
theorem State.ResetHeld.of_released {t : State} (hr : t.inReset = false) : t.ResetHeld := fun h => by
  rw [hr] at h; cases h

/-- What a command reads is what the registers hold (10_state.md R48). -/
theorem State.SnapshotHeld.inputs_eq {s : State} (h : s.SnapshotHeld) : s.inputs = s.regs := by
  cases hp : s.phase with
  | idle => exact s.inputs_idle hp
  | busy snap rng n => rw [State.inputs_busy hp]; exact h snap rng n hp

theorem Regs.CurveValidated.reset : Regs.reset.CurveValidated := nofun

/-- A validated curve stays validated while UCV and the user curve are kept. -/
theorem Regs.CurveValidated.of_kept {r r0 : Regs} (h : r0.CurveValidated) (hk : r.Kept r0) : r.CurveValidated := by
  intro hu
  rw [hk.ua, hk.ub, hk.up]
  exact h (hk.ucv ▸ hu)

/-! ## The random source and the reset pin -/

theorem State.Inv.deliver {s t : State} {id : Nat} {a : RngAnswer} (h : s.Inv) (hd : s.deliver id a = .next t) : t.Inv := by
  rcases State.deliver_cases hd with rfl | ⟨snap, bound, n, hp, hv, rfl⟩
  · exact h
  · have hb : s.busy = true := State.busy_iff.2 ⟨snap, _, n, hp⟩
    exact
      { snapshotHeld := fun _ _ _ hq => by cases hq; exact h.snapshotHeld _ _ _ hp
        busyNotDone := fun _ => h.busyNotDone hb
        drawLawful := ⟨fun _ _ v _ hq => by cases hq; exact hv v rfl, fun _ _ _ _ hq => by cases hq⟩
        errorClearsResult := h.errorClearsResult
        curveValidated := h.curveValidated
        resetHeld := fun hr => by
          have hi := congrArg State.phase (h.resetHeld hr)
          rw [hp] at hi; cases hi }

theorem State.Inv.assertReset (s : State) : s.assertReset.Inv :=
  .of_idle rfl (fun _ => rfl) .reset fun _ => rfl

theorem State.Inv.releaseReset {s : State} (h : s.Inv) : s.releaseReset.Inv where
  snapshotHeld := h.snapshotHeld
  busyNotDone := h.busyNotDone
  drawLawful := h.drawLawful
  errorClearsResult := h.errorClearsResult
  curveValidated := h.curveValidated
  resetHeld := .of_released rfl

/-! ## The host -/

/-- A host access keeps the invariant: while BUSY it reaches no register, and UCV stands after a write only beside the
user curve it stood beside before (10_state.md R41, R48). -/
theorem State.Inv.access {s : State} (h : s.Inv) (hr : s.inReset = false) (a : HostAccess) : (s.access a).Inv := by
  obtain ⟨t, b, hw, ht⟩ := s.access_cases a
  rw [ht]
  refine State.Inv.setBus ?_ b
  cases hw with
  | same => exact h
  | ovr _ => exact ⟨h.snapshotHeld, h.busyNotDone, h.drawLawful, h.errorClearsResult, h.curveValidated, .of_released hr⟩
  | status v =>
    refine ⟨h.snapshotHeld, fun hb => ?_, h.drawLawful, h.errorClearsResult, h.curveValidated, .of_released hr⟩
    rw [State.writeStatus_done, h.busyNotDone hb, Bool.false_and]
  | reset => exact .of_idle rfl (fun _ => rfl) .reset (.of_released hr)
  | accept hd q hb =>
    exact
      { snapshotHeld := fun _ _ _ hq => by cases hq; rfl
        busyNotDone := fun _ => rfl
        drawLawful := ⟨fun _ _ _ _ hq => (by cases hq), fun _ _ _ _ hq => (by cases hq)⟩
        errorClearsResult := h.errorClearsResult
        curveValidated := h.curveValidated
        resetHeld := .of_released hr }
  | ctrl hd q hb => exact .of_idle (State.busy_eq_false_iff.1 hb) h.errorClearsResult h.curveValidated (.of_released hr)
  | operand tg v hb =>
    refine .of_idle (State.busy_eq_false_iff.1 hb) h.errorClearsResult (fun hu => ?_) (.of_released hr)
    obtain ⟨hu0, ha, hb, hp⟩ := s.regs.writeOperand_ucv tg v hu
    rw [ha, hb, hp]
    exact h.curveValidated hu0

/-! ## The engine -/

theorem State.Inv.commitError {s : State} (h : s.Inv) (hr : s.inReset = false) (e : ErrCode) : (s.commitError e).Inv :=
  .of_idle rfl (fun _ => rfl) h.curveValidated (.of_released hr)

/-- A success commit keeps the invariant when the curve it leaves is validated: ERRCODE is 0. -/
theorem State.Inv.commitOk {s : State} (hr : s.inReset = false) {r : Regs} (hc : r.CurveValidated) (b : Bool) :
    (s.commitOk r b).Inv :=
  .of_idle rfl (fun he => absurd rfl he) hc (.of_released hr)

/-- A new request has the number that was next (assumption log 4). -/
theorem State.Inv.requestDraw {s : State} (h : s.Inv) (hr : s.inReset = false) (hb : s.busy = true) (bound n : Nat) :
    (s.requestDraw bound n).Inv where
  snapshotHeld _ _ _ hq := by cases hq; exact h.snapshotHeld.inputs_eq
  busyNotDone _ := h.busyNotDone hb
  drawLawful := ⟨fun _ _ _ _ hq => (by cases hq), fun _ _ _ _ hq => (by cases hq; exact Nat.lt_succ_self _)⟩
  errorClearsResult := h.errorClearsResult
  curveValidated := h.curveValidated
  resetHeld := .of_released hr

/-- W.CONS sets UCV only when its checks passed on the registers themselves (41_weierstrass.md R170). -/
theorem State.Inv.execWCons {s t : State} (h : s.Inv) (hr : s.inReset = false) (hx : execWCons s = .next t) : t.Inv := by
  rcases execWCons_cases hx with ⟨hc, rfl⟩ | ⟨e, -, rfl⟩
  · rw [h.snapshotHeld.inputs_eq] at hc
    obtain ⟨hlt, hprime, hdisc⟩ := wConstruct_ok hc
    exact .commitOk hr (r := s.regs.setUcv true) (fun _ => ⟨two_le_of_fPrime hprime, hlt, hdisc⟩) false
  · exact .of_idle rfl (fun _ => rfl) nofun (.of_released hr)

theorem State.Inv.exec {i : Instr} {s t : State} (h : s.Inv) (hr : s.inReset = false) (hb : s.busy = true)
    (hx : exec i s = .next t) : t.Inv := by
  by_cases hi : i = .wcons
  · subst hi; exact h.execWCons hr hx
  · cases exec_turn hi hx with
    | commit r b hk => exact .commitOk hr (h.curveValidated.of_kept hk) b
    | error e => exact h.commitError hr e
    | request bound n => exact h.requestDraw hr hb bound n
    | wait id bound _ => exact h

theorem State.Inv.engineTurn {s t : State} (h : s.Inv) (ht : engineTurn s = .next t) : t.Inv := by
  rcases engineTurn_cases ht with rfl | ⟨snap, rng, n, hr, hp, -, ⟨i, -, hx⟩ | ⟨e, -, rfl⟩⟩
  · exact h
  · exact h.exec hr (State.busy_iff.2 ⟨snap, rng, n, hp⟩) hx
  · exact h.commitError hr _

/-! ## The step -/

/-- Settles O13: a step is one of the moves above, on a state whose script alone has changed. -/
theorem stepKeepsTheInvariant : Obligations.StepKeepsTheInvariant := by
  intro s t h ht
  cases step_moved ht with
  | engine es hx => exact (h.setEvents es).engineTurn hx
  | host a es _ hr => exact (h.setEvents es).access hr a
  | rng id a es hd => exact (h.setEvents es).deliver hd
  | rstAssert es => exact .assertReset _
  | rstRelease es => exact (h.setEvents es).releaseReset

end Sys2Proof.Machine
end

section
/-! SUPPORT. What one command can do to the registers, said once for all 32: its destinations, the frame outside them and
the boolean outcome. -/

namespace Sys2Proof.Machine

/-! ## Destinations -/

/-- The registers a command may write (30_encoding.md R104, "effect"). -/
structure Dest where
  k : Option KIdx := none
  pr : Option PIdx := none
  sig : Bool := false
  encoding : Bool := false
  ucv : Bool := false

/-- The destinations of a command. -/
def destOf : Instr → Dest
  | .wcons => { ucv := true }
  | .wenc _ _ => { encoding := true }
  | .esign _ => { sig := true }
  | .ekeygen pd kd => { k := some kd, pr := some pd }
  | i => { k := Claims.scalarDest? i, pr := Claims.pointDest? i }

theorem destOf_of_scalarDest {i : Instr} {kd : KIdx} (h : Claims.scalarDest? i = some kd) : destOf i = { k := some kd } := by
  cases i <;> cases h <;> rfl

theorem destOf_of_pointDest {i : Instr} {pd : PIdx} (h : Claims.pointDest? i = some pd) : destOf i = { pr := some pd } := by
  cases i <;> cases h <;> rfl

theorem destOf_of_writesResult {i : Instr} (h : Claims.writesResult i = true) : destOf i = {} := by
  cases i <;> cases h <;> rfl

/-! ## The frame of a destination -/

/-- `r` and `r'` agree outside the destination `d`. -/
structure Regs.Frame (d : Dest) (r r' : Regs) : Prop where
  cmd : r'.cmd = r.cmd
  harden : r'.harden = r.harden
  ua : r'.ua = r.ua
  ub : r'.ub = r.ub
  up : r'.up = r.up
  digest : r'.digest = r.digest
  dlen : r'.dlen = r.dlen
  ucv : d.ucv = false → r'.ucv = r.ucv
  k : ∀ j, d.k ≠ some j → r'.k[j] = r.k[j]
  pr : ∀ j, d.pr ≠ some j → r'.pr[j] = r.pr[j]
  sigR : d.sig = false → r'.sigR = r.sigR
  sigS : d.sig = false → r'.sigS = r.sigS
  ebuf : d.encoding = false → r'.ebuf = r.ebuf
  elen : d.encoding = false → r'.elen = r.elen

/-- A write to one of eight registers leaves another alone. -/
theorem vector_set_ne {α : Type} (v : Vector α 8) {i j : Fin 8} (x : α) (h : j ≠ i) : (v.set i x)[j] = v[j] :=
  Vector.getElem_set_ne i.isLt j.isLt fun he => h (Fin.ext he).symm

namespace Regs.Frame

variable {d : Dest} {r r' : Regs}

theorem refl (d : Dest) (r : Regs) : r.Frame d r where
  cmd := rfl
  harden := rfl
  ua := rfl
  ub := rfl
  up := rfl
  digest := rfl
  dlen := rfl
  ucv _ := rfl
  k _ _ := rfl
  pr _ _ := rfl
  sigR _ := rfl
  sigS _ := rfl
  ebuf _ := rfl
  elen _ := rfl

theorem setUcv (hd : d.ucv = true) (h : r.Frame d r') (b : Bool) : r.Frame d (r'.setUcv b) :=
  { h with ucv := fun hf => absurd (hd.symm.trans hf) (by decide) }

theorem setK {kd : KIdx} (hd : d.k = some kd) (h : r.Frame d r') (v : Nat) : r.Frame d (r'.setK kd v) :=
  { h with
    k := fun j hj => by
      rw [← h.k j hj]
      exact vector_set_ne _ _ fun he => hj (he ▸ hd) }

theorem setPr {pd : PIdx} (hd : d.pr = some pd) (h : r.Frame d r') (p : PointReg) :
    r.Frame d { r' with pr := r'.pr.set pd p } :=
  { h with
    pr := fun j hj => by
      rw [← h.pr j hj]
      exact vector_set_ne _ _ fun he => hj (he ▸ hd) }

theorem setSig (hd : d.sig = true) (h : r.Frame d r') (a b : Nat) : r.Frame d (r'.setSig a b) :=
  { h with
    sigR := fun hf => absurd (hd.symm.trans hf) (by decide)
    sigS := fun hf => absurd (hd.symm.trans hf) (by decide) }

theorem setEncoding (hd : d.encoding = true) (h : r.Frame d r') (bs : List Byte) : r.Frame d (r'.setEncoding bs) :=
  { h with
    ebuf := fun hf => absurd (hd.symm.trans hf) (by decide)
    elen := fun hf => absurd (hd.symm.trans hf) (by decide) }

theorem k_eq (h : r.Frame d r') (hd : d.k = none) : r'.k = r.k :=
  Vector.ext fun j hj => h.k ⟨j, hj⟩ (by simp [hd])

theorem pr_eq (h : r.Frame d r') (hd : d.pr = none) : r'.pr = r.pr :=
  Vector.ext fun j hj => h.pr ⟨j, hj⟩ (by simp [hd])

/-- With every destination put back, the registers are the old ones. The lemmas after it put back only the destinations
that one kind of command has. -/
theorem restore (h : r.Frame d r') :
    { r' with
      k := r.k, pr := r.pr, sigR := r.sigR, sigS := r.sigS, ebuf := r.ebuf, elen := r.elen, ucv := r.ucv } = r := by
  rw [h.cmd, h.harden, h.ua, h.ub, h.up, h.digest, h.dlen]

theorem restore_k {kd : Option KIdx} (h : r.Frame { k := kd } r') : { r' with k := r.k } = r := by
  rw [h.pr_eq rfl, h.sigR rfl, h.sigS rfl, h.ebuf rfl, h.elen rfl, h.ucv rfl]
  exact h.restore

theorem restore_pr {pd : Option PIdx} (h : r.Frame { pr := pd } r') : { r' with pr := r.pr } = r := by
  rw [h.k_eq rfl, h.sigR rfl, h.sigS rfl, h.ebuf rfl, h.elen rfl, h.ucv rfl]
  exact h.restore

theorem restore_k_pr {kd : Option KIdx} {pd : Option PIdx} (h : r.Frame { k := kd, pr := pd } r') :
    { r' with k := r.k, pr := r.pr } = r := by
  rw [h.sigR rfl, h.sigS rfl, h.ebuf rfl, h.elen rfl, h.ucv rfl]
  exact h.restore

theorem restore_sig (h : r.Frame { sig := true } r') : { r' with sigR := r.sigR, sigS := r.sigS } = r := by
  rw [h.k_eq rfl, h.pr_eq rfl, h.ebuf rfl, h.elen rfl, h.ucv rfl]
  exact h.restore

theorem restore_encoding (h : r.Frame { encoding := true } r') : { r' with ebuf := r.ebuf, elen := r.elen } = r := by
  rw [h.k_eq rfl, h.pr_eq rfl, h.sigR rfl, h.sigS rfl, h.ucv rfl]
  exact h.restore

theorem restore_ucv (h : r.Frame { ucv := true } r') : { r' with ucv := r.ucv } = r := by
  rw [h.k_eq rfl, h.pr_eq rfl, h.sigR rfl, h.sigS rfl, h.ebuf rfl, h.elen rfl]
  exact h.restore

/-- A command without a destination leaves all registers. -/
theorem eq_of_none (h : r.Frame {} r') : r' = r := by
  rw [← h.restore, ← h.k_eq rfl, ← h.pr_eq rfl, ← h.sigR rfl, ← h.sigS rfl, ← h.ebuf rfl, ← h.elen rfl, ← h.ucv rfl]

end Regs.Frame

/-! ## The frame seen through the window -/

/-- The words of the window that a destination reaches, STATUS apart (20_memory.md R87). -/
def Dest.Reaches (d : Dest) (tg : Target) : Prop :=
  (∃ i, d.k = some i ∧ ∃ w, tg = .big (.k i) w) ∨
  (∃ i, d.pr = some i ∧ (tg = .pinf ∨ ∃ w, tg = .big (.prX i) w ∨ tg = .big (.prY i) w)) ∨
  (d.sig = true ∧ ∃ w, tg = .big .sigR w ∨ tg = .big .sigS w) ∨
  (d.encoding = true ∧ (tg = .elen ∨ ∃ w, tg = .ebuf w))

/-- A word of the window that is not STATUS and that the destination does not reach reads as before. -/
theorem Regs.Frame.readWord {d : Dest} {s t : State} {tg : Target} (h : s.regs.Frame d t.regs) (hq : t.irqEn = s.irqEn)
    (hs : tg ≠ .status) (hd : ¬ d.Reaches tg) : t.readWord tg = s.readWord tg := by
  simp only [Dest.Reaches, not_or, not_exists, not_and] at hd
  obtain ⟨hk, hpr, hsig, henc⟩ := hd
  cases tg with
  | status => exact absurd rfl hs
  | id | reserved => rfl
  | ctrl => simp only [State.readWord, State.ctrlWord, hq, h.harden]
  | cmd => exact h.cmd
  | pinf =>
    have hnone : d.pr = none := Option.eq_none_iff_forall_ne_some.2 fun i he => (hpr i he).1 rfl
    exact congrArg (fun pr => { s.regs with pr }.pinfWord) (h.pr_eq hnone)
  | elen => simp only [State.readWord, h.elen (by simpa using henc)]
  | dlen => simp only [State.readWord, h.dlen]
  | ebuf w => simp only [State.readWord, h.ebuf (by simpa using henc)]
  | digest w => simp only [State.readWord, h.digest]
  | big b w =>
    refine congrArg (bigWord · w) ?_
    cases b with
    | prX i => exact congrArg PointReg.x (h.pr i fun he => ((hpr i he).2 w).1 rfl)
    | prY i => exact congrArg PointReg.y (h.pr i fun he => ((hpr i he).2 w).2 rfl)
    | k i => exact h.k i fun he => hk i he w rfl
    | sigR => exact h.sigR (by simpa using hsig)
    | sigS => exact h.sigS (by simpa using hsig)
    | ua => exact h.ua
    | ub => exact h.ub
    | up => exact h.up

/-! ## One turn of a command -/

/-- What one turn of `i` can do: a success commit writes inside the destination of `i` and sets RESULT only for a
boolean outcome, an error commit writes nothing, or UCV alone for W.CONS, and a drawing command requests or waits. -/
inductive Ends (i : Instr) (s : State) : State → Prop where
  | commit (r : Regs) (b : Bool) : s.regs.Frame (destOf i) r → (b = true → Claims.writesResult i = true) →
      Ends i s (s.commitOk r b)
  | error (e : ErrCode) : Ends i s (s.commitError e)
  | consError (e : ErrCode) : i = .wcons → Ends i s ({ s with regs := s.regs.setUcv false }.commitError e)
  | request (bound n : Nat) : Ends i s (s.requestDraw bound n)
  | wait (id bound : Nat) : s.port = .pending id bound → Ends i s s

variable {i : Instr} {s t : State}

theorem Ends.of_finish {body : Except ErrCode (Regs × Bool)} (h : s.finish body = .next t)
    (hk : ∀ r b, body = .ok (r, b) → s.regs.Frame (destOf i) r ∧ (b = true → Claims.writesResult i = true)) : Ends i s t := by
  rcases State.finish_cases h with ⟨r, b, hb, rfl⟩ | ⟨e, -, rfl⟩
  · obtain ⟨hf, hr⟩ := hk r b hb
    exact .commit r b hf hr
  · exact .error e

/-- A command without an error and without a draw. -/
theorem Ends.of_commitOk {r : Regs} {b : Bool} (h : s.finish (.ok (r, b)) = .next t)
    (hf : s.regs.Frame (destOf i) r) (hb : b = true → Claims.writesResult i = true) : Ends i s t := by
  rw [State.finish_ok] at h
  cases h
  exact .commit r b hf hb

/-- A command that computes a value `a` and commits the registers `g a` with RESULT `c a`. -/
theorem Ends.of_bind {α : Type} {x : Except ErrCode α} {g : α → Regs} {c : α → Bool}
    (h : s.finish (x >>= fun a => .ok (g a, c a)) = .next t)
    (hf : ∀ a, s.regs.Frame (destOf i) (g a)) (hc : ∀ a, c a = true → Claims.writesResult i = true) : Ends i s t := by
  refine .of_finish h fun r b hb => ?_
  obtain ⟨a, -, h1⟩ := except_bind_eq_ok hb
  cases h1
  exact ⟨hf a, hc a⟩

/-- A command that computes a value for a second one, `c`, and commits the registers `g c` with RESULT 0. -/
theorem Ends.of_bind_bind {α β : Type} {x : Except ErrCode α} {y : α → Except ErrCode β} {g : β → Regs}
    (h : s.finish (x >>= fun a => y a >>= fun c => .ok (g c, false)) = .next t)
    (hf : ∀ c, s.regs.Frame (destOf i) (g c)) : Ends i s t := by
  refine .of_finish h fun r b hb => ?_
  obtain ⟨a, -, h1⟩ := except_bind_eq_ok hb
  obtain ⟨c, -, h2⟩ := except_bind_eq_ok h1
  cases h2
  exact ⟨hf c, nofun⟩

theorem Ends.of_drawTurn {bound : Nat} {body : Nat → Except ErrCode Attempt} (h : s.drawTurn bound body = .next t)
    (hk : ∀ v r, body v = .ok (.done r) → s.regs.Frame (destOf i) r) : Ends i s t := by
  rcases State.drawTurn_cases h with ⟨-, rfl⟩ | ⟨id, b, hp, rfl⟩ | ⟨b, -, rfl⟩ | ⟨b, v, -, ⟨r, hr, rfl⟩ | ⟨-, rfl⟩ | ⟨e, -, rfl⟩⟩
  · exact .request _ _
  · exact .wait id b hp
  · exact .error _
  · exact .commit r false (hk v r hr) nofun
  · exact .request _ _
  · exact .error e

/-- Every command ends its turn in one of the ways of `Ends`: the split is along the shapes the commands share. -/
theorem exec_ends (h : exec i s = .next t) : Ends i s t := by
  cases i with
  | nop => exact .of_commitOk h (.refl _ _) nofun
  | h2i kd => exact .of_commitOk h (.setK rfl (.refl _ _) _) nofun
  | fprime ka => exact .of_commitOk h (.refl _ _) fun _ => rfl
  | wldg pd | mldg pd | madd pd pa pb | mdbl pd pa | mmul pd pa ka =>
    exact .of_commitOk h (.setPr rfl (.refl _ _) _) nofun
  | fadd kd ka kb ms | fsub kd ka kb ms | fmul kd ka kb ms | fpow kd ka kb ms | finv kd ka ms
  | fleg kd ka ms | fsqrt kd ka ms | weval kd ka cs =>
    exact .of_bind_bind h fun _ => .setK rfl (.refl _ _) _
  | wadd pd pa pb cs | wdbl pd pa cs | wneg pd pa cs | wmul pd pa ka cs | wdec pd cs =>
    exact .of_bind_bind h fun _ => .setPr rfl (.refl _ _) _
  | ldc kd ms | maffx kd pa =>
    exact .of_bind h (fun _ => .setK rfl (.refl _ _) _) fun _ => nofun
  | wvalid pa cs | mvalid pa | meval pa | everify pa => exact .of_bind h (fun _ => .refl _ _) fun _ _ => rfl
  | wenc pa form =>
    exact .of_bind h (fun _ => .setEncoding rfl (.refl _ _) _) fun _ => nofun
  | mrand pd =>
    refine .of_drawTurn h fun v r hr => ?_
    split at hr
    · cases hr; exact .setPr rfl (.refl _ _) _
    · cases hr
  | ekeygen pd kd =>
    refine .of_drawTurn h fun v r hr => ?_
    obtain ⟨q, -, h1⟩ := except_bind_eq_ok hr
    cases h1
    exact .setPr rfl (.setK rfl (.refl _ _) v) q.toReg
  | esign ka =>
    refine .of_drawTurn h fun v r hr => ?_
    obtain ⟨sig, -, h1⟩ := except_bind_eq_ok hr
    rcases sig with _ | ⟨a, b⟩
    · cases h1
    · cases h1; exact .setSig rfl (.refl _ _) a b
  | wcons =>
    rcases execWCons_cases h with ⟨-, rfl⟩ | ⟨e, -, rfl⟩
    · exact .commit _ _ (.setUcv rfl (.refl _ _) true) nofun
    · exact .consError e rfl

/-- The frame of a command's turn, on success, on error and while it waits. -/
theorem exec_frame (h : exec i s = .next t) : s.regs.Frame (destOf i) t.regs ∧ Claims.SameAround s t := by
  cases exec_ends h with
  | commit r b hf _ => exact ⟨hf, rfl, rfl, rfl, rfl, rfl⟩
  | error e => exact ⟨.refl _ _, rfl, rfl, rfl, rfl, rfl⟩
  | consError e hi => subst hi; exact ⟨.setUcv rfl (.refl _ _) false, rfl, rfl, rfl, rfl, rfl⟩
  | request bound n => exact ⟨.refl _ _, rfl, rfl, rfl, rfl, rfl⟩
  | wait id bound _ => exact ⟨.refl _ _, rfl, rfl, rfl, rfl, rfl⟩

/-- Every word of the window that a command's destination does not reach, STATUS apart, reads as before. -/
theorem exec_readWord (h : exec i s = .next t) {tg : Target} (hs : tg ≠ .status) (hd : ¬ (destOf i).Reaches tg) :
    t.readWord tg = s.readWord tg := by
  obtain ⟨hf, hq, -⟩ := exec_frame h
  exact hf.readWord hq hs hd

end Sys2Proof.Machine
end

section
/-! SUPPORT. The frames of the commands and what their commits do to RESULT, DONE and ERRCODE. -/

namespace Sys2Proof.Machine

/-! ## Frames -/

/-- Settles O36: the one destination is K[KD]. -/
theorem scalarCommandsFrame : Obligations.ScalarCommandsFrame := by
  intro i kd s t hi h
  have hd := destOf_of_scalarDest hi
  obtain ⟨hf, ha⟩ := exec_frame h
  rw [hd] at hf
  exact ⟨fun j hj => hf.k j (by simpa using hj.symm), hf.restore_k, ha,
    fun off hs hk => exec_readWord h hs (by simpa [hd, Dest.Reaches] using hk)⟩

/-- Settles O37: the one destination is PR[PD], which PINF shows too. -/
theorem pointCommandsFrame : Obligations.PointCommandsFrame := by
  intro i pd s t hi h
  have hd := destOf_of_pointDest hi
  obtain ⟨hf, ha⟩ := exec_frame h
  rw [hd] at hf
  exact ⟨fun j hj => hf.pr j (by simpa using hj.symm), hf.restore_pr, ha,
    fun off hs hp hx hy => exec_readWord h hs (by simp [hd, Dest.Reaches, hp, hx, hy])⟩

/-- Settles O38: each of these commands has its own row in `destOf`. -/
theorem otherCommandsFrame : Obligations.OtherCommandsFrame := by
  intro i s t h
  obtain ⟨hf, ha⟩ := exec_frame h
  refine ⟨fun hi => ?_, fun pa form hi => ?_, fun ka hi => ?_, fun pd kd hi => ?_, fun hi => ?_⟩
  · have hd : destOf i = {} := hi.elim (fun hn => hn ▸ rfl) destOf_of_writesResult
    rw [hd] at hf
    exact ⟨hf.eq_of_none, ha, fun off hs => exec_readWord h hs (by simp [hd, Dest.Reaches])⟩
  · subst hi
    exact ⟨hf.restore_encoding, ha, fun off hs hl he => exec_readWord h hs (by simp [destOf, Dest.Reaches, hl, he])⟩
  · subst hi
    exact ⟨hf.restore_sig, ha, fun off hs hr hg => exec_readWord h hs (by simp [destOf, Dest.Reaches, hr, hg])⟩
  · subst hi
    exact ⟨hf.restore_k_pr, fun j hj => hf.k j (by simpa [destOf] using hj.symm),
      fun j hj => hf.pr j (by simpa [destOf] using hj.symm), ha,
      fun off hs hp hk hx hy => exec_readWord h hs (by simp [destOf, Dest.Reaches, hp, hk, hx, hy])⟩
  · subst hi
    exact ⟨hf.restore_ucv, ha, fun off hs => exec_readWord h hs (by simp [destOf, Dest.Reaches])⟩

/-! ## Commits -/

/-- Settles O9: a success commit has ERRCODE 0, and of the error commits only W.CONS's own writes a register, UCV. -/
theorem errorCommitWritesNoDestination : Obligations.ErrorCommitWritesNoDestination := by
  intro i s t h hs ht he
  cases exec_ends h with
  | commit r b _ _ => exact absurd rfl he
  | error e => exact ⟨fun _ => rfl, rfl, rfl, rfl⟩
  | consError e hi => exact ⟨fun hn => absurd hi hn, rfl, rfl, rfl⟩
  | request bound n => cases ht
  | wait id bound _ => exact absurd (hs.symm.trans ht) (by decide)

/-- Settles O10: RESULT is the outcome at a success commit and 0 at an error commit. -/
theorem onlyBooleanCommandsSetResult : Obligations.OnlyBooleanCommandsSetResult := by
  intro i s t h hs ht
  cases exec_ends h with
  | commit r b _ hb =>
    refine ⟨fun hw => ?_, fun he => absurd rfl he, rfl, rfl⟩
    cases b with
    | false => rfl
    | true => exact absurd (hw.symm.trans (hb rfl)) (by decide)
  | error e => exact ⟨fun _ => rfl, fun _ => rfl, rfl, rfl⟩
  | consError e _ => exact ⟨fun _ => rfl, fun _ => rfl, rfl, rfl⟩
  | request bound n => cases ht
  | wait id bound _ => exact absurd (hs.symm.trans ht) (by decide)

end Sys2Proof.Machine
end

section
/-! SUPPORT. What a step leaves of the registers while BUSY, and the moves that change UCV. -/

namespace Sys2Proof.Machine

/-! ## BUSY to BUSY -/

/-- Settles O8: from BUSY to BUSY the engine waits or requests, the host's write is dropped or is one to STATUS, and the
random source's answer reaches only its port. -/
theorem busyStepsChangeNoRegister : Obligations.BusyStepsChangeNoRegister := by
  intro s t h hs ht
  cases step_moved h with
  | engine es hx =>
    rcases engineTurn_cases hx with rfl | ⟨snap, rng, n, -, -, -, ⟨i, -, hi⟩ | ⟨e, -, rfl⟩⟩
    · exact ⟨rfl, rfl, rfl, rfl, rfl⟩
    · cases exec_ends hi with
      | commit r b _ _ => cases ht
      | error e => cases ht
      | consError e _ => cases ht
      | request bound n => exact ⟨rfl, rfl, rfl, rfl, rfl⟩
      | wait id bound _ => exact ⟨rfl, rfl, rfl, rfl, rfl⟩
    · cases ht
  | host a es _ _ =>
    obtain ⟨u, b, hw, hu⟩ := State.access_cases { s with events := es } a
    rw [hu] at ht ⊢
    cases hw with
    | same => exact ⟨rfl, rfl, rfl, rfl, rfl⟩
    | ovr _ => exact ⟨rfl, rfl, rfl, rfl, rfl⟩
    | status v => exact ⟨rfl, rfl, rfl, rfl, rfl⟩
    | reset => cases ht
    | accept x y hn => exact absurd (hn.symm.trans hs) (by decide)
    | ctrl x y hn => exact absurd (hn.symm.trans hs) (by decide)
    | operand x y hn => exact absurd (hn.symm.trans hs) (by decide)
  | rng id a es hd =>
    rcases State.deliver_cases hd with rfl | ⟨snap, bound, n, hp, -, rfl⟩
    · exact ⟨rfl, rfl, rfl, rfl, rfl⟩
    · exact ⟨rfl, rfl, rfl, (State.inputs_busy (s := s) hp).symm, rfl⟩
  | rstAssert es => cases ht
  | rstRelease es => exact ⟨rfl, rfl, rfl, rfl, rfl⟩

/-! ## UCV -/

/-- A failed check of W.CONS is an error that has a code (41_weierstrass.md R170). -/
theorem wConstruct_error_ne_ok {a b p d : Nat} {e : ErrCode} (h : wConstruct a b p d = .error e) : e ≠ .ok := by
  unfold wConstruct at h
  split_ifs at h <;> cases h <;> decide

/-- An engine's turn changes UCV only where it runs W.CONS (10_state.md R52). -/
theorem engineTurn_ucv {s t : State} (h : engineTurn s = .next t) (hu : s.regs.ucv ≠ t.regs.ucv) :
    ∃ snap rng n, s.phase = .busy snap rng n ∧ decode snap.cmd = .ok .wcons ∧ t.busy = false ∧ t.done = true ∧
      (t.errcode = .ok ↔ t.regs.ucv = true) := by
  rcases engineTurn_cases h with rfl | ⟨snap, rng, n, -, hp, -, ⟨i, hc, hx⟩ | ⟨e, -, rfl⟩⟩
  · exact absurd rfl hu
  · by_cases hi : i = .wcons
    · subst hi
      refine ⟨snap, rng, n, hp, hc, ?_⟩
      rcases execWCons_cases hx with ⟨-, rfl⟩ | ⟨e, he, rfl⟩
      · exact ⟨rfl, rfl, by simp⟩
      · exact ⟨rfl, rfl, by simp [wConstruct_error_ne_ok he]⟩
    · exfalso
      cases exec_turn hi hx with
      | commit r b hk => exact hu hk.ucv.symm
      | error e => exact hu rfl
      | request bound n => exact hu rfl
      | wait id bound _ => exact hu rfl
  · exact absurd rfl hu

/-- Of the operand registers only the words of UA, UB and UP carry UCV with them (10_state.md R41). -/
theorem Regs.writeOperand_ucv_cases (r : Regs) (tg : Target) (v : Word) : (r.writeOperand tg v).ucv = r.ucv ∨
    ((r.writeOperand tg v).ucv = false ∧ ∃ w, tg = .big .ua w ∨ tg = .big .ub w ∨ tg = .big .up w) := by
  cases tg with
  | big b w =>
    cases b with
    | ua => exact .inr ⟨rfl, w, .inl rfl⟩
    | ub => exact .inr ⟨rfl, w, .inr (.inl rfl)⟩
    | up => exact .inr ⟨rfl, w, .inr (.inr rfl)⟩
    | _ => exact .inl rfl
  | _ => exact .inl rfl

/-- A CTRL write keeps UCV unless it resets (10_state.md R33). -/
theorem State.writeCtrl_ucv (s : State) (v : Word) : s.writeCtrl v = s.resetRegs ∨ (s.writeCtrl v).regs.ucv = s.regs.ucv := by
  unfold State.writeCtrl
  split_ifs
  · exact .inl rfl
  · exact .inr rfl
  · exact .inr rfl
  · exact .inr rfl

/-- What a host write can do to UCV: nothing, a reset, or its fall at a word of UA, UB or UP while idle (10_state.md R41). -/
theorem State.writeWord_ucv (s : State) (tg : Target) (v : Word) : (s.writeWord tg v).regs.ucv = s.regs.ucv ∨
    s.writeWord tg v = s.resetRegs ∨ ((s.writeWord tg v).regs.ucv = false ∧ s.busy = false ∧
      ∃ w, tg = .big .ua w ∨ tg = .big .ub w ∨ tg = .big .up w) := by
  have idle : (s.writeIdle tg v).regs.ucv = s.regs.ucv ∨ ((s.writeIdle tg v).regs.ucv = false ∧ s.busy = false ∧
      ∃ w, tg = .big .ua w ∨ tg = .big .ub w ∨ tg = .big .up w) := by
    unfold State.writeIdle
    split_ifs with hb
    · exact .inl rfl
    · exact (s.regs.writeOperand_ucv_cases tg v).imp_right fun ⟨h0, hw⟩ => ⟨h0, by simpa using hb, hw⟩
  cases tg with
  | id | reserved | status => exact .inl rfl
  | ctrl => exact (s.writeCtrl_ucv v).elim (.inr ∘ .inl) .inl
  | _ => exact idle.imp_right .inr

/-- A legal write has all its strobes (20_memory.md R83). -/
theorem HostAccess.strobes_of_legal {a : HostAccess} {m : BitVec 4} {v : Word} (h : a.legal = true)
    (hk : a.kind = .write m v) : m = 0b1111 := by
  simp only [HostAccess.legal, hk, Bool.and_eq_true, beq_iff_eq] at h
  exact h.2

/-- What a host access can do to UCV. -/
theorem State.access_ucv {s : State} {a : HostAccess} (hu : s.regs.ucv ≠ (s.access a).regs.ucv) :
    ((s.access a).regs.ucv = false ∧ a.legal = true ∧ s.busy = false ∧ (∃ v, a.kind = .write 0b1111 v) ∧
      ∃ w, target a.off.toNat = .big .ua w ∨ target a.off.toNat = .big .ub w ∨ target a.off.toNat = .big .up w) ∨
    ((s.access a).regs = Regs.reset ∧ (s.access a).phase = .idle) := by
  unfold State.access at hu ⊢
  split_ifs at hu ⊢ with hl
  · split at hu
    · exact absurd rfl hu
    · rename_i m v hk
      rcases s.writeWord_ucv (target a.off.toNat) v with h | h | ⟨h0, hb, hw⟩
      · exact absurd h.symm hu
      · rw [hk, h]; exact .inr ⟨rfl, rfl⟩
      · rw [hk]
        exact .inl ⟨h0, hl, hb, ⟨v, by rw [HostAccess.strobes_of_legal hl hk]⟩, hw⟩
  · exact absurd rfl hu

/-- Settles O16: an answer of the random source and the release of the reset pin change no register. -/
theorem ucvChangesOnlyByItsRules : Obligations.UcvChangesOnlyByItsRules := by
  intro s t h hu
  cases step_moved h with
  | engine es hx => exact .inl (engineTurn_ucv (s := { s with events := es }) hx hu)
  | host a es he _ =>
    rcases State.access_ucv (s := { s with events := es }) hu with ⟨h0, hl, hb, hk, hw⟩ | hr
    · exact .inr (.inl ⟨h0, a, es, he, hl, hb, hk, hw⟩)
    · exact .inr (.inr hr)
  | rng id a es hd =>
    rcases State.deliver_cases hd with rfl | ⟨snap, bound, n, -, -, rfl⟩
    · exact absurd rfl hu
    · exact absurd rfl hu
  | rstAssert es => exact .inr (.inr ⟨rfl, rfl⟩)
  | rstRelease es => exact absurd rfl hu

end Sys2Proof.Machine
end

section
/-! SUPPORT. The small registers of the window: what CTRL, STATUS, CMD, PINF, ELEN, DLEN and ID read, and what a write to
them does while idle and while BUSY (10_state.md R32 to R43, R50). -/

namespace Sys2Proof.Machine

/-! ## Writes while BUSY -/

/-- While BUSY a write to any target but ID, STATUS and the reserved ones is dropped with OVR, SRST excepted (10_state.md R50). -/
theorem State.writeWord_busy {s : State} (hb : s.busy = true) {tg : Target} {v : Word} (hid : tg ≠ .id) (hres : tg ≠ .reserved)
    (hst : tg ≠ .status) (hsrst : tg = .ctrl → ctrlSrst v = false) : s.writeWord tg v = s.setOvr := by
  cases tg with
  | id => exact absurd rfl hid
  | reserved => exact absurd rfl hres
  | status => exact absurd rfl hst
  | ctrl => simp [State.writeWord, State.writeCtrl, hsrst rfl, hb]
  | _ => simp [State.writeWord, State.writeIdle, hb]

/-- Settles O24: the address map tells the offsets that never set OVR from the others (`target_iff`). -/
theorem busyWritesAreDroppedWithOvr : Obligations.BusyWritesAreDroppedWithOvr := by
  intro s off v h4
  obtain ⟨hid, hctrl, hstatus, hreserved⟩ := target_iff off h4
  rw [State.access_write h4]
  refine ⟨fun h => ?_, fun hb h0 hr h8 h3 => ?_⟩
  · rcases h with h | h
    · rw [hid.2 h]; rfl
    · rw [hreserved.2 h]; rfl
  · rw [State.writeWord_busy hb (hid.not.2 h0) (hreserved.not.2 hr) (hstatus.not.2 h8) fun hc => h3 (hctrl.1 hc)]
    rfl

/-! ## CTRL -/

/-- A CTRL write while idle with SRST = 0 and START = 1 accepts the command (60_exceptions.md R330). -/
theorem State.writeCtrl_start {s : State} {v : Word} (hb : s.busy = false) (h3 : ctrlSrst v = false) (h0 : ctrlStart v = true) :
    s.writeCtrl v = s.accept (ctrlHarden v) (ctrlIrqEn v) := by
  simp [State.writeCtrl, hb, h3, h0]

/-- A CTRL write while idle with SRST = 0 and START = 0 stores the two mode bits (10_state.md R33). -/
theorem State.writeCtrl_mode {s : State} {v : Word} (hb : s.busy = false) (h3 : ctrlSrst v = false) (h0 : ctrlStart v = false) :
    s.writeCtrl v = { s with regs := { s.regs with harden := ctrlHarden v }, irqEn := ctrlIrqEn v } := by
  simp [State.writeCtrl, hb, h3, h0]

/-- The places of the bits of CTRL (10_state.md R33). -/
theorem State.ctrlWord_getLsbD (s : State) (j : Nat) :
    s.ctrlWord.getLsbD j = if j = 1 then s.regs.harden else if j = 2 then s.irqEn else false := by
  simp only [State.ctrlWord, flagBit, BitVec.getLsbD_append, BitVec.getLsbD_ofBool]
  rcases j with _ | _ | _ | j
  all_goals simp

theorem State.access_ctrl (s : State) (v : Word) :
    s.access ⟨0x004, 4, .write 0b1111 v⟩ = { s.writeCtrl v with bus := .okayWrite } := State.access_write rfl v

/-- Settles O6: the two idle branches of a CTRL write, and the bits of the CTRL word. -/
theorem controlRegister : Obligations.ControlRegister := by
  intro s v
  rw [State.access_ctrl]
  refine ⟨fun hb h3 h0 => ?_, fun hb h3 h0 => ?_, s.ctrlWord_getLsbD⟩
  · rw [State.writeCtrl_start hb h3 h0]
    exact ⟨_, rfl, rfl, rfl, rfl, rfl, rfl, rfl, rfl, rfl⟩
  · rw [State.writeCtrl_mode hb h3 h0]
    rfl

/-! ## STATUS -/

/-- The number of an error code (60_exceptions.md R336) stands in STATUS bits 11:8, and the reserved bits read 0 (10_state.md R34). -/
theorem State.statusWord_fields (s : State) :
    s.statusWord.getLsbD 0 = s.busy ∧ s.statusWord.getLsbD 2 = s.result ∧ s.statusWord.getLsbD 3 = s.ovr ∧
    s.statusWord.getLsbD 4 = s.regs.ucv ∧ s.statusWord.extractLsb' 5 3 = 0 ∧
    s.statusWord.extractLsb' 8 4 = s.errcode.code ∧ s.statusWord.extractLsb' 12 20 = 0 := by
  rw [State.statusWord]
  generalize s.errcode.code = c
  generalize s.busy = b0
  generalize s.done = b1
  generalize s.result = b2
  generalize s.ovr = b3
  generalize s.regs.ucv = b4
  revert c b0 b1 b2 b3 b4
  decide +kernel

/-- A STATUS write clears a flag where it writes 1 and leaves it where it writes 0 (10_state.md R34). -/
theorem State.writeStatus_eq (s : State) (v : Word) : s.writeStatus v =
    { s with done := if v.getLsbD 1 then false else s.done, ovr := if v.getLsbD 3 then false else s.ovr } := by
  have w1c : ∀ flag bit : Bool, (flag && !bit) = if bit then false else flag := by decide
  simp only [State.writeStatus, w1c]

theorem State.access_status (s : State) (v : Word) :
    s.access ⟨0x008, 4, .write 0b1111 v⟩ = { s.writeStatus v with bus := .okayWrite } := State.access_write rfl v

/-- Settles O25: the write-1-to-clear rule, and the fields of the STATUS word. -/
theorem statusRegister : Obligations.StatusRegister := by
  intro s v
  obtain ⟨hbusy, hresult, hovr, hucv, hlow, hcode, hhigh⟩ := s.statusWord_fields
  refine ⟨?_, hbusy, statusWord_done s, hresult, hovr, hucv, hlow, ?_, hhigh⟩
  · rw [State.access_status, State.writeStatus_eq]
  · refine hcode.trans ?_
    cases s.errcode <;> rfl

/-! ## CMD, PINF, ELEN, DLEN and ID -/

/-- A legal write to an operand register while idle stores it and answers Okay (10_state.md R35 to R43). -/
theorem State.access_operand {s : State} {off : BitVec 12} {tg : Target} {v : Word} (hb : s.busy = false)
    (h4 : off.toNat % 4 = 0) (hw : s.writeWord (target off.toNat) v = s.writeIdle tg v) :
    s.access ⟨off, 4, .write 0b1111 v⟩ = { s with regs := s.regs.writeOperand tg v, bus := .okayWrite } := by
  rw [State.access_write h4, hw, State.writeIdle, if_neg (by simp [hb])]

/-- Bit i of PINF is PRi.INF, and bits 31:8 read 0 (10_state.md R38). -/
theorem Regs.pinfWord_getLsbD (r : Regs) (j : Nat) : r.pinfWord.getLsbD j = if h : j < 8 then r.pr[j].inf else false := by
  simp only [Regs.pinfWord, flagBit, BitVec.getLsbD_append, BitVec.getLsbD_ofBool]
  rcases j with _ | _ | _ | _ | _ | _ | _ | _ | j
  all_goals simp

/-- What a point register holds after a PINF write: its own bit, its own coordinates (10_state.md R38). -/
theorem Regs.writePinf_getPr (r : Regs) (v : Word) (i : PIdx) :
    (r.writePinf v).pr[i] = { r.pr[i] with inf := v.getLsbD i.val } := by
  simp [Regs.writePinf]

/-- A length is bits 6:0 of the written value, capped (10_state.md R42, R43). -/
theorem cappedLen_val (max : Nat) (v : Word) : (cappedLen max v).val = if max < v.toNat % 128 then max else v.toNat % 128 := by
  have hlow : (v.extractLsb' 0 7).toNat = v.toNat % 128 := by simp [BitVec.extractLsb'_toNat]
  rw [cappedLen, hlow, Fin.val_ofNat, Nat.mod_eq_of_lt (by omega)]
  split <;> omega

/-- Settles O29. -/
theorem smallRegisterWrites : Obligations.SmallRegisterWrites := by
  refine ⟨fun s => ⟨rfl, rfl, s.regs.pinfWord_getLsbD, ?_, ?_⟩, fun s v hb => ⟨?_, ?_, ?_, ?_⟩⟩
  · exact Nat.mod_eq_of_lt (by have := s.regs.elen.isLt; omega)
  · exact Nat.mod_eq_of_lt (by have := s.regs.dlen.isLt; omega)
  · exact State.access_operand (tg := .cmd) hb rfl rfl
  · exact ⟨_, State.access_operand (tg := .pinf) hb rfl rfl, rfl, rfl, rfl, s.regs.writePinf_getPr v⟩
  · exact ⟨_, State.access_operand (tg := .elen) hb rfl rfl, rfl, rfl, rfl, cappedLen_val 65 v⟩
  · exact ⟨_, State.access_operand (tg := .dlen) hb rfl rfl, rfl, rfl, rfl, cappedLen_val 64 v⟩

end Sys2Proof.Machine
end

section
/-! SUPPORT. The host's accesses to the wide registers and the byte buffers: which accesses are illegal, what a legal read
answers, and what a write to one word of a 512-bit register, of EBUF or of DIGEST leaves (20_memory.md R83 to R90). -/

namespace Sys2Proof.Machine

/-! ## The access primitive -/

/-- An access that breaks a rule of 20_memory.md R83 is not legal. -/
theorem HostAccess.legal_eq_false {a : HostAccess}
    (h : a.size ≠ 4 ∨ a.off.toNat % 4 ≠ 0 ∨ ∃ m v, a.kind = .write m v ∧ m ≠ 0b1111) : a.legal = false := by
  unfold HostAccess.legal
  rcases h with hsize | halign | ⟨m, v, hk, hm⟩
  · simp [hsize]
  · simp [halign]
  · simp only [hk, beq_false_of_ne hm, Bool.and_false]

/-- A legal read answers the word at its offset and does nothing else (20_memory.md R82, R89). -/
theorem State.access_read {s : State} {off : BitVec 12} (h4 : off.toNat % 4 = 0) :
    s.access ⟨off, 4, .read⟩ = { s with bus := .okayRead (s.readWord (target off.toNat)) } := by
  rw [State.access, if_pos]
  simp only [HostAccess.legal, h4]
  decide

/-- Settles O23. -/
theorem illegalAccessesAndReadsChangeNothing : Obligations.IllegalAccessesAndReadsChangeNothing := by
  refine ⟨fun s a h => ?_, fun s off h4 => ⟨State.access_read h4, fun hr => ?_⟩⟩
  · rw [State.access, HostAccess.legal_eq_false h, if_neg Bool.false_ne_true]
  · obtain ⟨-, -, -, hreserved⟩ := target_iff off h4
    rw [State.access_read h4, hreserved.2 hr]
    rfl

/-- `State.access_operand` at an offset given as a number, as scripts and the address map give it. -/
theorem State.access_operand_at {s : State} {n : Nat} {tg : Target} {v : Word} (hb : s.busy = false) (hn : n < 4096)
    (h4 : n % 4 = 0) (hw : s.writeWord (target n) v = s.writeIdle tg v) :
    s.access ⟨BitVec.ofNat 12 n, 4, .write 0b1111 v⟩ = { s with regs := s.regs.writeOperand tg v, bus := .okayWrite } := by
  have hoff : (BitVec.ofNat 12 n).toNat = n := Nat.mod_eq_of_lt hn
  exact State.access_operand hb (by rwa [hoff]) (by rwa [hoff])

/-! ## One word of a 512-bit register -/

/-- Every window is 64 bytes at an aligned offset below the end of the map (20_memory.md R87). -/
theorem BigReg.offset_range (b : BigReg) : b.offset + 64 ≤ 0x840 ∧ b.offset % 4 = 0 := by
  cases b with
  | prX i | prY i | k i => have := i.isLt; simp only [BigReg.offset]; omega
  | sigR | sigS | ua | ub | up => decide

/-- A write to a word of a window while idle (20_memory.md R86, R87). -/
theorem State.access_bigWord {s : State} {b : BigReg} {w : Nat} {v : Word} (hb : s.busy = false) (hw : w < 16) :
    s.access ⟨BitVec.ofNat 12 (b.offset + 4 * w), 4, .write 0b1111 v⟩ =
      { s with regs := s.regs.writeOperand (.big b w) v, bus := .okayWrite } := by
  obtain ⟨hend, halign⟩ := b.offset_range
  exact State.access_operand_at hb (by omega) (by omega) (by rw [target_bigReg b hw]; rfl)

/-- The write replaces its one word among the words of all 512-bit registers (20_memory.md R86, R90). -/
theorem Regs.bigWord_writeOperand (r : Regs) {b c : BigReg} {w u : Nat} (hw : w < 16) (hu : u < 16) (v : Word) :
    bigWord ((r.writeOperand (.big b w) v).bigReg c) u = if (c, u) = (b, w) then v else bigWord (r.bigReg c) u := by
  rw [Regs.writeOperand]
  by_cases hc : c = b
  · subst hc
    rw [Regs.bigReg_setBigReg_same]
    by_cases hwu : u = w
    · subst hwu
      rw [if_pos rfl, bigWord_setBigWord_same _ hu]
    · rw [if_neg (by simp [hwu]), bigWord_setBigWord_ne _ hw hu hwu]
  · rw [if_neg (by simp [hc]), Regs.bigReg_setBigReg_ne _ hc]

/-- Only UA, UB and UP carry UCV with them (10_state.md R41). -/
theorem Regs.ucv_setBigReg (r : Regs) (b : BigReg) (v : Big) :
    (r.setBigReg b v).ucv = if b = .ua ∨ b = .ub ∨ b = .up then false else r.ucv := by
  cases b <;> rfl

/-- A coordinate write keeps every INF bit (10_state.md R38). -/
theorem Regs.inf_setBigReg (r : Regs) (b : BigReg) (v : Big) (j : PIdx) : (r.setBigReg b v).pr[j].inf = r.pr[j].inf := by
  cases b with
  | prX i | prY i =>
    by_cases hj : j = i
    · subst hj; simp [Regs.setBigReg]
    · exact congrArg PointReg.inf (vector_set_ne _ _ hj)
  | k _ | sigR | sigS | ua | ub | up => rfl

theorem Regs.pinfWord_setBigReg (r : Regs) (b : BigReg) (v : Big) : (r.setBigReg b v).pinfWord = r.pinfWord := by
  apply BitVec.eq_of_getLsbD_eq
  intro j _
  rw [Regs.pinfWord_getLsbD, Regs.pinfWord_getLsbD]
  split_ifs with hj
  · exact r.inf_setBigReg b v ⟨j, hj⟩
  · rfl

/-- The 512-bit registers and UCV put back, the registers are the old ones. -/
theorem Regs.setBigReg_restore (r : Regs) (b : BigReg) (v : Big) :
    { r.setBigReg b v with
      k := r.k, pr := r.pr, sigR := r.sigR, sigS := r.sigS, ua := r.ua, ub := r.ub, up := r.up, ucv := r.ucv } = r := by
  cases b <;> rfl

/-- Settles O26. -/
theorem bigWindowWriteReplacesOneWord : Obligations.BigWindowWriteReplacesOneWord := by
  refine ⟨fun i => ⟨rfl, rfl⟩, fun i => rfl, rfl, rfl, rfl, rfl, rfl, fun s b w v hw hb => ?_⟩
  refine ⟨_, State.access_bigWord hb hw, rfl, ?_, fun c u hu hne => ?_, s.regs.ucv_setBigReg b _,
    s.regs.pinfWord_setBigReg b _, rfl, s.regs.setBigReg_restore b _⟩
  · rw [target_bigReg b hw]
    exact (s.regs.bigWord_writeOperand hw hw v).trans (if_pos rfl)
  · rw [target_bigReg c hu]
    exact (s.regs.bigWord_writeOperand hw hu v).trans (if_neg hne)

/-! ## The whole window -/

/-- Byte j of a register's sixteen words is byte j of its big-endian string (20_memory.md R86). -/
theorem wordByte_bigWord (v : Big) {j : Nat} (hj : j < 64) :
    wordByte (bigWord v (j / 4)) (j % 4) = BitVec.ofNat 8 (v.toNat / 256 ^ (63 - j)) := by
  have hpow : 256 ^ (63 - j) = 2 ^ (8 * (63 - j)) := by rw [Nat.pow_mul]
  apply BitVec.eq_of_getLsbD_eq
  intro i hi
  have hlow : 24 - 8 * (j % 4) + i < 32 := by omega
  have hbit : 480 - 32 * (j / 4) + (24 - 8 * (j % 4) + i) = 8 * (63 - j) + i := by omega
  simp only [wordByte, bigWord, BitVec.getLsbD_extractLsb', BitVec.getLsbD_ofNat, hi, hlow, hbit, hpow,
    Nat.testBit_div_two_pow, decide_true, Bool.true_and, Nat.add_comm i]
  rfl

/-- The bytes of a register's words in order are `be_64` of its value (20_memory.md R86). -/
theorem bigWord_bytes (v : Big) :
    (List.range 64).map (fun j => wordByte (bigWord v (j / 4)) (j % 4)) = beBytes 64 v.toNat := by
  refine List.ext_getElem (by simp [beBytes_length]) fun j hj _ => ?_
  have hj64 : j < 64 := by simpa using hj
  obtain ⟨_, hbyte⟩ := List.getElem?_eq_some_iff.1 (beBytes_getElem? 64 v.toNat j hj64)
  rw [List.getElem_map, List.getElem_range, wordByte_bigWord v hj64, hbyte]

/-- Reads of words of one window answer these words and leave the registers to the next read (20_memory.md R89). -/
theorem State.answers_bigReads (b : BigReg) : ∀ (ws : List Nat) (s : State), (∀ w ∈ ws, w < 16) → s.inReset = false →
    State.answers (ws.map fun w => evRd (b.offset + 4 * w)) s = ws.map (bigWord (s.regs.bigReg b))
  | [], _, _, _ => rfl
  | w :: ws, s, hws, hr => by
    obtain ⟨hw, hws⟩ := List.forall_mem_cons.1 hws
    obtain ⟨hend, halign⟩ := b.offset_range
    have hoff : (BitVec.ofNat 12 (b.offset + 4 * w)).toNat = b.offset + 4 * w := Nat.mod_eq_of_lt (by omega)
    have hread : step { s with events := [evRd (b.offset + 4 * w)] } =
        .next { s with events := [], bus := .okayRead (bigWord (s.regs.bigReg b) w) } := by
      rw [step_host (s := { s with events := [evRd (b.offset + 4 * w)] }) rfl hr, State.access_read (by omega), hoff,
        target_bigReg b hw]
      rfl
    rw [List.map_cons, State.answers, hread]
    exact congrArg (_ :: ·) (State.answers_bigReads b ws _ hws hr)

/-- The value RDBIG assembles is the register's (30_encoding.md R111). -/
theorem State.rdBigValue_eq {s : State} (b : BigReg) (hr : s.inReset = false) : s.rdBigValue b.offset = s.regs.bigReg b := by
  rw [State.rdBigValue, rdBig, State.answers_bigReads b _ s (fun w hw => List.mem_range.1 hw) hr,
    bigOfWords_range _ 16 (Nat.le_refl _)]
  exact BitVec.ushiftRight_zero _

/-- The host's writes of the words `ws` of `v` to one window; WRBIG's are all sixteen in order (30_encoding.md R111). -/
def bigWrites (b : BigReg) (v : Big) (ws : List Nat) : List Event := ws.map fun w => evWr (b.offset + 4 * w) (bigWord v w)

theorem wrBig_eq_bigWrites (b : BigReg) (v : Big) : wrBig b.offset v = bigWrites b v (List.range 16) := rfl

/-- Writes of words of `v` to one window while idle: each of them stands there afterwards, and so does each word that was
`v`'s before; the other registers are left alone (20_memory.md R86, R90). -/
theorem run_bigWrites (b : BigReg) (v : Big) (rest : List Event) : ∀ (ws : List Nat) (s : State), (∀ w ∈ ws, w < 16) →
    s.busy = false → s.inReset = false → s.events = bigWrites b v ws ++ rest →
    ∃ t, Host.Core.run Sys2Proof.core ws.length s = .next t ∧
      (∀ u < 16, u ∈ ws ∨ bigWord (s.regs.bigReg b) u = bigWord v u → bigWord (t.regs.bigReg b) u = bigWord v u) ∧
      (∀ c, c ≠ b → t.regs.bigReg c = s.regs.bigReg c) ∧ t.events = rest ∧ t.busy = false
  | [], s, _, hb, _, he => ⟨s, rfl, fun u _ h => h.resolve_left List.not_mem_nil, fun _ _ => rfl, he, hb⟩
  | w :: ws, s, hws, hb, hr, he => by
    obtain ⟨hw, hws⟩ := List.forall_mem_cons.1 hws
    have hstep := (step_host he hr).trans (congrArg Host.Outcome.next (State.access_bigWord hb hw))
    obtain ⟨t, hrun, hword, hother, hrest, hidle⟩ := run_bigWrites b v rest ws
      { s with
        events := bigWrites b v ws ++ rest, regs := s.regs.writeOperand (.big b w) (bigWord v w), bus := .okayWrite }
      hws hb hr rfl
    refine ⟨t, (run_step ws.length hstep).trans hrun, fun u hu h => hword u hu ?_,
      fun c hc => (hother c hc).trans (Regs.bigReg_setBigReg_ne _ hc _), hrest, hidle⟩
    have hput := s.regs.bigWord_writeOperand (b := b) (c := b) hw hu (bigWord v w)
    rcases h with hin | hold
    · rcases List.mem_cons.1 hin with rfl | hin
      · exact .inr (hput.trans (if_pos rfl))
      · exact .inl hin
    · refine .inr (hput.trans ?_)
      split_ifs with huw
      · rw [(Prod.mk.inj huw).2]
      · exact hold

/-- Settles O27: WRBIG writes all sixteen words, and a register is its sixteen words. -/
theorem bigWindowsHoldBigEndianValues : Obligations.BigWindowsHoldBigEndianValues := by
  refine ⟨fun s b => ?_, fun _ b hr => State.rdBigValue_eq b hr, fun s b v rest hb hr he => ?_⟩
  · rw [← bigWord_bytes]
    refine List.map_congr_left fun j hj => ?_
    have hj64 := List.mem_range.1 hj
    rw [target_bigReg b (by omega)]
    rfl
  · rw [wrBig_eq_bigWrites] at he
    obtain ⟨t, hrun, hword, hother, hrest, hidle⟩ :=
      run_bigWrites b v rest (List.range 16) s (fun w hw => List.mem_range.1 hw) hb hr he
    exact ⟨t, hrun, big_ext fun u hu => hword u hu (.inl (List.mem_range.2 hu)), hother, hrest, hidle⟩

/-! ## EBUF and DIGEST -/

/-- EBUF's words, the last of which holds byte 64 (20_memory.md R87). -/
theorem target_ebuf {w : Nat} (hw : w < 17) : target (0x040 + 4 * w) = .ebuf w := by
  unfold target
  rw [if_neg (by omega), if_pos (by omega), Nat.add_sub_cancel_left, Nat.mul_div_cancel_left w (by decide)]

theorem target_digest {w : Nat} (hw : w < 16) : target (0x0C0 + 4 * w) = .digest w := by
  unfold target
  rw [if_neg (by omega), if_neg (by omega), if_neg (by omega), if_pos (by omega), Nat.add_sub_cancel_left,
    Nat.mul_div_cancel_left w (by decide)]

/-- Byte j of a buffer stands in its word j div 4, byte j mod 4 from the top (20_memory.md R85). -/
theorem wordByte_bufWord_div {n : Nat} (buf : Vector Byte n) (j : Nat) :
    wordByte (bufWord buf (j / 4)) (j % 4) = if h : j < n then buf[j] else 0 := by
  rw [wordByte_bufWord buf _ (Nat.mod_lt j (by decide)), Nat.div_add_mod, bufByte]
  split_ifs with h
  · rw [Vector.getElem?_eq_getElem h]; rfl
  · rw [Vector.getElem?_eq_none (Nat.le_of_not_lt h)]; rfl

theorem State.access_ebuf {s : State} {w : Nat} {x : Word} (hb : s.busy = false) (hw : w < 17) :
    s.access ⟨BitVec.ofNat 12 (0x040 + 4 * w), 4, .write 0b1111 x⟩ =
      { s with regs := { s.regs with ebuf := setBufWord s.regs.ebuf w x }, bus := .okayWrite } :=
  State.access_operand_at (tg := .ebuf w) hb (by omega) (by omega) (by rw [target_ebuf hw]; rfl)

theorem State.access_digest {s : State} {w : Nat} {x : Word} (hb : s.busy = false) (hw : w < 16) :
    s.access ⟨BitVec.ofNat 12 (0x0C0 + 4 * w), 4, .write 0b1111 x⟩ =
      { s with regs := { s.regs with digest := setBufWord s.regs.digest w x }, bus := .okayWrite } :=
  State.access_operand_at (tg := .digest w) hb (by omega) (by omega) (by rw [target_digest hw]; rfl)

/-- Settles O28. -/
theorem byteBuffersAreBigEndian : Obligations.ByteBuffersAreBigEndian := by
  intro s j w x hb
  refine ⟨fun hj => ?_, fun hj => ?_, fun hw hj => ?_, fun hw hj => ?_, fun hw => ?_, fun hw => ?_⟩
  · rw [target_ebuf (by omega)]
    exact wordByte_bufWord_div s.regs.ebuf j
  · rw [target_digest (by omega)]
    exact (wordByte_bufWord_div s.regs.digest j).trans (dif_pos hj)
  · rw [State.access_ebuf hb hw]
    exact setBufWord_getElem s.regs.ebuf w x j hj
  · rw [State.access_digest hb hw]
    exact setBufWord_getElem s.regs.digest w x j hj
  · exact ⟨_, State.access_ebuf hb hw, rfl, rfl, rfl⟩
  · exact ⟨_, State.access_digest hb hw, rfl, rfl, rfl⟩

end Sys2Proof.Machine
end

section
/-! SUPPORT. The decoder said once: which row a word selects, what that row builds, and which bits of the word it reads
(30_encoding.md R100 to R106). -/

namespace Sys2Proof

/-! ## The rows of the opcode map -/

/-- A command's row is the one found under its OP value, and it builds the command from the fields the assembler writes
(30_encoding.md R104, R110). -/
theorem Instr.find_row (i : Instr) : ∃ r, opTable.find? (fun r => r.op == i.opcode) = some r ∧ r.build i.fields = i := by
  cases i <;> exact ⟨_, rfl, rfl⟩

/-- A row builds only commands with its own OP value (30_encoding.md R104). -/
theorem OpRow.opcode_build {r : OpRow} (hr : r ∈ opTable) (f : Fields) : (r.build f).opcode = r.op := by
  fin_cases hr <;> rfl

/-- The opcode map has no row exactly for the reserved opcodes (30_encoding.md R106). -/
theorem opTable_find_eq_none_iff {op : Nat} (h : op < 64) : opTable.find? (fun r => r.op == op) = none ↔
    (0x05 ≤ op ∧ op ≤ 0x07) ∨ (0x19 ≤ op ∧ op ≤ 0x1F) ∨ (0x27 ≤ op ∧ op ≤ 0x2F) ∨ (0x33 ≤ op ∧ op ≤ 0x3F) := by
  rw [← Option.isNone_iff_eq_none]
  revert op
  decide

/-! ## The decoder's three outcomes -/

theorem decode_of_rsv {w : Word} (h : rsvField w ≠ 0) : decode w = .error .reservedBits := if_pos h

theorem decode_of_find_none {w : Word} (h : rsvField w = 0) (hr : opTable.find? (fun r => r.op == opField w) = none) :
    decode w = .error .reservedOpcode := by
  simp [decode, h, hr]

theorem decode_of_find_some {w : Word} {r : OpRow} (h : rsvField w = 0)
    (hr : opTable.find? (fun r => r.op == opField w) = some r) : decode w = .ok (r.build (fieldsOf w)) := by
  simp [decode, h, hr]

/-- A word that is a command has RSV = 0, and a row of the opcode map built it from the word's fields. -/
theorem decode_eq_ok {w : Word} {i : Instr} (h : decode w = .ok i) : rsvField w = 0 ∧
    ∃ r, opTable.find? (fun r => r.op == opField w) = some r ∧ i = r.build (fieldsOf w) := by
  by_cases hrsv : rsvField w = 0
  · cases hr : opTable.find? (fun r => r.op == opField w) with
    | none => rw [decode_of_find_none hrsv hr] at h; cases h
    | some r => rw [decode_of_find_some hrsv hr] at h; cases h; exact ⟨hrsv, r, rfl, rfl⟩
  · rw [decode_of_rsv hrsv] at h; cases h

/-- Settles O1: the decoder finds the command's row under its OP and reads back the fields the assembler wrote. -/
theorem decodeOfEncodeIsIdentity : Obligations.DecodeOfEncodeIsIdentity := by
  intro i
  obtain ⟨r, hr, hbuild⟩ := i.find_row
  have hop : opField (encode i) = i.opcode := opField_assemble i.opcode_lt i.fields
  have hrsv : rsvField (encode i) = 0 := rsvField_assemble i.opcode_lt i.fields
  have hfields : fieldsOf (encode i) = i.fields := fieldsOf_assemble i.opcode_lt i.fields
  rw [decode_of_find_some hrsv (hop ▸ hr), hfields, hbuild]

/-- Settles O4: each word is the one the assembler writes for its command. -/
theorem specWordsDecode : Obligations.SpecWordsDecode :=
  ⟨decodeOfEncodeIsIdentity (.ldc 0 .n256), decodeOfEncodeIsIdentity (.mldg 1),
    decodeOfEncodeIsIdentity (.fadd 2 0 1 .up), decodeOfEncodeIsIdentity (.wadd 2 0 1 .user),
    decodeOfEncodeIsIdentity (.wenc 0 .compressed), decodeOfEncodeIsIdentity (.madd 3 2 0),
    decodeOfEncodeIsIdentity (.maffx 1 0), decodeOfEncodeIsIdentity (.everify 1)⟩

/-- Settles O2: with RSV = 0 the opcode map decides, and the row it finds has the word's own OP. -/
theorem reservedWordsAreRejected : Obligations.ReservedWordsAreRejected := by
  intro w
  rw [← rsvField_eq, ← opField_eq]
  have hlt : opField w < 64 := by rw [opField_eq]; omega
  refine ⟨decode_of_rsv, fun hrsv => ?_⟩
  dsimp only
  rw [← opTable_find_eq_none_iff hlt]
  cases hr : opTable.find? (fun r => r.op == opField w) with
  | none =>
    have hd := decode_of_find_none hrsv hr
    exact ⟨iff_of_true hd rfl, fun hne => absurd hd hne⟩
  | some r =>
    have hd := decode_of_find_some hrsv hr
    have hop : r.op = opField w := by simpa using List.find?_some hr
    exact ⟨by simp [hd], fun _ => ⟨_, hd, (OpRow.opcode_build (List.mem_of_find?_eq_some hr) _).trans hop⟩⟩

/-! ## The bits a row reads -/

/-- Words that agree under a mask agree on every field the mask holds whole. -/
theorem extractLsb'_congr {w w' m : Word} (h : w' &&& m = w &&& m) {lo n : Nat} (hm : m.extractLsb' lo n = BitVec.allOnes n) :
    w'.extractLsb' lo n = w.extractLsb' lo n := by
  have he := congrArg (BitVec.extractLsb' lo n) h
  simpa [BitVec.extractLsb'_and, hm] using he

/-- What agreement under a mask gives of two words' fields: a field is the same when the mask holds all its bits
(30_encoding.md R100). -/
structure Fields.SameUnder (m : Word) (f f' : Fields) : Prop where
  pd : m.extractLsb' 6 3 = 7 → f'.pd = f.pd
  pa : m.extractLsb' 9 3 = 7 → f'.pa = f.pa
  pb : m.extractLsb' 12 3 = 7 → f'.pb = f.pb
  kd : m.extractLsb' 15 3 = 7 → f'.kd = f.kd
  ka : m.extractLsb' 18 3 = 7 → f'.ka = f.ka
  kb : m.extractLsb' 21 3 = 7 → f'.kb = f.kb
  cs : m.extractLsb' 24 1 = 1 → f'.cs = f.cs
  cmp : m.extractLsb' 25 1 = 1 → f'.cmp = f.cmp
  ms : m.extractLsb' 26 3 = 7 → f'.ms = f.ms

theorem getLsbD_congr {w w' m : Word} (h : w' &&& m = w &&& m) {j : Nat} (hm : m.extractLsb' j 1 = 1) :
    w'.getLsbD j = w.getLsbD j := by
  have he := congrArg (BitVec.getLsbD · 0) (extractLsb'_congr h hm)
  simpa [BitVec.getLsbD_extractLsb'] using he

theorem fieldsOf_sameUnder {w w' m : Word} (h : w' &&& m = w &&& m) : (fieldsOf w).SameUnder m (fieldsOf w') := by
  have index : ∀ lo, m.extractLsb' lo 3 = 7 → field3 w' lo = field3 w lo := fun lo hm =>
    congrArg BitVec.toFin (extractLsb'_congr h hm)
  exact
    { pd := index 6
      pa := index 9
      pb := index 12
      kd := index 15
      ka := index 18
      kb := index 21
      cs := fun hm => congrArg curveSelOfBit (getLsbD_congr h hm)
      cmp := fun hm => congrArg encFormOfBit (getLsbD_congr h hm)
      ms := fun hm => congrArg modSelOfBits (index 26 hm) }

/-- Every mask holds RSV and OP (30_encoding.md R104). -/
theorem usedMask_rsv_op (i : Instr) : (Claims.usedMask i).extractLsb' 29 3 = 7 ∧ (Claims.usedMask i).extractLsb' 0 6 = 63 := by
  cases i <;> (rw [Claims.usedMask]; decide)

/-- A row reads only fields whose bits its mask holds: with these the same, it builds the same command
(30_encoding.md R104, R105). -/
theorem OpRow.build_congr {r : OpRow} (hr : r ∈ opTable) {f f' : Fields}
    (h : f.SameUnder (Claims.usedMask (r.build f)) f') : r.build f' = r.build f := by
  fin_cases hr
  all_goals
    simp only [Claims.usedMask] at h
    simp (disch := decide) only [h.pd, h.pa, h.pb, h.kd, h.ka, h.kb, h.cs, h.cmp, h.ms]

/-- Settles O3: the word's row is found by RSV and OP, which every mask holds, and reads only fields that its mask holds. -/
theorem unusedFieldsDoNotAffectDecoding : Obligations.UnusedFieldsDoNotAffectDecoding := by
  intro w w' i h hm
  obtain ⟨hrsv, r, hr, rfl⟩ := decode_eq_ok h
  obtain ⟨mrsv, mop⟩ := usedMask_rsv_op (r.build (fieldsOf w))
  have hrsv' : rsvField w' = rsvField w := congrArg BitVec.toNat (extractLsb'_congr hm mrsv)
  have hop : opField w' = opField w := congrArg BitVec.toNat (extractLsb'_congr hm mop)
  rw [decode_of_find_some (hrsv'.trans hrsv) (hop ▸ hr),
    OpRow.build_congr (List.mem_of_find?_eq_some hr) (fieldsOf_sameUnder hm)]

end Sys2Proof
end

section
/-! SUPPORT. A reserved MS and a missing user curve end a command before any other effect (30_encoding.md R102, R103,
R106). -/

namespace Sys2Proof.Machine

/-- An error commit is the claims' `Failed` on the registers as they were. -/
theorem State.commitError_failed (s : State) (e : ErrCode) : Claims.Failed s s.regs e (s.commitError e) :=
  ⟨rfl, rfl, rfl, rfl, rfl, rfl, rfl, rfl, rfl, rfl⟩

theorem State.writeKMod_error {s : State} {kd : KIdx} {ms : ModSel} {f : Nat → Except ErrCode Nat} {e : ErrCode}
    (h : s.inputs.modulus ms = .error e) : s.writeKMod kd ms f = .next (s.commitError e) := by
  simp [State.writeKMod, h]

theorem State.writePtCurve_error {s : State} {pd : PIdx} {cs : CurveSel} {f : Curve → Except ErrCode Point} {e : ErrCode}
    (h : s.inputs.curve cs = .error e) : s.writePtCurve pd cs f = .next (s.commitError e) := by
  simp [State.writePtCurve, h]

/-- A command that uses MS ends with the error of its modulus (30_encoding.md R102, R106). -/
theorem exec_of_modulus_error {i : Instr} {s : State} {ms : ModSel} {e : ErrCode} (hi : i.modSel? = some ms)
    (h : s.inputs.modulus ms = .error e) : exec i s = .next (s.commitError e) := by
  cases i with
  | ldc kd _ => cases hi; simp [exec_ldc, execLdc, h]
  | fadd _ _ _ _ | fsub _ _ _ _ | fmul _ _ _ _ | fpow _ _ _ _ | finv _ _ _ | fleg _ _ _ | fsqrt _ _ _ =>
    cases hi
    exact State.writeKMod_error h
  | _ => cases hi

/-- A command that uses CS ends with the error of its curve (30_encoding.md R103, R106). -/
theorem exec_of_curve_error {i : Instr} {s : State} {cs : CurveSel} {e : ErrCode} (hi : i.curveSel? = some cs)
    (h : s.inputs.curve cs = .error e) : exec i s = .next (s.commitError e) := by
  cases i with
  | weval kd ka _ => cases hi; simp [exec_weval, execWEval, h]
  | wvalid pa _ => cases hi; simp [exec_wvalid, execWValid, h]
  | wadd _ _ _ _ | wdbl _ _ _ | wneg _ _ _ | wmul _ _ _ _ | wdec _ _ =>
    cases hi
    exact State.writePtCurve_error h
  | _ => cases hi

/-- The MS of an ill-formed command is one of the reserved values (30_encoding.md R102). -/
theorem modSel_of_not_wf {i : Instr} (h : i.wf = false) : ∃ ms, i.modSel? = some ms ∧ ms.legal = false := by
  unfold Instr.wf at h
  split at h
  next ms hms => exact ⟨ms, hms, h⟩
  next => cases h

theorem Regs.modulus_reserved (r : Regs) {ms : ModSel} (h : ms.legal = false) : r.modulus ms = .error .illegalCmd := by
  cases ms with
  | rsv5 | rsv6 | rsv7 => rfl
  | _ => cases h

theorem Regs.modulus_up_error {r : Regs} (h : r.ucv = false) : r.modulus .up = .error .noCurve := by
  simp [Regs.modulus, h]

theorem Regs.curve_user_error {r : Regs} (h : r.ucv = false) : r.curve .user = .error .noCurve := by
  simp [Regs.curve, h]

/-- Settles O12: both errors come from the operand that MS or CS selects. -/
theorem reservedModulusAndMissingCurveFail : Obligations.ReservedModulusAndMissingCurveFail := by
  intro i s
  refine ⟨fun hwf => ?_, fun hu hsel => ?_⟩
  · obtain ⟨ms, hms, hl⟩ := modSel_of_not_wf hwf
    exact ⟨_, exec_of_modulus_error hms (s.inputs.modulus_reserved hl), s.commitError_failed _⟩
  · rcases hsel with hcs | hms
    · exact ⟨_, exec_of_curve_error hcs (Regs.curve_user_error hu), s.commitError_failed _⟩
    · exact ⟨_, exec_of_modulus_error hms (Regs.modulus_up_error hu), s.commitError_failed _⟩

end Sys2Proof.Machine
end

section
/-! SUPPORT. Over an odd prime field a scalar multiple of a point with a regular Y always exists: no doubling and no
addition on the way lacks its inverse (41_weierstrass.md R183, R184, R186). -/

namespace Sys2Proof.Machine

variable {c : Curve}

/-- A reduced Y is regular. -/
theorem yRegular_of_lt {p x y : Nat} (h : y < p) : Claims.YRegular p (.finite x y) := by
  by_cases hy : y = 0
  · exact .inl hy
  · exact .inr (by rwa [Nat.mod_eq_of_lt h])

theorem wDouble_of_yRegular (hp : c.p.Prime) (h2 : c.p ≠ 2) {P : Point} (h : Claims.YRegular c.p P) :
    ∃ R, wDouble c P = .ok R ∧ Claims.YRegular c.p R := by
  cases P with
  | identity => exact ⟨.identity, rfl, trivial⟩
  | finite x y =>
    rcases wDouble_finite_cases (c := c) hp.two_le x y with ⟨-, he⟩ | ⟨hy, hunit, -⟩ | ⟨-, -, rx, ry, he, -, hry, -⟩
    · exact ⟨_, he, trivial⟩
    · refine absurd (Nat.Coprime.mul_left ?_ ?_) hunit
      · exact (Nat.coprime_primes Nat.prime_two hp).2 h2.symm
      · exact ((Nat.Prime.coprime_iff_not_dvd hp).2 fun hd => h.resolve_left hy (Nat.mod_eq_zero_of_dvd hd)).symm
    · exact ⟨_, he, yRegular_of_lt hry⟩

theorem wAdd_of_yRegular (hp : c.p.Prime) (h2 : c.p ≠ 2) {P Q : Point} (hP : Claims.YRegular c.p P)
    (hQ : Claims.YRegular c.p Q) : ∃ R, wAdd c P Q = .ok R ∧ Claims.YRegular c.p R := by
  cases P with
  | identity => exact ⟨Q, rfl, hQ⟩
  | finite px py =>
    cases Q with
    | identity => exact ⟨_, rfl, hP⟩
    | finite qx qy =>
      by_cases heq : px = qx ∧ py = qy
      · rw [wAdd, if_pos heq]
        exact wDouble_of_yRegular hp h2 hP
      · rcases wAdd_finite_cases (c := c) hp.two_le heq with ⟨-, he⟩ | ⟨hx, hunit, -⟩ | ⟨-, -, rx, ry, he, -, hry, -⟩
        · exact ⟨_, he, trivial⟩
        · refine absurd ?_ hunit
          rw [Int.gcd_comm]
          refine Int.isCoprime_iff_gcd_eq_one.1 ((Prime.coprime_iff_not_dvd (Nat.prime_iff_prime_int.1 hp)).2 fun hd => hx ?_)
          exact Nat.modEq_iff_dvd.2 hd
        · exact ⟨_, he, yRegular_of_lt hry⟩

/-- WMul answers a point for every scalar (41_weierstrass.md R186). -/
theorem wMul_of_yRegular (hp : c.p.Prime) (h2 : c.p ≠ 2) {P : Point} (h : Claims.YRegular c.p P) (k : Nat) :
    ∃ R, wMul c P k = .ok R := by
  by_cases hk : k = 0
  · subst hk; exact ⟨_, rfl⟩
  · rw [wMul_of_ne_zero hk]
    obtain ⟨R, hR, -⟩ := wMulLoop_ok (Claims.YRegular c.p) (fun _ ha => wDouble_of_yRegular hp h2 ha)
      (fun _ ha => wAdd_of_yRegular hp h2 ha h) (bitlen k - 1) P h
    exact ⟨R, hR⟩

/-- Every multiple of the generator of secp256k1 exists (43_ecdsa.md R274). -/
theorem wMul_genG (k : Nat) : ∃ R, wMul secp256k1 genG k = .ok R :=
  wMul_of_yRegular (c := secp256k1) prime_P256 (by decide +kernel) (yRegular_of_lt (by decide +kernel)) k

end Sys2Proof.Machine
end

section
/-! SUPPORT. EXEC whole: the state its two writes leave, the rounds of its poll loop, and where that loop ends
(30_encoding.md R111; 60_exceptions.md R330, R353). -/

namespace Sys2Proof.Machine

/-! ## The two writes -/

/-- The state that EXEC's CMD and CTRL writes leave, with `moves` still to come. -/
def State.started (s : State) (w : Word) (h q : Bool) (moves : List Event) : State :=
  { State.accept { s with regs := { s.regs with cmd := w } } h q with bus := .okayWrite, events := moves }

theorem run_execStart_started {s : State} (w : Word) (h q : Bool) {moves : List Event} (hb : s.busy = false)
    (hr : s.inReset = false) (he : s.events = execStart w h q ++ moves) :
    Host.Core.run Sys2Proof.core 2 s = .next (s.started w h q moves) := by
  have hs : s = { s with events := execStart w h q ++ moves } := by rw [← he]
  rw [hs]
  exact run_execStart s w h q moves hb hr

/-- EXEC after its writes is the poll loop (30_encoding.md R111). -/
theorem State.execCommand_eq {s : State} (w : Word) (h q : Bool) (rounds : List (List Event)) (hb : s.busy = false)
    (hr : s.inReset = false) : s.execCommand w h q rounds = (s.started w h q []).pollUntilDone rounds := by
  have hrun : s.runMoves (execStart w h q) = .next (s.started w h q []) :=
    run_execStart_started (s := { s with events := execStart w h q }) w h q hb hr (List.append_nil _).symm
  rw [State.execCommand, hrun]

/-- The engine's first turn runs the accepted command. -/
theorem engineTurn_started {s : State} {w : Word} {i : Instr} (h q : Bool) (moves : List Event) (hr : s.inReset = false)
    (hi : decode w = .ok i) : engineTurn (s.started w h q moves) = exec i (s.started w h q moves) :=
  engineTurn_command (snap := { s.regs with cmd := w, harden := h }) hr rfl nofun hi

/-! ## The poll loop -/

/-- A round whose poll reads DONE = 1 is the last one. -/
theorem State.pollUntilDone_stop {s t : State} {moves : List Event} {rounds : List (List Event)}
    (h : s.runMoves (moves ++ [evRd 0x008]) = .next t) (hd : t.polledDone = true) :
    s.pollUntilDone (moves :: rounds) = .next t := by
  simp [State.pollUntilDone, h, hd]

/-- After a round whose poll reads DONE = 0 the loop goes on. -/
theorem State.pollUntilDone_again {s t : State} {moves : List Event} {rounds : List (List Event)}
    (h : s.runMoves (moves ++ [evRd 0x008]) = .next t) (hd : t.polledDone = false) :
    s.pollUntilDone (moves :: rounds) = t.pollUntilDone rounds := by
  simp [State.pollUntilDone, h, hd]

/-- The state after a poll that found `t`. -/
def State.polled (t : State) : State := { t with events := [], bus := .okayRead t.statusWord }

theorem State.polled_polledDone (t : State) : t.polled.polledDone = t.done := State.polledDone_eq rfl

/-! ## Commands without a draw -/

/-- A command without a draw ends by `finish`, W.CONS apart (60_exceptions.md R331). -/
theorem exec_eq_finish {i : Instr} (hi : Claims.draws i = false) (hc : i ≠ .wcons) (s : State) :
    ∃ body, exec i s = s.finish body := by
  cases i with
  | mrand | ekeygen | esign => cases hi
  | wcons => exact absurd rfl hc
  | nop | wldg | mldg | h2i | fprime | madd | mdbl | mmul => exact ⟨.ok (_, _), rfl⟩
  | _ => exact ⟨_, rfl⟩

/-- A command without a draw commits in its one turn (60_exceptions.md R331). -/
theorem exec_commits {i : Instr} {s t : State} (hi : Claims.draws i = false) (h : exec i s = .next t) :
    t.busy = false ∧ t.done = true := by
  by_cases hc : i = .wcons
  · subst hc
    rcases execWCons_cases h with ⟨-, rfl⟩ | ⟨_, -, rfl⟩
    · exact ⟨rfl, rfl⟩
    · exact ⟨rfl, rfl⟩
  · obtain ⟨body, hx⟩ := exec_eq_finish hi hc s
    rcases State.finish_cases (hx.symm.trans h) with ⟨_, _, -, rfl⟩ | ⟨_, -, rfl⟩
    · exact ⟨rfl, rfl⟩
    · exact ⟨rfl, rfl⟩

/-! ## Commands with a draw -/

/-- A drawing command's turn with no request issued is its request (60_exceptions.md R352). -/
theorem exec_requests {i : Instr} {s : State} (hi : Claims.draws i = true) (hp : s.port = .idle) :
    ∃ bound, exec i s = .next (s.requestDraw bound 0) := by
  have of_drawTurn : ∀ bound body, s.drawTurn bound body = .next (s.requestDraw bound 0) := fun bound body => by
    simp [State.drawTurn, hp]
  cases i with
  | mrand | ekeygen | esign => exact ⟨_, of_drawTurn _ _⟩
  | _ => cases hi

/-- The engine waits while a request is pending (60_exceptions.md R353). -/
theorem engineTurn_pending {s : State} {snap : Regs} {id bound n : Nat} (hp : s.phase = .busy snap (.pending id bound) n) :
    engineTurn s = .next s := by
  simp [engineTurn, hp]

/-- `i` runs and no answer of the random source has arrived. -/
structure State.Unanswered (i : Instr) (s : State) : Prop where
  released : s.inReset = false
  notDone : s.done = false
  runs : ∃ snap rng n, s.phase = .busy snap rng n ∧ snap.command = .ok i ∧ (rng = .idle ∨ ∃ id bound, rng = .pending id bound)

theorem State.Unanswered.busy {i : Instr} {s : State} (h : s.Unanswered i) : s.busy = true := by
  obtain ⟨snap, rng, n, hp, -⟩ := h.runs
  exact State.busy_iff.2 ⟨snap, rng, n, hp⟩

/-- Without an answer the engine's turn requests or waits. -/
theorem State.Unanswered.engineTurn {i : Instr} {s : State} (hi : Claims.draws i = true) (h : s.Unanswered i) :
    ∃ t, engineTurn s = .next t ∧ t.Unanswered i ∧ t.events = s.events := by
  obtain ⟨snap, rng, n, hp, hc, rfl | ⟨id, bound, rfl⟩⟩ := h.runs
  · obtain ⟨bound, hx⟩ := exec_requests hi (State.port_busy hp)
    refine ⟨_, (engineTurn_command h.released hp nofun hc).trans hx, ⟨h.released, h.notDone, ?_⟩, rfl⟩
    exact ⟨s.inputs, _, 0, rfl, (State.inputs_busy hp).symm ▸ hc, .inr ⟨_, _, rfl⟩⟩
  · exact ⟨s, engineTurn_pending hp, h, rfl⟩

/-- A poll loop in which the random source never answers never sees DONE (30_encoding.md R111). -/
theorem State.Unanswered.pollUntilDone {i : Instr} (hi : Claims.draws i = true) : ∀ (n : Nat) (s : State), s.Unanswered i →
    s.polledDone = false → ∃ t, s.pollUntilDone (List.replicate n [.engine]) = .next t ∧ t.Unanswered i ∧ t.polledDone = false
  | 0, s, h, hd => ⟨s, rfl, h, hd⟩
  | n + 1, s, h, _ => by
    obtain ⟨t, hturn, ht, he⟩ :=
      State.Unanswered.engineTurn (s := { s with events := [evRd 0x008] }) hi ⟨h.released, h.notDone, h.runs⟩
    have hround := State.runMoves_turn hturn ht.released he
    have hd : t.polled.polledDone = false := t.polled_polledDone.trans ht.notDone
    obtain ⟨u, hrest, hu⟩ := State.Unanswered.pollUntilDone hi n t.polled ⟨ht.released, ht.notDone, ht.runs⟩ hd
    exact ⟨u, (State.pollUntilDone_again hround hd).trans hrest, hu⟩

/-! ## E.KEYGEN with its answer -/

/-- E.KEYGEN's turn on the answer `d` commits `d` and its multiple of the generator (43_ecdsa.md R274). -/
theorem execEKeygen_answered {s : State} {pd : PIdx} {kd : KIdx} {bound d : Nat} {R : Point}
    (hp : s.port = .answered bound (.value d)) (hR : wMul secp256k1 genG d = .ok R) :
    exec (.ekeygen pd kd) s = .next (s.commitOk ((s.regs.setK kd d).setPt pd R) false) := by
  simp [exec_ekeygen, execEKeygen, State.drawTurn, hp, hR]

/-- The awaited answer, when it is below its bound, is handed over (60_exceptions.md R352). -/
theorem State.deliver_value {s : State} {snap : Regs} {id bound n v : Nat} (hp : s.phase = .busy snap (.pending id bound) n)
    (hv : v < bound) : s.deliver id (.value v) = .next { s with phase := .busy snap (.answered bound (.value v)) n } := by
  simp [State.deliver, hp, hv]

/-- One round of the poll loop in which the random source answers before the engine's turn. -/
theorem State.runMoves_answer {s a t : State} {id : Nat} {x : RngAnswer}
    (hd : State.deliver { s with events := [.engine, evRd 0x008] } id x = .next a) (ha : a.events = [.engine, evRd 0x008])
    (ht : engineTurn { a with events := [evRd 0x008] } = .next t) (hr : t.inReset = false) (he : t.events = [evRd 0x008]) :
    s.runMoves ([.rng id x, .engine] ++ [evRd 0x008]) = .next t.polled := by
  have hdeliver : step { s with events := [.rng id x, .engine, evRd 0x008] } = .next a :=
    (step_cons (e := .rng id x) (rest := [.engine, evRd 0x008]) rfl).trans hd
  exact (run_step 2 hdeliver).trans (run_two ((step_cons ha).trans ht) (step_poll hr he))

/-- The first round of EXEC of E.KEYGEN is its request (43_ecdsa.md R274). -/
theorem State.started_requests {s : State} {w : Word} {pd : PIdx} {kd : KIdx} (h q : Bool) (hr : s.inReset = false)
    (hi : decode w = .ok (.ekeygen pd kd)) : (s.started w h q []).runMoves ([.engine] ++ [evRd 0x008]) =
      .next ((s.started w h q [evRd 0x008]).requestDraw N256 0).polled :=
  State.runMoves_turn (s := s.started w h q []) ((engineTurn_started h q [evRd 0x008] hr hi).trans rfl) hr rfl

/-- The poll loop of E.KEYGEN ends in the round that answers its pending request (43_ecdsa.md R274). -/
theorem State.pollUntilDone_ekeygen {s : State} {snap : Regs} {id n : Nat} {pd : PIdx} {kd : KIdx} {d : Nat} {R : Point}
    (rounds : List (List Event)) (hr : s.inReset = false) (hp : s.phase = .busy snap (.pending id N256) n)
    (hc : snap.command = .ok (.ekeygen pd kd)) (hd : d < N256) (hR : wMul secp256k1 genG d = .ok R) :
    ∃ u : State, s.pollUntilDone ([.rng id (.value d), .engine] :: rounds) =
      .next (u.commitOk ((u.regs.setK kd d).setPt pd R) false).polled := by
  have hdeliver := State.deliver_value (s := { s with events := [.engine, evRd 0x008] }) hp hd
  have hturn := (engineTurn_command
    (s := { s with events := [evRd 0x008], phase := .busy snap (.answered N256 (.value d)) n }) hr rfl nofun hc).trans
    (execEKeygen_answered rfl hR)
  exact ⟨_, State.pollUntilDone_stop (State.runMoves_answer hdeliver rfl hturn hr rfl) (State.polled_polledDone _)⟩

/-- Settles O7: after its two writes EXEC is its poll loop, whose first round runs the command and whose later ones wait
for the random source. -/
theorem execPseudoInstructionRunsTheCommand : Obligations.ExecPseudoInstructionRunsTheCommand := by
  intro s w h q i hb hr hi
  refine ⟨fun rest he => ?_, fun hd rounds => ?_, fun pd kd d rounds hk hd => ?_, fun hd n => ?_⟩
  · exact ⟨_, run_execStart_started w h q hb hr he, rfl, rfl, rfl, rfl, rfl,
      (step_cons (e := .engine) (rest := evRd 0x008 :: rest) rfl).trans (engineTurn_started h q (evRd 0x008 :: rest) hr hi)⟩
  · obtain ⟨v, hx⟩ := exec_next i (s.started w h q [evRd 0x008])
    obtain ⟨hidle, hdone⟩ := exec_commits hd hx
    obtain ⟨-, -, -, hreset, hevents, -⟩ := exec_frame hx
    have hround := State.runMoves_turn (s := s.started w h q []) ((engineTurn_started h q _ hr hi).trans hx)
      (hreset.trans hr) hevents
    refine ⟨s.started w h q [evRd 0x008], v, v.polled, rfl, rfl, rfl, hx, ?_, rfl, rfl, rfl, hidle, hdone, rfl⟩
    rw [State.execCommand_eq w h q _ hb hr]
    exact State.pollUntilDone_stop hround (v.polled_polledDone.trans hdone)
  · subst hk
    obtain ⟨R, hR⟩ := wMul_genG d
    obtain ⟨u, hu⟩ := State.pollUntilDone_ekeygen
      (s := ((s.started w h q [evRd 0x008]).requestDraw N256 0).polled) rounds hr rfl hi hd hR
    have hk : (u.regs.setK kd d).kNat kd = d := by
      rw [Regs.kNat_setK u.regs kd kd d (hd.trans (by decide +kernel)), if_pos rfl]
    have hloop := (State.execCommand_eq w h q _ hb hr).trans
      ((State.pollUntilDone_again (State.started_requests h q hr hi) (State.polled_polledDone _)).trans hu)
    exact ⟨_, hloop, rfl, rfl, rfl, hk, rfl⟩
  · obtain ⟨t, ht, hw, hp⟩ := State.Unanswered.pollUntilDone hd n (s.started w h q []) ⟨hr, rfl, _, _, _, rfl, hi, .inl rfl⟩ rfl
    exact ⟨t, (State.execCommand_eq w h q _ hb hr).trans ht, hw.busy, hw.notDone, hp⟩

end Sys2Proof.Machine
end

section
/-! SUPPORT. The field-operation commands: the value of FieldOps that each of them commits, and the verdict of F.PRIME
(40_field_ops.md R150 to R157). -/

namespace Sys2Proof.Machine

/-! ## How these commands end -/

/-- A success commit is the claims' `Committed` on the registers it writes. -/
theorem State.commitOk_committed (s : State) (r : Regs) (b : Bool) : Claims.Committed s r b (s.commitOk r b) :=
  ⟨rfl, rfl, rfl, rfl, rfl, rfl, rfl, rfl, rfl, rfl⟩

section
variable {s : State} {kd : KIdx} {ms : ModSel} {f : Nat → Except ErrCode Nat} {m : Nat}

/-- A field command whose function answers `v` commits `v` to K[KD] with RESULT 0 (40_field_ops.md section 2). -/
theorem State.writeKMod_committed {v : Nat} (hm : s.inputs.modulus ms = .ok m) (hv : f m = .ok v) :
    ∃ t, s.writeKMod kd ms f = .next t ∧ Claims.Committed s (s.regs.setK kd v) false t :=
  ⟨_, State.writeKMod_ok hm hv, s.commitOk_committed _ _⟩

/-- A field command whose function fails ends with that error and writes no register (60_exceptions.md R331). -/
theorem State.writeKMod_failed {e : ErrCode} (hm : s.inputs.modulus ms = .ok m) (hv : f m = .error e) :
    ∃ t, s.writeKMod kd ms f = .next t ∧ Claims.Failed s s.regs e t :=
  ⟨_, by simp [State.writeKMod, hm, hv], s.commitError_failed e⟩

end

/-! ## F.ADD, F.SUB, F.MUL and F.POW -/

/-- FSub as the natural number that the integer remainder is (40_field_ops.md R133). -/
theorem fSub_eq_toNat {a b m : Nat} (h : 0 < m) : fSub a b m = (((a : ℤ) - b) % m).toNat := by
  rw [← fSub_eq_emod h, Int.toNat_natCast]

/-- Settles O31: each of the four commits its FieldOps function of the unreduced operands. -/
theorem fieldAddSubMulPowResults : Obligations.FieldAddSubMulPowResults := by
  intro s kd ka kb ms m hm h2
  have h0 : 0 < m := by omega
  refine ⟨?_, ?_, ?_, ?_⟩
  · exact State.writeKMod_committed hm rfl
  · exact State.writeKMod_committed hm (congrArg Except.ok (fSub_eq_toNat h0))
  · exact State.writeKMod_committed hm rfl
  · exact State.writeKMod_committed hm (congrArg Except.ok (fPow_eq h0))

/-! ## F.INV -/

/-- A number coprime to `m` has at most one inverse below `m` (40_field_ops.md R136). -/
theorem eq_of_mul_mod_eq_one {a b b' m : Nat} (hg : Nat.gcd a m = 1) (hb : b < m) (hb' : b' < m)
    (h : a * b % m = 1) (h' : a * b' % m = 1) : b' = b :=
  (Nat.ModEq.cancel_left_of_coprime (Nat.gcd_comm m a ▸ hg) (h'.trans h.symm)).eq_of_lt_of_lt hb' hb

/-- Settles O32: the two cases of FInv; an inverse is not 0, since its product with the operand is 1. -/
theorem fieldInverseResult : Obligations.FieldInverseResult := by
  intro s kd ka ms m hm h2 a
  rcases fInv_cases a h2 with ⟨hg, hf⟩ | ⟨hg, b, hf, hb, hinv⟩
  · exact ⟨fun h => absurd h hg, fun _ => State.writeKMod_failed hm hf⟩
  · obtain ⟨t, ht, hc⟩ := State.writeKMod_committed (kd := kd) hm hf
    have hmod : a % m * b % m = 1 := (Nat.mod_mul_mod a b m).trans hinv
    have hpos : 1 ≤ b := by
      rcases Nat.eq_zero_or_pos b with rfl | h
      · simp at hinv
      · exact h
    exact ⟨fun _ => ⟨b, t, ht, hc, hpos, hb, hmod, fun b' hb' h' => eq_of_mul_mod_eq_one hg hb hb' hmod h'⟩,
      fun h => absurd hg h⟩

/-! ## F.LEG -/

/-- The residue of a verdict is 0, 1 or m - 1 (40_field_ops.md R155). -/
theorem legResidue_cases (m : Nat) (l : Legendre) : legResidue m l = 0 ∨ legResidue m l = 1 ∨ legResidue m l = m - 1 := by
  cases l with
  | zero => exact .inl rfl
  | plusOne => exact .inr (.inl rfl)
  | minusOne => exact .inr (.inr rfl)

/-- Modulo at least 3 the three residues differ, so each tells its verdict (40_field_ops.md R155). -/
theorem legResidue_iff {m : Nat} (h3 : 3 ≤ m) (l : Legendre) : (legResidue m l = 0 ↔ l = .zero) ∧
    (legResidue m l = 1 ↔ l = .plusOne) ∧ (legResidue m l = m - 1 ↔ l = .minusOne) := by
  cases l <;> simp [legResidue] <;> omega

/-- FLeg over an odd prime answers 0 exactly on the multiples of it (40_field_ops.md R138). -/
theorem fLeg_zero_iff {a m : Nat} (d : Nat) (hp : m.Prime) (h2 : m ≠ 2) : fLeg a m d = .zero ↔ m ∣ a := by
  rcases fLeg_cases (a := a) d hp h2 with ⟨h, hd⟩ | ⟨h, hd, -⟩ | ⟨h, hd, -⟩ <;> simp [h, hd]

/-- FLeg over an odd prime answers +1 exactly on the non-zero squares (40_field_ops.md R138). -/
theorem fLeg_plusOne_iff {a m : Nat} (d : Nat) (hp : m.Prime) (h2 : m ≠ 2) :
    fLeg a m d = .plusOne ↔ ¬ m ∣ a ∧ IsSquare (a : ZMod m) := by
  rcases fLeg_cases (a := a) d hp h2 with ⟨h, hd⟩ | ⟨h, hd, hs⟩ | ⟨h, -, hs⟩ <;> rw [h]
  · simp [hd]
  · simp [hd, hs]
  · simp [hs]

/-- Settles O33: the residue written tells FLeg's verdict, which over an odd prime is the Legendre symbol. -/
theorem fieldLegendreResult : Obligations.FieldLegendreResult := by
  intro s kd ka ms m hm h2 a
  obtain ⟨t, ht, hc⟩ := State.writeKMod_committed (kd := kd) (f := fun m => .ok (legResidue m (fLeg a m s.draws))) hm rfl
  refine ⟨_, t, ht, hc, legResidue_cases m _, fun hp hne => ?_⟩
  obtain ⟨hzero, hplus, hminus⟩ := legResidue_iff (by omega : 3 ≤ m) (fLeg a m s.draws)
  exact ⟨hzero.trans (fLeg_zero_iff _ hp hne), hplus.trans (fLeg_plusOne_iff _ hp hne),
    hminus.trans (fLeg_minusOne_iff _ hp hne)⟩

/-! ## F.SQRT -/

/-- The root formula on numbers: over a prime m ≡ 3 (mod 4) its value squares to a square operand (40_field_ops.md R139). -/
theorem sqrt_formula_sq_mod {a m : Nat} (hp : m.Prime) (h3 : m % 4 = 3) (hs : IsSquare (a : ZMod m)) :
    (a ^ ((m + 1) / 4) % m) ^ 2 % m = a % m := by
  rw [← Nat.pow_mod]
  refine (ZMod.natCast_eq_natCast_iff' _ _ m).1 ?_
  push_cast
  exact sqrt_formula_sq hp h3 hs

/-- FSqrt is its formula for every operand (40_field_ops.md R139). -/
theorem fSqrt_eq {a m : Nat} (h : 0 < m) : fSqrt a m = a ^ ((m + 1) / 4) % m := fPow_eq h

/-- Settles O34: FSqrt's value is the formula's, and the formula gives a root of a square. -/
theorem fieldSqrtResult : Obligations.FieldSqrtResult := by
  intro s kd ka ms m hm h2 a
  obtain ⟨t, ht, hc⟩ := State.writeKMod_committed (kd := kd) (f := fun m => .ok (fSqrt a m)) hm
    (congrArg Except.ok (fSqrt_eq (by omega)))
  exact ⟨t, ht, hc, sqrt_formula_sq_mod⟩

/-! ## F.PRIME -/

/-- Settles O35: FPrime's verdict is RESULT, and the registers are as they were. -/
theorem primalityVerdict : Obligations.PrimalityVerdict := by
  intro s ka v
  exact ⟨fPrime v s.draws, _, rfl, s.commitOk_committed _ _, fPrime_lt_two s.draws,
    fun hp => fPrime_of_isPrime s.draws hp.two_le ((isPrime_iff v).2 hp)⟩

end Sys2Proof.Machine
end

section
/-! SUPPORT. The point commands: the curve that W.CONS accepts, and the points that W.DBL, W.ADD and W.NEG commit
(41_weierstrass.md R170 to R173, R176). -/

namespace Sys2Proof.Machine

/-! ## How these commands end -/

section
variable {s : State} {pd : PIdx} {cs : CurveSel} {f : Curve → Except ErrCode Point} {c : Curve}

/-- A point command whose function answers `P` commits `P` to PR[PD] with RESULT 0 (41_weierstrass.md R182). -/
theorem State.writePtCurve_committed {P : Point} (hc : s.inputs.curve cs = .ok c) (hf : f c = .ok P) :
    ∃ t, s.writePtCurve pd cs f = .next t ∧ Claims.Committed s (s.regs.setPt pd P) false t :=
  ⟨_, State.writePtCurve_ok hc hf, s.commitOk_committed _ _⟩

/-- A point command whose function fails ends with that error and writes no register (60_exceptions.md R331). -/
theorem State.writePtCurve_failed {e : ErrCode} (hc : s.inputs.curve cs = .ok c) (hf : f c = .error e) :
    ∃ t, s.writePtCurve pd cs f = .next t ∧ Claims.Failed s s.regs e t :=
  ⟨_, by simp [State.writePtCurve, hc, hf], s.commitError_failed e⟩

end

/-! ## W.CONS -/

/-- W.CONS with its checks passed sets UCV (41_weierstrass.md R170). -/
theorem exec_wcons_committed {s : State}
    (h : wConstruct s.inputs.ua.toNat s.inputs.ub.toNat s.inputs.up.toNat s.draws = .ok ()) :
    ∃ t, exec .wcons s = .next t ∧ Claims.Committed s (s.regs.setUcv true) false t :=
  ⟨_, by simp only [exec_wcons, execWCons, h], s.commitOk_committed _ _⟩

/-- W.CONS with a failed check clears UCV, "the one state a failed command writes" (41_weierstrass.md R170). -/
theorem exec_wcons_failed {s : State} {e : ErrCode}
    (h : wConstruct s.inputs.ua.toNat s.inputs.ub.toNat s.inputs.up.toNat s.draws = .error e) :
    ∃ t, exec .wcons s = .next t ∧ Claims.Failed s (s.regs.setUcv false) e t :=
  ⟨{ s with regs := s.regs.setUcv false }.commitError e, by simp only [exec_wcons, execWCons, h],
    State.commitError_failed _ e⟩

section
variable {a b p d : Nat}

theorem wConstruct_range (h : 2 ^ 256 ≤ p) : wConstruct a b p d = .error .range := if_pos h

theorem wConstruct_not_prime (h : p < 2 ^ 256) (hp : fPrime p d = false) : wConstruct a b p d = .error .singularCurve := by
  rw [wConstruct, if_neg h.not_ge, if_pos hp]

theorem wConstruct_prime (h : p < 2 ^ 256) (hp : fPrime p d = true) :
    wConstruct a b p d = if (4 * a ^ 3 + 27 * b ^ 2) % p = 0 then .error .singularCurve else .ok () := by
  have h0 : 0 < p := Nat.zero_lt_of_lt (two_le_of_fPrime hp)
  rw [wConstruct, if_neg h.not_ge, if_neg (by simp [hp]), wDisc_eq h0]

end

/-- FPrime turns down no prime (40_field_ops.md R137). -/
theorem not_prime_of_fPrime_false {v d : Nat} (h : fPrime v d = false) : ¬ v.Prime := fun hp =>
  absurd (h.symm.trans (fPrime_of_isPrime d hp.two_le ((isPrime_iff v).2 hp))) (by decide)

/-- Settles O39: RANGE before the primality verdict, and that before the discriminant. -/
theorem curveConstructionVerdict : Obligations.CurveConstructionVerdict := by
  intro s a b p
  refine ⟨fun h => exec_wcons_failed (wConstruct_range h), fun h => ?_, fun _ h hd => ?_, fun _ h hd => ?_⟩
  · exact exec_wcons_failed (wConstruct_not_prime (h.trans (by norm_num)) (fPrime_lt_two _ h))
  · cases hp : fPrime p s.draws with
    | false => exact exec_wcons_failed (wConstruct_not_prime h hp)
    | true => exact exec_wcons_failed ((wConstruct_prime h hp).trans (if_pos hd))
  · cases hp : fPrime p s.draws with
    | false =>
      obtain ⟨t, ht, hf⟩ := exec_wcons_failed (wConstruct_not_prime h hp)
      exact ⟨t, ht, .inr ⟨not_prime_of_fPrime_false hp, hf⟩⟩
    | true =>
      obtain ⟨t, ht, hc⟩ := exec_wcons_committed ((wConstruct_prime h hp).trans (if_neg hd))
      exact ⟨t, ht, .inl hc⟩

/-! ## W.DBL -/

/-- What WDouble answers is what W.DBL commits (41_weierstrass.md R172). -/
theorem exec_wdbl_committed {s : State} {pd pa : PIdx} {cs : CurveSel} {c : Curve} {P : Point}
    (hc : s.inputs.curve cs = .ok c) (h : wDouble c (s.inputs.pt pa) = .ok P) :
    ∃ t, exec (.wdbl pd pa cs) s = .next t ∧ Claims.Committed s (s.regs.setPt pd P) false t :=
  State.writePtCurve_committed hc h

/-- Settles O40: the cases of WDouble. -/
theorem pointDoubleResult : Obligations.PointDoubleResult := by
  intro s pd pa cs c hc h2
  refine ⟨fun hP => exec_wdbl_committed hc (by rw [hP]; rfl), fun x y hP => ?_⟩
  rcases wDouble_finite_cases h2 x y with ⟨hy, hd⟩ | ⟨hy, hu, hd⟩ | ⟨hy, hu, rx, ry, hd, hrx, hry, hsl⟩
  · exact ⟨fun _ => exec_wdbl_committed hc (hP ▸ hd), fun h => absurd hy h, fun h => absurd hy h⟩
  · exact ⟨fun h => absurd h hy, fun _ _ => State.writePtCurve_failed hc (hP ▸ hd), fun _ h => absurd h hu⟩
  · obtain ⟨t, ht, hcom⟩ := exec_wdbl_committed (pd := pd) hc (hP ▸ hd)
    exact ⟨fun h => absurd h hy, fun _ h => absurd hu h, fun _ _ => ⟨t, rx, ry, ht, hcom, hrx, hry, hsl⟩⟩

/-! ## W.ADD -/

theorem wAdd_identity_right (c : Curve) (P : Point) : wAdd c P .identity = .ok P := by
  cases P <;> rfl

/-- Points equal as stored are doubled (41_weierstrass.md R184). -/
theorem wAdd_self (c : Curve) (P : Point) : wAdd c P P = wDouble c P := by
  cases P with
  | identity => rfl
  | finite x y => exact if_pos ⟨rfl, rfl⟩

/-- What WAdd answers is what W.ADD commits (41_weierstrass.md R171). -/
theorem exec_wadd_committed {s : State} {pd pa pb : PIdx} {cs : CurveSel} {c : Curve} {P : Point}
    (hc : s.inputs.curve cs = .ok c) (h : wAdd c (s.inputs.pt pa) (s.inputs.pt pb) = .ok P) :
    ∃ t, exec (.wadd pd pa pb cs) s = .next t ∧ Claims.Committed s (s.regs.setPt pd P) false t :=
  State.writePtCurve_committed hc h

/-- Modulo a prime a difference that is not 0 has gcd 1 with it (41_weierstrass.md R184). -/
theorem gcd_sub_eq_one {p x y : Nat} (hp : p.Prime) (h : x % p ≠ y % p) : Int.gcd ((y : ℤ) - x) p = 1 := by
  rw [Int.gcd_comm, ← Int.isCoprime_iff_gcd_eq_one]
  exact (Prime.coprime_iff_not_dvd (Nat.prime_iff_prime_int.1 hp)).2 fun hd => h (Nat.modEq_iff_dvd.2 hd)

/-- Settles O41: an Identity operand, equal operands, and else the three cases of WAdd on different stored points; only
a composite p leaves a difference without inverse. -/
theorem pointAddResult : Obligations.PointAddResult := by
  intro s pd pa pb cs c hc h2
  refine ⟨fun hP => exec_wadd_committed hc (by rw [hP]; rfl),
    fun hQ => exec_wadd_committed hc (by rw [hQ, wAdd_identity_right]), fun hPQ => ?_, fun px py qx qy hP hQ hne => ?_⟩
  · simp only [exec_wadd, exec_wdbl, execWAdd, execWDbl, ← hPQ, wAdd_self]
  · rw [Ne, Prod.mk.injEq] at hne
    have hcases := wAdd_finite_cases h2 hne
    rw [← hP, ← hQ] at hcases
    rcases hcases with ⟨hx, ha⟩ | ⟨hx, hg, ha⟩ | ⟨hx, hg, rx, ry, ha, hrx, hry, hsl⟩
    · exact ⟨fun _ => exec_wadd_committed hc ha, fun h => absurd hx h, fun h => absurd hx h⟩
    · exact ⟨fun h => absurd h hx, fun _ _ => ⟨fun hp => hg (gcd_sub_eq_one hp hx), State.writePtCurve_failed hc ha⟩,
        fun _ h => absurd h hg⟩
    · obtain ⟨t, ht, hcom⟩ := exec_wadd_committed (pd := pd) hc ha
      exact ⟨fun h => absurd h hx, fun _ h => absurd hg h, fun _ _ => ⟨t, rx, ry, ht, hcom, hrx, hry, hsl⟩⟩

/-! ## W.NEG and W.VALID -/

/-- WNeg negates Y modulo p and keeps X as it is stored (41_weierstrass.md R185). -/
theorem wNeg_finite {c : Curve} (h : 0 < c.p) (x y : Nat) :
    wNeg c (.finite x y) = .finite x (-(y : ℤ) % (c.p : ℤ)).toNat := by
  rw [wNeg, fSub_eq_toNat h, Nat.cast_zero, zero_sub]

/-- W.VALID's RESULT is the verdict of WValid (41_weierstrass.md R176). -/
theorem exec_wvalid_committed {s : State} {pa : PIdx} {cs : CurveSel} {c : Curve} (hc : s.inputs.curve cs = .ok c) :
    ∃ t, exec (.wvalid pa cs) s = .next t ∧ Claims.Committed s s.regs (wValid c (s.inputs.pt pa)) t :=
  ⟨_, by simp [exec_wvalid, execWValid, hc], s.commitOk_committed _ _⟩

/-- Settles O42: WNeg is the negation modulo p, and WValid decides the curve equation. -/
theorem pointNegateAndValidity : Obligations.PointNegateAndValidity := by
  intro s pd pa cs c hc h2
  have h0 : 0 < c.p := by omega
  have hneg : ∀ {R}, wNeg c (s.inputs.pt pa) = R → ∃ t, exec (.wneg pd pa cs) s = .next t ∧
      Claims.Committed s (s.regs.setPt pd R) false t := fun h => State.writePtCurve_committed hc (congrArg Except.ok h)
  obtain ⟨t, ht, hv⟩ := exec_wvalid_committed (pa := pa) hc
  refine ⟨fun hP => ?_, fun x y hP => ?_⟩
  · rw [hP] at hneg hv
    exact ⟨hneg rfl, t, ht, hv⟩
  · rw [hP] at hneg hv
    exact ⟨hneg (wNeg_finite h0 x y), _, t, ht, hv, wValid_finite_iff h0 x y⟩

end Sys2Proof.Machine
end

section
/-! SUPPORT. Scalar multiplication: WMul by the bits of its scalar, where it fails, and that over a prime field the group
law stays on the curve (41_weierstrass.md R174, R183, R184, R186, R188). -/

namespace Sys2Proof.Machine

section
variable {c : Curve}

/-! ## WMul by its bits -/

/-- What WMul does with one further bit: it doubles, ends with the Identity if the double is the Identity, and else adds
the operand for a 1 bit (41_weierstrass.md R186). -/
def wMulStep (c : Curve) (P : Point) (bit : Bool) (acc : Point) : Except ErrCode Point := do
  let dbl ← wDouble c acc
  if dbl = .identity then return .identity
  else if bit then wAdd c dbl P else return dbl

/-- One round of WMul's loop is a step, after which the loop goes on: a double that is the Identity stays the Identity, so
the short-circuit changes no result. -/
theorem wMulLoop_succ (P : Point) (k n : Nat) (acc : Point) :
    wMulLoop c P k (n + 1) acc = wMulStep c P (k.testBit n) acc >>= wMulLoop c P k n := by
  have hid : ∀ n, wMulLoop c P k n .identity = .ok .identity := fun n => by cases n <;> rfl
  rw [wMulLoop, wMulStep]
  cases wDouble c acc with
  | error e => rfl
  | ok dbl =>
    cases dbl with
    | identity => simp [hid]
    | finite x y => cases k.testBit n <;> simp

/-- The loop's last round is the step with bit 0, and the rounds before it read the scalar without that bit. -/
theorem wMulLoop_succ_last (P : Point) (k : Nat) : ∀ n acc,
    wMulLoop c P k (n + 1) acc = wMulLoop c P (k / 2) n acc >>= wMulStep c P (k.testBit 0) := by
  intro n
  induction n with
  | zero => intro acc; rw [wMulLoop_succ]; exact bind_pure _
  | succ n ih =>
    intro acc
    rw [wMulLoop_succ, wMulLoop_succ P (k / 2), Nat.testBit_div_two, bind_assoc]
    exact congrArg _ (funext ih)

theorem bitlen_sub_one {k : Nat} (h : k ≠ 0) : bitlen k - 1 = k.log2 := by simp [bitlen, h]

/-- WMul of a scalar of at least two bits is the step with its last bit on WMul of the others. -/
theorem wMul_eq_step (P : Point) {k : Nat} (h : 2 ≤ k) :
    wMul c P k = wMul c P (k / 2) >>= wMulStep c P (k.testBit 0) := by
  have hlog : k.log2 = (k / 2).log2 + 1 := by rw [Nat.log2_def, if_pos h]
  rw [wMul_of_ne_zero (by omega), wMul_of_ne_zero (by omega), bitlen_sub_one (by omega), bitlen_sub_one (by omega), hlog,
    wMulLoop_succ_last]

/-! ## Where WMul fails -/

/-- A bind that fails failed in one of its parts. -/
theorem except_bind_eq_error {ε α β : Type} {x : Except ε α} {f : α → Except ε β} {e : ε} (h : (x >>= f) = .error e) :
    x = .error e ∨ ∃ a, x = .ok a ∧ f a = .error e := by
  cases x with
  | ok a => exact .inr ⟨a, rfl, h⟩
  | error e => cases h; exact .inl rfl

theorem fInv_error {a m : Nat} {e : ErrCode} (h : fInv a m = .error e) : e = .notInvertible := by
  unfold fInv at h
  split at h
  · cases h
  · cases h; rfl

theorem wDouble_error {P : Point} {e : ErrCode} (h : wDouble c P = .error e) : e = .notInvertible := by
  cases P with
  | identity => cases h
  | finite x y =>
    rw [wDouble] at h
    split at h
    · cases h
    · rcases except_bind_eq_error h with hi | ⟨_, -, hr⟩
      · exact fInv_error hi
      · cases hr

theorem wAdd_error {P Q : Point} {e : ErrCode} (h : wAdd c P Q = .error e) : e = .notInvertible := by
  cases P with
  | identity => cases h
  | finite px py =>
    cases Q with
    | identity => cases h
    | finite qx qy =>
      rw [wAdd] at h
      split at h
      · exact wDouble_error h
      · dsimp only at h
        split at h
        · cases h
        · rcases except_bind_eq_error h with hi | ⟨_, -, hr⟩
          · exact fInv_error hi
          · cases hr

theorem wMulStep_error {P acc : Point} {bit : Bool} {e : ErrCode} (h : wMulStep c P bit acc = .error e) :
    e = .notInvertible := by
  rcases except_bind_eq_error h with hd | ⟨dbl, -, hr⟩
  · exact wDouble_error hd
  · split at hr
    · cases hr
    · split at hr
      · exact wAdd_error hr
      · cases hr

/-- WMul fails only for want of an inverse (41_weierstrass.md R186). -/
theorem wMul_error {P : Point} {k : Nat} {e : ErrCode} (h : wMul c P k = .error e) : e = .notInvertible := by
  have hloop : ∀ n acc, wMulLoop c P k n acc = .error e → e = .notInvertible := by
    intro n
    induction n with
    | zero => intro acc h; cases h
    | succ n ih =>
      intro acc h
      rw [wMulLoop_succ] at h
      rcases except_bind_eq_error h with hs | ⟨r, -, hr⟩
      · exact wMulStep_error hs
      · exact ih r hr
  unfold wMul at h
  split at h
  · cases h
  · exact hloop _ _ h

/-! ## The group law stays on the curve -/

/-- The tangent at a point of the curve meets it again at the formula's point (41_weierstrass.md R183): the cubic that is
left of the equation on the tangent has `x` as a double root. -/
theorem tangent_point_on_curve {F : Type} [CommRing F] {a b x y sl rx ry : F} (h : y ^ 2 = x ^ 3 + a * x + b)
    (hsl : sl * (2 * y) = 3 * x ^ 2 + a) (hx : rx = sl ^ 2 - x - x) (hy : ry = sl * (x - rx) - y) :
    ry ^ 2 = rx ^ 3 + a * rx + b := by
  subst hy hx
  linear_combination h + (sl ^ 2 - x - x - x) * hsl

/-- The chord through two points of the curve with different abscissas meets it again at the formula's point
(41_weierstrass.md R184): the cubic that is left of the equation on the chord has `px` and `qx` as roots. -/
theorem chord_point_on_curve {F : Type} [Field F] {a b px py qx qy sl rx ry : F} (hP : py ^ 2 = px ^ 3 + a * px + b)
    (hQ : qy ^ 2 = qx ^ 3 + a * qx + b) (hne : qx - px ≠ 0) (hsl : sl * (qx - px) = qy - py) (hx : rx = sl ^ 2 - px - qx)
    (hy : ry = sl * (px - rx) - py) : ry ^ 2 = rx ^ 3 + a * rx + b := by
  subst hy hx
  refine mul_left_cancel₀ hne ?_
  linear_combination (qx - px) * hP + (sl ^ 2 - px - qx - px) * (hQ - hP + (qy + py + sl * (qx - px)) * hsl)

theorem wValid_of_wDouble (hp : c.p.Prime) {P R : Point} (hP : wValid c P = true) (h : wDouble c P = .ok R) :
    wValid c R = true := by
  cases P with
  | identity => cases h; rfl
  | finite x y =>
    rcases wDouble_finite_cases hp.two_le x y with ⟨-, hd⟩ | ⟨-, -, hd⟩ | ⟨-, -, rx, ry, hd, -, -, sl, hsl, hrx, hry⟩
    · cases hd.symm.trans h; rfl
    · cases hd.symm.trans h
    · cases hd.symm.trans h
      rw [wValid_finite_iff hp.pos] at hP ⊢
      exact tangent_point_on_curve hP hsl hrx hry

theorem wValid_of_wAdd (hp : c.p.Prime) {P Q R : Point} (hP : wValid c P = true) (hQ : wValid c Q = true)
    (h : wAdd c P Q = .ok R) : wValid c R = true := by
  cases P with
  | identity => cases h; exact hQ
  | finite px py =>
    cases Q with
    | identity => cases h; exact hP
    | finite qx qy =>
      by_cases heq : px = qx ∧ py = qy
      · rw [wAdd, if_pos heq] at h
        exact wValid_of_wDouble hp hP h
      · rcases wAdd_finite_cases hp.two_le heq with ⟨-, ha⟩ | ⟨-, -, ha⟩ | ⟨hx, -, rx, ry, ha, -, -, sl, hsl, hrx, hry⟩
        · cases ha.symm.trans h; rfl
        · cases ha.symm.trans h
        · cases ha.symm.trans h
          have := Fact.mk hp
          have hne : (qx : ZMod c.p) - px ≠ 0 := fun h0 =>
            hx ((ZMod.natCast_eq_natCast_iff' _ _ _).1 (sub_eq_zero.1 h0)).symm
          rw [wValid_finite_iff hp.pos] at hP hQ ⊢
          exact chord_point_on_curve hP hQ hne hsl hrx hry

theorem wValid_of_wMul (hp : c.p.Prime) {P R : Point} {k : Nat} (hP : wValid c P = true) (h : wMul c P k = .ok R) :
    wValid c R = true := by
  unfold wMul at h
  split at h
  · cases h; rfl
  · exact wMulLoop_induct (fun Q => wValid c Q = true) rfl (fun _ _ => wValid_of_wDouble hp)
      (fun _ _ ha => wValid_of_wAdd hp ha hP) _ P R hP h

end

/-! ## The statements -/

/-- Settles O43: the bit `b` is bit 0 of `2 * k + b`, and `k` is the scalar without it. -/
theorem scalarMultiplyByBits : Obligations.ScalarMultiplyByBits := by
  intro c P
  refine ⟨rfl, rfl, fun k b hk hb => ?_⟩
  have hbit : (2 * k + b).testBit 0 = decide (b = 1) := by rw [Nat.testBit_zero]; congr 2; omega
  rw [wMul_eq_step P (by omega), hbit, show (2 * k + b) / 2 = k by omega]
  exact bind_congr fun acc => by simp only [wMulStep, decide_eq_true_eq]

/-- Settles O44: WMul's errors are NOT_INVERTIBLE, and over a prime field a regular Y stays regular on the way. -/
theorem scalarMultiplyCompletes : Obligations.ScalarMultiplyCompletes := by
  intro s pd pa ka cs c hc
  refine ⟨fun R hR => State.writePtCurve_committed hc hR, fun e he => ?_, fun hp h2 hy => ?_⟩
  · obtain rfl := wMul_error he
    exact ⟨rfl, State.writePtCurve_failed hc he⟩
  · obtain ⟨R, hR⟩ := wMul_of_yRegular hp h2 hy (s.inputs.kNat ka)
    obtain ⟨t, ht⟩ := State.writePtCurve_committed (pd := pd) (f := fun c => wMul c (s.inputs.pt pa) (s.inputs.kNat ka)) hc hR
    exact ⟨R, t, hR, ht⟩

/-- Settles O45: the line's third point is on the curve, and every point WMul meets is a double or a sum. -/
theorem groupLawStaysOnTheCurve : Obligations.GroupLawStaysOnTheCurve := by
  intro c P Q R k hp hP hQ
  exact ⟨wValid_of_wDouble hp hP, wValid_of_wAdd hp hP hQ, wValid_of_wMul hp hP⟩

end Sys2Proof.Machine
end

section
/-! SUPPORT. Decompression, W.ENC and W.DEC: the root and its verdict, the bytes written, the point read, and that decoding
undoes encoding (41_weierstrass.md R175, R177, R178, R187). -/

namespace Sys2Proof.Machine

/-! ## W.EVAL -/

section
variable {c : Curve}

/-- WEval answers the formula's value or POINT_NOT_ON_CURVE, over an odd prime field by whether the right-hand side is a
square (41_weierstrass.md R187). -/
theorem wEval_isSquare_cases (h2 : 2 ≤ c.p) (x d : Nat) :
    (wEval c x d = .ok (((x ^ 3 + c.a * x + c.b) % c.p) ^ ((c.p + 1) / 4) % c.p) ∧
      (c.p.Prime → c.p ≠ 2 → IsSquare (((x ^ 3 + c.a * x + c.b) % c.p : Nat) : ZMod c.p))) ∨
    (wEval c x d = .error .pointNotOnCurve ∧
      (c.p.Prime → c.p ≠ 2 → ¬ IsSquare (((x ^ 3 + c.a * x + c.b) % c.p : Nat) : ZMod c.p))) := by
  rw [← wRhs_eq (by omega : 0 < c.p) x]
  rcases wEval_cases h2 x d with ⟨he, hl⟩ | ⟨he, hl⟩
  · exact .inl ⟨he, fun hp hne => not_not.1 fun hs => hl ((fLeg_minusOne_iff d hp hne).2 hs)⟩
  · exact .inr ⟨he, fun hp hne => (fLeg_minusOne_iff d hp hne).1 hl⟩

/-- Over a prime p ≡ 3 (mod 4) the formula's value is a y of the curve, if there is one (40_field_ops.md R139). -/
theorem onCurve_root (hp : c.p.Prime) (h3 : c.p % 4 = 3) {x : Nat}
    (hs : IsSquare (((x ^ 3 + c.a * x + c.b) % c.p : Nat) : ZMod c.p)) :
    Claims.OnCurve c x (((x ^ 3 + c.a * x + c.b) % c.p) ^ ((c.p + 1) / 4) % c.p) := by
  rw [Claims.OnCurve, ZMod.natCast_mod, Nat.cast_pow, sqrt_formula_sq hp h3 hs, ← wRhs_eq hp.pos, wRhs_cast]

end

/-- W.EVAL commits what WEval answers (41_weierstrass.md R175). -/
theorem exec_weval_eq {s : State} {kd ka : KIdx} {cs : CurveSel} {c : Curve} (hc : s.inputs.curve cs = .ok c) :
    exec (.weval kd ka cs) s =
      s.finish (wEval c (s.inputs.kNat ka) s.draws >>= fun y => .ok (s.regs.setK kd y, false)) := by
  simp only [exec_weval, execWEval, hc, except_ok_bind, except_pure]

/-- Settles O46: the two cases of WEval. -/
theorem decompressionResult : Obligations.DecompressionResult := by
  intro s kd ka cs c hc h2 x rhs y
  rw [exec_weval_eq hc]
  rcases wEval_isSquare_cases h2 x s.draws with ⟨he, hs⟩ | ⟨he, hs⟩
  · refine ⟨s.commitOk (s.regs.setK kd y) false, by rw [Regs.kNat, he]; rfl, .inl (s.commitOk_committed _ _),
      fun hp hne => ⟨iff_of_true rfl (hs hp hne), fun h3 _ => onCurve_root hp h3 (hs hp hne)⟩⟩
  · refine ⟨s.commitError .pointNotOnCurve, by rw [Regs.kNat, he]; rfl, .inr (s.commitError_failed _),
      fun hp hne => ⟨iff_of_false nofun (hs hp hne), fun _ => nofun⟩⟩

/-! ## The bytes of W.ENC -/

/-- Byte `j` of a big-endian string as a number (00_scope.md R13). -/
theorem beBytes_getD_toNat {n v j : Nat} (h : j < n) : ((beBytes n v).getD j 0).toNat = v / 256 ^ (n - 1 - j) % 256 := by
  rw [List.getD_eq_getElem?_getD, beBytes_getElem? n v j h, Option.getD_some, BitVec.toNat_ofNat]

theorem beN_ok {n v : Nat} (h : v < 2 ^ (8 * n)) : beN n v = .ok (beBytes n v) := if_pos h

theorem beN_error {n v : Nat} (h : 2 ^ (8 * n) ≤ v) : beN n v = .error .range := if_neg h.not_gt

section
variable {x y : Nat}

theorem wEncode_error_x (h : 2 ^ 256 ≤ x) (form : EncForm) : wEncode form (.finite x y) = .error .range := by
  rw [wEncode, beN_error (n := fieldBytes) h]; rfl

theorem wEncode_error_y (hx : x < 2 ^ 256) (hy : 2 ^ 256 ≤ y) : wEncode .uncompressed (.finite x y) = .error .range := by
  rw [wEncode, beN_ok (n := fieldBytes) hx, beN_error (n := fieldBytes) hy]; rfl

/-- The compressed form: 02 or 03 by the parity of Y, then X (41_weierstrass.md R177). -/
theorem wEncode_compressed (hx : x < 2 ^ 256) :
    wEncode .compressed (.finite x y) = .ok (BitVec.ofNat 8 (2 + y % 2) :: beBytes 32 x) := by
  rw [wEncode, beN_ok (n := fieldBytes) hx]; rfl

/-- The uncompressed form: 04, X and Y (41_weierstrass.md R177). -/
theorem wEncode_uncompressed (hx : x < 2 ^ 256) (hy : y < 2 ^ 256) :
    wEncode .uncompressed (.finite x y) = .ok (4 :: (beBytes 32 x ++ beBytes 32 y)) := by
  rw [wEncode, beN_ok (n := fieldBytes) hx, beN_ok (n := fieldBytes) hy]; rfl

end

section
variable (b : Byte) (x y : Nat) (ys : List Byte) {j : Nat}

/-- Byte `j` of an encoding is byte `j - 1` of X, the most significant one first (41_weierstrass.md R177). -/
theorem encoding_getD_x (h1 : 1 ≤ j) (h32 : j ≤ 32) :
    ((b :: (beBytes 32 x ++ ys)).getD j 0).toNat = x / 256 ^ (32 - j) % 256 := by
  obtain ⟨i, rfl⟩ := Nat.exists_eq_add_of_le' h1
  rw [List.getD_cons_succ, List.getD_append _ _ _ _ (by rw [beBytes_length]; omega), beBytes_getD_toNat (by omega)]
  congr 3; omega

/-- Byte `j` of an uncompressed encoding is byte `j - 33` of Y (41_weierstrass.md R177). -/
theorem encoding_getD_y (h33 : 33 ≤ j) (h64 : j ≤ 64) :
    ((b :: (beBytes 32 x ++ beBytes 32 y)).getD j 0).toNat = y / 256 ^ (64 - j) % 256 := by
  obtain ⟨i, rfl⟩ := Nat.exists_eq_add_of_le' h33
  rw [List.getD_cons_succ, List.getD_append_right _ _ _ _ (by rw [beBytes_length]; omega), beBytes_length,
    beBytes_getD_toNat (by omega)]
  congr 3; omega

end

/-- What a failed W.ENC leaves (41_weierstrass.md R177). -/
theorem exec_wenc_failed {s : State} {pa : PIdx} {form : EncForm} {e : ErrCode}
    (h : wEncode form (s.inputs.pt pa) = .error e) : ∃ t, exec (.wenc pa form) s = .next t ∧ Claims.Failed s s.regs e t :=
  ⟨_, by simp [exec_wenc, execWEnc, h], s.commitError_failed e⟩

/-- W.ENC writes its bytes and their number, and 0 to the rest of EBUF (41_weierstrass.md R177). -/
theorem exec_wenc_committed {s : State} {pa : PIdx} {form : EncForm} {bytes : List Byte} {len : Fin 66}
    (h : wEncode form (s.inputs.pt pa) = .ok bytes) (hlen : Fin.ofNat 66 bytes.length = len) :
    ∃ t, exec (.wenc pa form) s = .next t ∧
      Claims.Committed s { s.regs with ebuf := bufOf 65 bytes, elen := len } false t := by
  subst hlen
  exact ⟨s.commitOk (s.regs.setEncoding bytes) false, by simp [exec_wenc, execWEnc, h], s.commitOk_committed _ _⟩

/-- Settles O47: the errors of `wEncode`, and the bytes of its two forms. -/
theorem pointEncodingResult : Obligations.PointEncodingResult := by
  intro s pa
  refine ⟨fun hP form => exec_wenc_failed (by rw [hP]; rfl), fun x y hP => ⟨fun hx form => ?_, fun hy hx => ?_, fun hx => ?_,
    fun hx hy => ?_⟩⟩
  · exact exec_wenc_failed (hP ▸ wEncode_error_x hx form)
  · exact exec_wenc_failed (hP ▸ wEncode_error_y hx hy)
  · obtain ⟨t, ht, hc⟩ := exec_wenc_committed (len := 33) (hP ▸ wEncode_compressed (y := y) hx) (by simp [beBytes_length])
    refine ⟨t, _, ht, hc, ?_, fun j hj h1 h32 => ?_, fun j hj h33 => ?_⟩
    · rw [bufOf_getElem, List.getD_cons_zero, BitVec.toNat_ofNat]; omega
    · rw [bufOf_getElem, ← encoding_getD_x _ x [] h1 h32, List.append_nil]
    · rw [bufOf_getElem]
      exact List.getD_eq_default _ _ (by simpa [beBytes_length] using h33)
  · obtain ⟨t, ht, hc⟩ := exec_wenc_committed (len := 65) (hP ▸ wEncode_uncompressed hx hy) (by simp [beBytes_length])
    refine ⟨t, _, ht, hc, ?_, fun j hj h1 h32 => ?_, fun j hj h33 => ?_⟩
    · rw [bufOf_getElem]; rfl
    · rw [bufOf_getElem, encoding_getD_x _ x _ h1 h32]
    · rw [bufOf_getElem, encoding_getD_y _ x y h33 (by omega)]

/-! ## The point of W.DEC -/

/-- How a point command ended, from what its function answered (60_exceptions.md R331). -/
theorem State.writePtCurve_next {s t : State} {pd : PIdx} {cs : CurveSel} {f : Curve → Except ErrCode Point} {c : Curve}
    (hc : s.inputs.curve cs = .ok c) (h : s.writePtCurve pd cs f = .next t) :
    (∀ P, f c = .ok P → Claims.Committed s (s.regs.setPt pd P) false t) ∧ ∀ e, f c = .error e → Claims.Failed s s.regs e t := by
  refine ⟨fun P hf => ?_, fun e hf => ?_⟩
  · obtain ⟨u, hu, hcom⟩ := State.writePtCurve_committed hc hf
    cases hu.symm.trans h
    exact hcom
  · obtain ⟨u, hu, hfail⟩ := State.writePtCurve_failed hc hf
    cases hu.symm.trans h
    exact hfail

section
variable {c : Curve} {bytes : Nat → Nat → List Byte} {len d : Nat}

theorem wDecode_empty (hlen : len = 0) : wDecode c bytes len d = .error .encLength := if_pos hlen

theorem wDecode_encPrefix (hlen : len ≠ 0) (h2 : intBe (bytes 0 1) ≠ 2) (h3 : intBe (bytes 0 1) ≠ 3)
    (h4 : intBe (bytes 0 1) ≠ 4) : wDecode c bytes len d = .error .encPrefix := by
  simp [wDecode, hlen, h2, h3, h4]

/-- First byte 4 "takes the coordinates as given" (41_weierstrass.md R178). -/
theorem wDecode_uncompressed (hlen : len ≠ 0) (h4 : intBe (bytes 0 1) = 4) : wDecode c bytes len d =
    if len = 65 then .ok (.finite (intBe (bytes 1 32)) (intBe (bytes 33 32))) else .error .encLength := by
  simp [wDecode, hlen, h4]

/-- First byte 2 or 3 decompresses the stored x and takes the root of its parity (41_weierstrass.md R178). -/
theorem wDecode_compressed (hlen : len ≠ 0) (h23 : intBe (bytes 0 1) = 2 ∨ intBe (bytes 0 1) = 3) : wDecode c bytes len d =
    if len = 33 then do
      let y ← wEval c (intBe (bytes 1 32)) d
      return .finite (intBe (bytes 1 32)) (if y % 2 = intBe (bytes 0 1) % 2 then y else fSub 0 y c.p)
    else .error .encLength := by
  have hpre : ¬(intBe (bytes 0 1) ≠ 2 ∧ intBe (bytes 0 1) ≠ 3 ∧ intBe (bytes 0 1) ≠ 4) := by omega
  have h4 : intBe (bytes 0 1) ≠ 4 := by omega
  simp only [wDecode, if_neg hlen, if_neg hpre, if_neg h4, ne_eq, ite_not]

end

/-- The negative modulo `m` of a reduced number (40_field_ops.md R133). -/
theorem fSub_zero_of_lt {a m : Nat} (h : a < m) : fSub 0 a m = (m - a) % m := by
  rw [fSub, Nat.zero_add, Nat.mod_eq_of_lt h]

theorem intBe_ebufSlice (r : Regs) (lo n : Nat) :
    intBe (r.ebufSlice lo n) = Nat.ofDigits 256 ((((r.ebuf.toList.drop lo).take n).map BitVec.toNat).reverse) :=
  intBe_eq_ofDigits _

theorem intBe_ebufSlice_first (r : Regs) : intBe (r.ebufSlice 0 1) = (r.ebuf[0]).toNat := by
  have h : r.ebufSlice 0 1 = [r.ebuf[0]] := by
    rw [Regs.ebufSlice, List.drop_zero, List.take_one, List.head?_eq_getElem?, List.getElem?_eq_getElem (by simp)]
    simp
  rw [h]
  simp [intBe]

/-- Settles O48: each branch of `wDecode` with the commit it leads to. -/
theorem pointDecodingResult : Obligations.PointDecodingResult := by
  intro s pd cs c hc h2 pre len x y2 rhs root y
  obtain ⟨t, ht⟩ := exec_next (.wdec pd cs) s
  obtain ⟨hok, herr⟩ := State.writePtCurve_next hc ht
  have hpre : intBe (s.inputs.ebufSlice 0 1) = pre := intBe_ebufSlice_first _
  have hx : intBe (s.inputs.ebufSlice 1 32) = x := intBe_ebufSlice _ _ _
  have hy2 : intBe (s.inputs.ebufSlice 33 32) = y2 := intBe_ebufSlice _ _ _
  have hroot : root < c.p := Nat.mod_lt _ (by omega)
  refine ⟨t, ht, fun h0 => ?_, fun h0 hp2 hp3 hp4 => ?_, fun h0 h4 hl => ?_, fun h0 h23 hl => ?_, fun h4 hl => ?_,
    fun h23 hl => ?_⟩
  · exact herr _ (wDecode_empty h0)
  · exact herr _ (wDecode_encPrefix h0 (hpre ▸ hp2) (hpre ▸ hp3) (hpre ▸ hp4))
  · exact herr _ ((wDecode_uncompressed h0 (hpre.trans h4)).trans (if_neg hl))
  · exact herr _ ((wDecode_compressed h0 (hpre ▸ h23)).trans (if_neg hl))
  · refine hok _ ((wDecode_uncompressed (by omega) (hpre.trans h4)).trans ?_)
    rw [if_pos hl, hx, hy2]
  · have hdec := (wDecode_compressed (c := c) (d := s.draws) (by omega) (hpre ▸ h23)).trans (if_pos hl)
    rw [hx, hpre] at hdec
    rcases wEval_isSquare_cases h2 x s.draws with ⟨he, hs⟩ | ⟨he, hs⟩
    · rw [he, except_ok_bind, fSub_zero_of_lt hroot] at hdec
      have hcom := hok _ hdec
      have ⟨_, hcode, _⟩ := hcom
      exact ⟨.inl hcom, fun hp hne => iff_of_true hcode (hs hp hne)⟩
    · rw [he, except_error_bind] at hdec
      have hfail := herr _ hdec
      have ⟨_, hcode, _⟩ := hfail
      exact ⟨.inr hfail, fun hp hne => iff_of_false (by rw [hcode]; exact nofun) (hs hp hne)⟩

/-! ## Decoding undoes encoding -/

/-- A buffer that holds a byte string is that string, then zeros (41_weierstrass.md R177). -/
theorem bufOf_toList {n : Nat} {bytes : List Byte} (h : bytes.length ≤ n) :
    (bufOf n bytes).toList = bytes ++ List.replicate (n - bytes.length) 0 := by
  refine List.ext_getElem (by simp; omega) fun j h1 _ => ?_
  rw [Vector.length_toList] at h1
  rw [Vector.getElem_toList, bufOf_getElem, List.getElem_append]
  split
  next hj => exact List.getD_eq_getElem _ _ hj
  next hj => rw [List.getElem_replicate]; exact List.getD_eq_default _ _ (Nat.le_of_not_lt hj)

/-- What is read back of a written encoding is the part of it that was asked for. -/
theorem ebufSlice_setEncoding (r : Regs) {bytes : List Byte} (h : bytes.length ≤ 65) {lo n : Nat}
    (hn : lo + n ≤ bytes.length) : (r.setEncoding bytes).ebufSlice lo n = (bytes.drop lo).take n := by
  rw [Regs.ebufSlice, Regs.setEncoding_ebuf, bufOf_toList h, List.drop_append_of_le_length (by omega),
    List.take_append_of_le_length (by rw [List.length_drop]; omega)]

/-- A coordinate that W.ENC's range check passes is read back from its bytes (40_field_ops.md R140). -/
theorem intBe_beBytes_32 {v : Nat} (h : v < 2 ^ 256) : intBe (beBytes 32 v) = v := by
  rw [intBe_beBytes, Nat.mod_eq_of_lt (h.trans_eq (by norm_num))]

/-- Over a prime p ≡ 3 (mod 4) the root's two candidates are a point's y and its negative; the parity tells them apart,
since p is odd. -/
theorem root_with_parity {c : Curve} {x y : Nat} (hp : c.p.Prime) (h3 : c.p % 4 = 3) (hy : y < c.p)
    (hc : Claims.OnCurve c x y) {root : Nat} (hr : root < c.p) (hrc : Claims.OnCurve c x root) :
    (if root % 2 = y % 2 then root else fSub 0 root c.p) = y := by
  have := Fact.mk hp
  rw [fSub_zero_of_lt hr]
  rcases sq_eq_sq_iff_eq_or_eq_neg.1 (hrc.trans hc.symm) with h | h
  · obtain rfl := eq_of_cast_eq hr hy h
    exact if_pos rfl
  · have hdvd : c.p ∣ root + y := by
      rw [← ZMod.natCast_eq_zero_iff, Nat.cast_add, h, neg_add_cancel]
    obtain ⟨k, hk⟩ := hdvd
    have hk2 : k < 2 := by
      by_contra hge
      have := Nat.mul_le_mul_left c.p (Nat.le_of_not_lt hge)
      omega
    interval_cases k
    · obtain ⟨rfl, rfl⟩ : root = 0 ∧ y = 0 := by omega
      rfl
    · rw [if_neg (by omega), show c.p - root = y by omega, Nat.mod_eq_of_lt hy]

/-- A compressed point of the curve decodes to it, whatever the draw (41_weierstrass.md R178). -/
theorem wDecode_compressed_onCurve {c : Curve} {bytes : Nat → Nat → List Byte} {x y : Nat} (d : Nat) (hp : c.p.Prime)
    (h3 : c.p % 4 = 3) (hy : y < c.p) (hc : Claims.OnCurve c x y) (hpre : intBe (bytes 0 1) = 2 + y % 2)
    (hx : intBe (bytes 1 32) = x) : wDecode c bytes 33 d = .ok (.finite x y) := by
  have hsq : IsSquare (((x ^ 3 + c.a * x + c.b) % c.p : Nat) : ZMod c.p) := by
    rw [← wRhs_eq hp.pos, wRhs_cast, ← hc]; exact IsSquare.sq _
  rw [wDecode_compressed (by omega) (by omega), if_pos rfl, hx, hpre]
  rcases wEval_isSquare_cases hp.two_le x d with ⟨he, -⟩ | ⟨-, hs⟩
  · rw [he, except_ok_bind, Nat.add_mod_left, Nat.mod_mod,
      root_with_parity hp h3 hy hc (Nat.mod_lt _ hp.pos) (onCurve_root hp h3 hsq), except_pure]
  · exact absurd hsq (hs hp (by omega))

/-! What is read back of a written encoding: its first byte, X and Y. -/

section
variable (r : Regs) (b : Byte)

theorem intBe_encoding_first {rest : List Byte} (h : rest.length ≤ 64) :
    intBe ((r.setEncoding (b :: rest)).ebufSlice 0 1) = b.toNat := by
  have hlen : (b :: rest).length ≤ 65 := by rw [List.length_cons]; omega
  rw [ebufSlice_setEncoding r hlen (by simp)]
  simp [intBe]

variable {x y : Nat}

theorem intBe_encoding_x (hx : x < 2 ^ 256) {ys : List Byte} (h : ys.length ≤ 32) :
    intBe ((r.setEncoding (b :: (beBytes 32 x ++ ys))).ebufSlice 1 32) = x := by
  have hlen : (b :: (beBytes 32 x ++ ys)).length = 33 + ys.length := by
    rw [List.length_cons, List.length_append, beBytes_length]; omega
  rw [ebufSlice_setEncoding r (by omega) (by omega), List.drop_one, List.tail_cons, List.take_left' (beBytes_length 32 x),
    intBe_beBytes_32 hx]

theorem intBe_encoding_y (hy : y < 2 ^ 256) :
    intBe ((r.setEncoding (b :: (beBytes 32 x ++ beBytes 32 y))).ebufSlice 33 32) = y := by
  have hlen : (b :: (beBytes 32 x ++ beBytes 32 y)).length = 65 := by
    rw [List.length_cons, List.length_append, beBytes_length, beBytes_length]
  rw [ebufSlice_setEncoding r (by omega) (by omega), List.drop_succ_cons, List.drop_left' (beBytes_length 32 x),
    List.take_of_length_le (by rw [beBytes_length]), intBe_beBytes_32 hy]

end

/-- Settles O49: an encoding that was written has coordinates in range, and each form reads back what it wrote. -/
theorem decodeUndoesEncode : Obligations.DecodeUndoesEncode := by
  intro c r x y d form bytes h hform
  have hx : x < 2 ^ 256 := by
    by_contra hx
    cases (wEncode_error_x (Nat.le_of_not_lt hx) form).symm.trans h
  cases form with
  | compressed =>
    obtain ⟨hp, h3, -, -, hy, hc⟩ := hform rfl
    cases (wEncode_compressed hx).symm.trans h
    rw [Regs.setEncoding_elen, List.length_cons, beBytes_length]
    refine wDecode_compressed_onCurve d hp h3 hy hc ?_ ?_
    · rw [intBe_encoding_first r _ (by rw [beBytes_length]; omega), BitVec.toNat_ofNat]; omega
    · simpa only [List.append_nil] using intBe_encoding_x r _ hx (ys := []) (by simp)
  | uncompressed =>
    have hy : y < 2 ^ 256 := by
      by_contra hy
      cases (wEncode_error_y hx (Nat.le_of_not_lt hy)).symm.trans h
    cases (wEncode_uncompressed hx hy).symm.trans h
    rw [Regs.setEncoding_elen, List.length_cons, List.length_append, beBytes_length, beBytes_length]
    refine (wDecode_uncompressed (by decide) (intBe_encoding_first r 4 (by simp [beBytes_length]))).trans ?_
    rw [intBe_encoding_x r 4 hx (beBytes_length 32 y).le, intBe_encoding_y r 4 hy]
    rfl

end Sys2Proof.Machine
end

section
/-! SUPPORT. The Montgomery commands: the pairs that M.DBL, M.ADD and M.MUL commit, the affine x of M.AFFX, the verdicts of
M.VALID and M.EVAL, and M.RAND's turn on a drawn x (42_montgomery.md section 1). -/

namespace Sys2Proof.Machine

/-! ## M.DBL and M.ADD -/

/-- MAdd answers its second operand when the first one's stored Z is 0 (42_montgomery.md R240). -/
theorem mAdd_of_left_zero {p q : MPoint} (hp : p.z = 0) : mAdd p q = q := if_pos hp

/-- MAdd answers its first operand when only the second one's stored Z is 0 (42_montgomery.md R240). -/
theorem mAdd_of_right_zero {p q : MPoint} (hp : p.z ≠ 0) (hq : q.z = 0) : mAdd p q = p :=
  (if_neg hp).trans (if_pos hq)

/-- MAdd doubles equal stored pairs (42_montgomery.md R240). -/
theorem mAdd_self {p : MPoint} (hp : p.z ≠ 0) : mAdd p p = mDouble p := by
  rw [mAdd, if_neg hp, if_neg hp, if_pos rfl]

theorem exec_mdbl_committed (s : State) (pd pa : PIdx) : ∃ t, exec (.mdbl pd pa) s = .next t ∧
    Claims.Committed s (s.regs.setMp pd (mDouble (s.inputs.mp pa))) false t :=
  ⟨_, by rw [exec_mdbl, execMDbl, State.finish_ok], s.commitOk_committed _ _⟩

theorem exec_madd_committed {s : State} {pd pa pb : PIdx} {R : MPoint} (h : mAdd (s.inputs.mp pa) (s.inputs.mp pb) = R) :
    ∃ t, exec (.madd pd pa pb) s = .next t ∧ Claims.Committed s (s.regs.setMp pd R) false t :=
  ⟨_, by rw [exec_madd, execMAdd, h, State.finish_ok], s.commitOk_committed _ _⟩

/-- Settles O50: the branches of MAdd in R240's order, and the formulas of MDouble and MAdd in the field. -/
theorem montgomeryAddAndDouble : Obligations.MontgomeryAddAndDouble := by
  intro s pd pa pb P Q
  refine ⟨?_, fun hP => exec_madd_committed (mAdd_of_left_zero hP),
    fun hQ hP => exec_madd_committed (mAdd_of_right_zero hP hQ), fun hPQ hP => ?_, fun hP hQ hPQ => ?_⟩
  · obtain ⟨t, ht, hc⟩ := exec_mdbl_committed s pd pa
    obtain ⟨hx, hz⟩ := mDouble_lt P
    exact ⟨t, _, _, ht, hc, hx, hz, mDouble_cast P⟩
  · have hadd : mAdd P Q = mDouble P := hPQ ▸ mAdd_self hP
    rw [exec_madd, exec_mdbl, execMAdd, execMDbl, hadd]
  · obtain ⟨t, ht, hc⟩ := exec_madd_committed (s := s) (pd := pd) (pa := pa) (pb := pb) rfl
    exact ⟨t, _, _, ht, hc, mAdd_cast hP hQ hPQ⟩

/-! ## M.MUL -/

/-- One round of the ladder on the two accumulators, for one bit of the scalar (42_montgomery.md R242). -/
def ladderStep (b : Bool) (l : MPoint × MPoint) : MPoint × MPoint :=
  if b then (mAdd l.1 l.2, mDouble l.2) else (mDouble l.1, mAdd l.1 l.2)

/-- The accumulators after all the bits of a scalar, from `(1 : 0)` and `p` (42_montgomery.md R242). -/
def ladder (p : MPoint) : Nat → MPoint × MPoint :=
  Nat.binaryRec (motive := fun _ => MPoint × MPoint) (⟨1, 0⟩, p) fun b _ => ladderStep b

/-- A 0 bit above the highest set one changes neither accumulator, since `(1 : 0)` doubles to itself. -/
theorem ladderStep_false_start (p : MPoint) : ladderStep false (⟨1, 0⟩, p) = (⟨1, 0⟩, p) := by
  have hdbl : mDouble ⟨1, 0⟩ = ⟨1, 0⟩ := by decide +kernel
  simp [ladderStep, hdbl, mAdd_of_left_zero]

theorem ladder_zero (p : MPoint) : ladder p 0 = (⟨1, 0⟩, p) := Nat.binaryRec_zero _ _

theorem ladder_bit (p : MPoint) (b : Bool) (k : Nat) : ladder p (Nat.bit b k) = ladderStep b (ladder p k) :=
  Nat.binaryRec_eq b k (.inl (ladderStep_false_start p))

/-- The bits of `k` from bit `i` up are bit `i` below the bits from bit `i + 1` up. -/
theorem shiftRight_eq_bit_testBit (k i : Nat) : k >>> i = Nat.bit (k.testBit i) (k >>> (i + 1)) := by
  have h := Nat.bit_testBit_zero_shiftRight_one (k >>> i)
  rw [Nat.testBit_shiftRight, Nat.add_zero, ← Nat.shiftRight_add] at h
  exact h.symm

/-- One round of MMul's loop is a round of the ladder. -/
theorem mMulLoop_succ (k i : Nat) (l : MPoint × MPoint) : mMulLoop k (i + 1) l.1 l.2 =
    mMulLoop k i (ladderStep (k.testBit i) l).1 (ladderStep (k.testBit i) l).2 := by
  rw [mMulLoop, ladderStep]
  split <;> rfl

/-- From the accumulators of the bits above the `n` low ones, MMul's loop reaches those of the whole scalar. -/
theorem mMulLoop_ladder (p : MPoint) (k : Nat) : ∀ n,
    mMulLoop k n (ladder p (k >>> n)).1 (ladder p (k >>> n)).2 = (ladder p k).1
  | 0 => rfl
  | i + 1 => by
    rw [mMulLoop_succ, ← ladder_bit, ← shiftRight_eq_bit_testBit]
    exact mMulLoop_ladder p k i

/-- MMul's loop starts above every set bit of the scalar (42_montgomery.md R242). -/
theorem mMul_eq_ladder (p : MPoint) (k : Nat) : mMul p k = (ladder p k).1 := by
  have h := mMulLoop_ladder p k (bitlen k)
  rwa [Nat.shiftRight_eq_zero k _ (lt_two_pow_bitlen k), ladder_zero] at h

/-- Settles O51: `ladder` has the two equations of R242, and MMul answers its first accumulator. -/
theorem ladderByBits : Obligations.LadderByBits := by
  intro s pd pa ka
  refine ⟨ladder (s.inputs.mp pa), ladder_zero _, ladder_bit _ false, ladder_bit _ true, _, ?_, s.commitOk_committed _ _⟩
  rw [exec_mmul, execMMul, mMul_eq_ladder, State.finish_ok, Regs.kNat]

/-! ## M.AFFX -/

theorem exec_maffx_committed {s : State} {kd : KIdx} {pa : PIdx} {x : Nat} (h : mAffX (s.inputs.mp pa) = .ok x) :
    ∃ t, exec (.maffx kd pa) s = .next t ∧ Claims.Committed s (s.regs.setK kd x) false t :=
  ⟨_, by simp [exec_maffx, execMAffx, h], s.commitOk_committed _ _⟩

theorem exec_maffx_failed {s : State} {kd : KIdx} {pa : PIdx} {e : ErrCode} (h : mAffX (s.inputs.mp pa) = .error e) :
    ∃ t, exec (.maffx kd pa) s = .next t ∧ Claims.Failed s s.regs e t :=
  ⟨_, by simp [exec_maffx, execMAffx, h], s.commitError_failed e⟩

/-- Settles O52: the two cases of MAffX, the quotient's equation read in numbers. -/
theorem affineRecovery : Obligations.AffineRecovery := by
  intro s kd pa P
  rcases mAffX_cases P with ⟨hz, he⟩ | ⟨hz, x, hx, hlt, hmul⟩
  · exact ⟨fun _ => exec_maffx_failed he, fun h => absurd hz h⟩
  · obtain ⟨t, ht, hc⟩ := exec_maffx_committed (kd := kd) hx
    refine ⟨fun h => absurd h hz, fun _ => ⟨x, t, ht, hc, hlt, (ZMod.natCast_eq_natCast_iff' _ _ _).1 ?_⟩⟩
    rw [Nat.cast_mul, hmul]

/-! ## M.VALID and M.EVAL -/

/-- The residue test on an affine x, on the claims' right-hand side (42_montgomery.md R244). -/
theorem mOnCurve_iff_montRhs (x d : Nat) : mOnCurve x d = true ↔ IsSquare (Claims.montRhs x) := by
  rw [mOnCurve_iff, mCurve_cast, Claims.montRhs]

/-- A quotient X/Z in the field is the one that MAffX answers (42_montgomery.md R243). -/
theorem mAffX_of_mul_eq {p : MPoint} {x : ZMod P25519} (hz : p.z % P25519 ≠ 0) (hx : x * p.z = p.x) :
    ∃ n : Nat, mAffX p = .ok n ∧ (n : ZMod P25519) = x := by
  have := Fact.mk prime_P25519
  have hunit : (p.z : ZMod P25519) ≠ 0 := fun h => hz (Nat.mod_eq_zero_of_dvd ((ZMod.natCast_eq_zero_iff _ _).1 h))
  rcases mAffX_cases p with ⟨h, -⟩ | ⟨-, n, hn, -, hmul⟩
  · exact absurd h hz
  · exact ⟨n, hn, mul_right_cancel₀ hunit (hmul.trans hx.symm)⟩

section
variable {p : MPoint} {d n : Nat}

theorem mValid_of_identity (hz : p.z % P25519 = 0) : mValid p d = .ok true := if_pos hz

theorem mValid_of_affine (hz : p.z % P25519 ≠ 0) (hn : mAffX p = .ok n) : mValid p d = .ok (mOnCurve n d) := by
  rw [mValid, if_neg hz, hn, except_ok_bind, except_pure]

theorem mEval_of_identity (hz : p.z % P25519 = 0) : mEval p d = .ok () := if_pos hz

theorem mEval_of_affine (hz : p.z % P25519 ≠ 0) (hn : mAffX p = .ok n) :
    mEval p d = if mOnCurve n d then .ok () else .error .pointNotOnCurve := by
  rw [mEval, if_neg hz, hn, except_ok_bind]

end

section
variable {s : State} {pa : PIdx}

theorem exec_mvalid_committed {v : Bool} (h : mValid (s.inputs.mp pa) s.draws = .ok v) :
    ∃ t, exec (.mvalid pa) s = .next t ∧ Claims.Committed s s.regs v t :=
  ⟨_, by simp [exec_mvalid, execMValid, h], s.commitOk_committed _ _⟩

theorem exec_meval_committed (h : mEval (s.inputs.mp pa) s.draws = .ok ()) :
    ∃ t, exec (.meval pa) s = .next t ∧ Claims.Committed s s.regs true t :=
  ⟨_, by simp [exec_meval, execMEval, h], s.commitOk_committed _ _⟩

theorem exec_meval_failed {e : ErrCode} (h : mEval (s.inputs.mp pa) s.draws = .error e) :
    ∃ t, exec (.meval pa) s = .next t ∧ Claims.Failed s s.regs e t :=
  ⟨_, by simp [exec_meval, execMEval, h], s.commitError_failed e⟩

end

/-- Settles O53: both commands run the residue test on the one affine x, unless Z ≡ 0. -/
theorem montgomeryValidityVerdicts : Obligations.MontgomeryValidityVerdicts := by
  intro s pa P
  refine ⟨fun hz => ⟨exec_mvalid_committed (mValid_of_identity hz), exec_meval_committed (mEval_of_identity hz)⟩,
    fun x hz hx => ?_⟩
  obtain ⟨n, hn, rfl⟩ := mAffX_of_mul_eq hz hx
  have hvalid := mValid_of_affine (d := s.draws) hz hn
  have heval := mEval_of_affine (d := s.draws) hz hn
  rw [← mOnCurve_iff_montRhs n s.draws]
  refine ⟨fun hsq => ?_, fun hsq => ?_⟩
  · exact ⟨exec_mvalid_committed (hvalid.trans (congrArg _ hsq)), exec_meval_committed (heval.trans (if_pos hsq))⟩
  · have hfalse : mOnCurve n s.draws = false := Bool.eq_false_of_not_eq_true hsq
    exact ⟨exec_mvalid_committed (hvalid.trans (congrArg _ hfalse)), exec_meval_failed (heval.trans (if_neg hsq))⟩

/-! ## M.RAND -/

/-- A new request is the claims' `Requests` (60_exceptions.md R352). -/
theorem State.requestDraw_requested (s : State) (bound n : Nat) : Claims.Requests s bound (s.requestDraw bound n) :=
  ⟨rfl, rfl, rfl, rfl, ⟨n, rfl⟩, rfl, rfl, rfl, rfl, rfl, rfl⟩

section
variable {s : State} {b bound v : Nat} {body : Nat → Except ErrCode Attempt}

/-- A drawn value that the command keeps ends it (60_exceptions.md R352). -/
theorem State.drawTurn_done {r : Regs} (hp : Claims.Drew s b v) (h : body v = .ok (.done r)) :
    s.drawTurn bound body = .next (s.commitOk r false) := by
  rw [Claims.Drew] at hp
  simp only [State.drawTurn, hp, h]

/-- A drawn value that the command rejects leads to a new request (60_exceptions.md R352). -/
theorem State.drawTurn_redraw (hp : Claims.Drew s b v) (h : body v = .ok .redraw) :
    s.drawTurn bound body = .next (s.requestDraw bound (s.redraws + 1)) := by
  rw [Claims.Drew] at hp
  simp only [State.drawTurn, hp, h]

end

/-- Settles O54: the residue test on the drawn x decides between the commit and a new request. -/
theorem randomPointAcceptsResidues : Obligations.RandomPointAcceptsResidues := by
  intro s pd bound x hdrew _
  rw [← mOnCurve_iff_montRhs x s.draws]
  refine ⟨fun hsq => ?_, fun hsq => ?_⟩
  · exact ⟨_, State.drawTurn_done hdrew (if_pos hsq), s.commitOk_committed _ _⟩
  · exact ⟨_, State.drawTurn_redraw hdrew (if_neg hsq), s.requestDraw_requested _ _⟩

end Sys2Proof.Machine
end

section
/-! SUPPORT. The ECDSA commands: the digest integer, the key that E.KEYGEN commits, the signatures of E.SIGN and their
range, and the verdict of E.VERIFY (43_ecdsa.md R270 to R276). -/

namespace Sys2Proof.Machine

/-! ## Quotients -/

theorem N256_pos : 0 < N256 := prime_N256.pos

section
variable {a m : Nat}

/-- A multiple of the modulus has no inverse (40_field_ops.md R136). -/
theorem fInv_of_mod_eq_zero (hm : 1 < m) (h : a % m = 0) : fInv a m = .error .notInvertible := by
  rw [fInv, if_neg]
  rw [h, Nat.gcd_zero_left]
  exact hm.ne'

/-- A product with the inverse of `a` is the quotient by `a`. -/
theorem mul_fMul_of_inverse {b : Nat} (h : a * b % m = 1) (v : Nat) : a * fMul v b m % m = v % m := by
  have hcomm : a * (v * b) = a * b * v := by ring
  rw [fMul, Nat.mul_mod_mod, hcomm, ← Nat.mod_mul_mod, h, one_mul]

/-- A reduced quotient is 0 exactly when its numerator is 0 modulo the prime. -/
theorem eq_zero_iff_of_mul_mod_eq {q v : Nat} (hp : m.Prime) (ha : a % m ≠ 0) (hq : q < m) (h : a * q % m = v % m) :
    q = 0 ↔ v % m = 0 := by
  refine ⟨fun h0 => by rw [← h, h0, mul_zero, Nat.zero_mod], fun h0 => ?_⟩
  rcases hp.dvd_mul.1 (Nat.dvd_of_mod_eq_zero (h.trans h0)) with hd | hd
  · exact absurd (Nat.mod_eq_zero_of_dvd hd) ha
  · exact Nat.eq_zero_of_dvd_of_lt hd hq

end

/-! ## H2I -/

/-- A signing attempt reads `e` modulo n only (43_ecdsa.md R272). -/
theorem signAttempt_mod (h : Bool) (e d k : Nat) : signAttempt h (e % N256) d k = signAttempt h e d k := by
  have hadd : ∀ x, fAdd (e % N256) x N256 = fAdd e x N256 := Nat.mod_add_mod e N256
  unfold signAttempt
  simp only [hadd]

/-- The verdict reads `e` modulo n only (43_ecdsa.md R272). -/
theorem verify_mod (h : Bool) (e r sg : Nat) (pub : Point) : verify h (e % N256) r sg pub = verify h e r sg pub := by
  simp only [verify, fMul, Nat.mod_mul_mod]

/-- Settles O55: `int_be` is the value of the digits, and both uses of e reduce it modulo n. -/
theorem hashToInteger : Obligations.HashToInteger := by
  refine ⟨fun s kd => ⟨_, ?_, s.commitOk_committed _ _⟩,
    fun h e d k r sg pub => ⟨signAttempt_mod h e d k, verify_mod h e r sg pub⟩⟩
  rw [exec_h2i, execH2i, State.finish_ok, Regs.hashToInt, intBe_eq_ofDigits, Regs.digestBytes]

/-! ## Multiples of the generator -/

/-- The generator is a point of its curve. -/
theorem wValid_genG : wValid secp256k1 genG = true := by decide +kernel

theorem yRegular_genG : Claims.YRegular secp256k1.p genG := yRegular_of_lt (by decide +kernel)

theorem secp256k1_p_ne_two : secp256k1.p ≠ 2 := by decide +kernel

section
variable {c : Curve}

/-- A multiple of a point with a regular Y has a regular Y: every point WMul meets is a double or a sum
(41_weierstrass.md R186). -/
theorem yRegular_of_wMul (hp : c.p.Prime) (h2 : c.p ≠ 2) {P R : Point} {k : Nat} (hP : Claims.YRegular c.p P)
    (h : wMul c P k = .ok R) : Claims.YRegular c.p R := by
  unfold wMul at h
  split at h
  · cases h; trivial
  · refine wMulLoop_induct (Claims.YRegular c.p) trivial (fun a r ha hr => ?_) (fun a r ha hr => ?_) _ P R hP h
    · obtain ⟨r', hr', hreg⟩ := wDouble_of_yRegular hp h2 ha
      cases hr'.symm.trans hr; exact hreg
    · obtain ⟨r', hr', hreg⟩ := wAdd_of_yRegular hp h2 ha hP
      cases hr'.symm.trans hr; exact hreg

/-- Over a prime field WAdd can fail only by doubling, so one operand with a regular Y is enough for it to answer
(41_weierstrass.md R184). -/
theorem wAdd_of_yRegular_left (hp : c.p.Prime) (h2 : c.p ≠ 2) {P : Point} (hP : Claims.YRegular c.p P) (Q : Point) :
    ∃ R, wAdd c P Q = .ok R := by
  by_cases hPQ : P = Q
  · obtain ⟨R, hR, -⟩ := wDouble_of_yRegular hp h2 hP
    exact ⟨R, hPQ ▸ (wAdd_self c P).trans hR⟩
  · cases P with
    | identity => exact ⟨Q, rfl⟩
    | finite px py =>
      cases Q with
      | identity => exact ⟨_, wAdd_identity_right c _⟩
      | finite qx qy =>
        rw [Point.finite.injEq] at hPQ
        rcases wAdd_finite_cases hp.two_le hPQ with ⟨-, ha⟩ | ⟨hx, hg, -⟩ | ⟨-, -, rx, ry, ha, -⟩
        · exact ⟨_, ha⟩
        · exact absurd (gcd_sub_eq_one hp hx) hg
        · exact ⟨_, ha⟩

end

/-! ## E.KEYGEN -/

/-- Settles O56: a multiple of the generator exists and is on its curve. -/
theorem keyGenerationResult : Obligations.KeyGenerationResult := by
  intro s pd kd bound d hdrew _
  obtain ⟨Q, hQ⟩ := wMul_genG d
  refine ⟨Q, _, hQ, wValid_of_wMul prime_P256 wValid_genG hQ, fun h0 => ?_, execEKeygen_answered hdrew hQ,
    s.commitOk_committed _ _⟩
  subst h0
  cases hQ
  rfl

/-! ## E.SIGN: one attempt -/

/-- Hardened mode draws again for an x that is 0 modulo n, the Identity's included (43_ecdsa.md R275). -/
theorem signR_hardened_redraw {R : Point} (h : xcoord R % N256 = 0) : signR true R = none := by
  cases R with
  | identity => rfl
  | finite x y => exact if_pos h

/-- Hardened mode reduces x (43_ecdsa.md R275). -/
theorem signR_hardened {R : Point} (h : xcoord R % N256 ≠ 0) : signR true R = some (xcoord R % N256) := by
  cases R with
  | identity => exact absurd (Nat.zero_mod _) h
  | finite x y => exact if_neg h

/-- A nonce that is 0 gives the Identity, whose x reads as 0 (43_ecdsa.md R271). -/
theorem nonce_ne_zero_of_xcoord {R : Point} {k : Nat} (hR : wMul secp256k1 genG k = .ok R) (hx : xcoord R % N256 ≠ 0) :
    k ≠ 0 := by
  rintro rfl
  cases hR
  exact hx (Nat.zero_mod _)

/-- The r of hardened mode lies in `[1, n-1]` (43_ecdsa.md R270). -/
theorem signR_hardened_range {R : Point} {r : Nat} (h : signR true R = some r) : r ≠ 0 ∧ r < N256 := by
  by_cases h0 : xcoord R % N256 = 0
  · cases (signR_hardened_redraw h0).symm.trans h
  · cases (signR_hardened h0).symm.trans h
    exact ⟨h0, Nat.mod_lt _ N256_pos⟩

section
variable {h : Bool} {e d k r sg : Nat} {R : Point}

theorem signAttempt_redraw (hR : wMul secp256k1 genG k = .ok R) (hr : signR h R = none) :
    signAttempt h e d k = .ok none := by
  simp [signAttempt, hR, hr]

/-- A nonce that is 0 modulo n has no inverse (43_ecdsa.md R275). -/
theorem signAttempt_notInvertible (hR : wMul secp256k1 genG k = .ok R) (hr : signR h R = some r) (hk : k % N256 = 0) :
    signAttempt h e d k = .error .notInvertible := by
  simp [signAttempt, hR, hr, fInv_of_mod_eq_zero prime_N256.one_lt hk]

/-- With an r and any other nonce the attempt has a reduced solution of `k·s ≡ e + d·r`, which hardened mode rejects when it
is 0 (43_ecdsa.md R275). -/
theorem signAttempt_solution (hR : wMul secp256k1 genG k = .ok R) (hr : signR h R = some r) (hk : k % N256 ≠ 0) :
    ∃ sg, sg < N256 ∧ k * sg % N256 = (e + d * r) % N256 ∧
      signAttempt h e d k = .ok (if h && sg == 0 then none else some (r, sg)) := by
  obtain ⟨kinv, hinv, -, hmul⟩ := fInv_prime prime_N256 hk
  refine ⟨fMul (fAdd e (fMul d r N256) N256) kinv N256, fMul_lt N256_pos, ?_, ?_⟩
  · rw [mul_fMul_of_inverse hmul, fAdd, fMul, Nat.mod_mod, Nat.add_mod_mod]
  · simp only [signAttempt, hR, hr, hinv, except_ok_bind, except_pure]
    split <;> rfl

/-- An attempt fails only for want of an inverse (43_ecdsa.md R275). -/
theorem signAttempt_error {err : ErrCode} (hs : signAttempt h e d k = .error err) : err = .notInvertible := by
  obtain ⟨R, hR⟩ := wMul_genG k
  cases hr : signR h R with
  | none => cases (signAttempt_redraw hR hr).symm.trans hs
  | some r =>
    by_cases hk : k % N256 = 0
    · cases (signAttempt_notInvertible hR hr hk).symm.trans hs; rfl
    · obtain ⟨sg, -, -, hsg⟩ := signAttempt_solution (e := e) (d := d) hR hr hk
      cases hsg.symm.trans hs

/-- A signature that a hardened attempt keeps lies in `[1, n-1]` (43_ecdsa.md R270). -/
theorem signAttempt_hardened_range (hs : signAttempt true e d k = .ok (some (r, sg))) :
    r ≠ 0 ∧ r < N256 ∧ sg ≠ 0 ∧ sg < N256 := by
  obtain ⟨R, hR⟩ := wMul_genG k
  cases hr : signR true R with
  | none => cases (signAttempt_redraw hR hr).symm.trans hs
  | some r' =>
    by_cases hk : k % N256 = 0
    · cases (signAttempt_notInvertible hR hr hk).symm.trans hs
    · obtain ⟨sg', hlt, -, hsg⟩ := signAttempt_solution (e := e) (d := d) hR hr hk
      by_cases h0 : sg' = 0
      · rw [if_pos (by simp [h0])] at hsg
        cases hsg.symm.trans hs
      · rw [if_neg (by simp [h0])] at hsg
        cases hsg.symm.trans hs
        obtain ⟨hr0, hrlt⟩ := signR_hardened_range hr
        exact ⟨hr0, hrlt, h0, hlt⟩

end

/-! ## E.SIGN: the command -/

/-- A drawn value on which the command fails ends it with that error (60_exceptions.md R331). -/
theorem State.drawTurn_error {s : State} {b bound v : Nat} {body : Nat → Except ErrCode Attempt} {e : ErrCode}
    (hp : Claims.Drew s b v) (h : body v = .error e) : s.drawTurn bound body = .next (s.commitError e) := by
  rw [Claims.Drew] at hp
  simp only [State.drawTurn, hp, h]

/-- The attempt that E.SIGN makes on the nonce `k` (43_ecdsa.md R275). -/
def State.signAttempt (s : State) (ka : KIdx) (k : Nat) : Except ErrCode (Option (Nat × Nat)) :=
  Machine.signAttempt s.inputs.harden s.inputs.hashToInt (s.inputs.kNat ka) k

section
variable {s : State} {ka : KIdx} {b k : Nat}

theorem exec_esign_committed {r sg : Nat} (hdrew : Claims.Drew s b k) (h : s.signAttempt ka k = .ok (some (r, sg))) :
    ∃ t, exec (.esign ka) s = .next t ∧ Claims.Committed s (s.regs.setSig r sg) false t := by
  rw [State.signAttempt] at h
  exact ⟨_, State.drawTurn_done hdrew (by rw [h]; rfl), s.commitOk_committed _ _⟩

theorem exec_esign_requests (hdrew : Claims.Drew s b k) (h : s.signAttempt ka k = .ok none) :
    ∃ t, exec (.esign ka) s = .next t ∧ Claims.Requests s N256 t := by
  rw [State.signAttempt] at h
  exact ⟨_, State.drawTurn_redraw hdrew (by rw [h]; rfl), s.requestDraw_requested _ _⟩

theorem exec_esign_failed {e : ErrCode} (hdrew : Claims.Drew s b k) (h : s.signAttempt ka k = .error e) :
    ∃ t, exec (.esign ka) s = .next t ∧ Claims.Failed s s.regs e t := by
  rw [State.signAttempt] at h
  exact ⟨_, State.drawTurn_error hdrew (by rw [h]; rfl), s.commitError_failed e⟩

/-- E.SIGN that ends with ERRCODE 0 commits the signature of its last attempt (43_ecdsa.md R275). -/
theorem exec_esign_ok {t : State} (h : exec (.esign ka) s = .next t) (hs : s.busy = true) (ht : t.busy = false)
    (hok : t.errcode = .ok) : ∃ k r sg, s.signAttempt ka k = .ok (some (r, sg)) ∧ t = s.commitOk (s.regs.setSig r sg) false := by
  rcases State.drawTurn_cases h with ⟨-, rfl⟩ | ⟨_, _, -, rfl⟩ | ⟨_, -, rfl⟩ | ⟨_, k, -, hbody⟩
  · cases ht
  · cases hs.symm.trans ht
  · cases hok
  · rcases hbody with ⟨regs, hdone, rfl⟩ | ⟨-, rfl⟩ | ⟨e, he, rfl⟩
    · obtain ⟨sig, hsig, hregs⟩ := except_bind_eq_ok hdone
      rcases sig with _ | ⟨r, sg⟩
      · cases hregs
      · cases hregs
        exact ⟨k, r, sg, hsig, rfl⟩
    · cases ht
    · rw [State.commitError_errcode] at hok
      subst hok
      rcases except_bind_eq_error he with hsig | ⟨sig, -, hsig⟩
      · cases signAttempt_error hsig
      · rcases sig with _ | _ <;> cases hsig

end

/-- Settles O57: the attempt on the drawn nonce, whose s is 0 exactly when `e + d·r` is 0 modulo n. -/
theorem signResult : Obligations.SignResult := by
  intro s ka bound k hdrew hk
  obtain ⟨R, hR⟩ := wMul_genG k
  have hkmod : k % N256 = k := Nat.mod_eq_of_lt hk
  refine ⟨R, hR, fun hh => ⟨fun h0 => ?_, fun h0 => ?_⟩, fun hh => ⟨fun hx => ?_, fun hx => ?_⟩⟩
  · refine exec_esign_failed hdrew ?_
    rw [State.signAttempt, hh]
    exact signAttempt_notInvertible hR rfl (hkmod.trans h0)
  · have hr : signR s.inputs.harden R = some (xcoord R) := by rw [hh]; rfl
    obtain ⟨sg, hlt, hmul, hsg⟩ := signAttempt_solution (e := s.inputs.hashToInt) (d := s.inputs.kNat ka) hR hr
      (hkmod.trans_ne h0)
    obtain ⟨t, ht, hc⟩ := exec_esign_committed hdrew (hsg.trans (congrArg _ (if_neg (by simp [hh]))))
    exact ⟨sg, t, ht, hc, hlt, hmul⟩
  · refine exec_esign_requests hdrew ?_
    rw [State.signAttempt, hh]
    exact signAttempt_redraw hR (signR_hardened_redraw hx)
  · have hr : signR s.inputs.harden R = some (xcoord R % N256) := by rw [hh]; exact signR_hardened hx
    have hk0 : k % N256 ≠ 0 := hkmod.trans_ne (nonce_ne_zero_of_xcoord hR hx)
    obtain ⟨sg, hlt, hmul, hsg⟩ := signAttempt_solution (e := s.inputs.hashToInt) (d := s.inputs.kNat ka) hR hr hk0
    have hzero := eq_zero_iff_of_mul_mod_eq prime_N256 hk0 hlt hmul
    refine ⟨fun h0 => ?_, fun h0 => ?_⟩
    · exact exec_esign_requests hdrew (hsg.trans (congrArg _ (if_pos (by simp [hh, hzero.2 h0]))))
    · have hne : sg ≠ 0 := fun h => h0 (hzero.1 h)
      obtain ⟨t, ht, hc⟩ := exec_esign_committed hdrew (hsg.trans (congrArg _ (if_neg (by simp [hne]))))
      exact ⟨sg, t, ht, hc, Nat.pos_of_ne_zero hne, hlt, hmul⟩

/-- Settles O58: the attempt that ended the command has r and s in range, and the registers hold them whole. -/
theorem hardenedSignaturesAreInRange : Obligations.HardenedSignaturesAreInRange := by
  intro s t ka h hh hs ht hok
  obtain ⟨k, r, sg, hsig, rfl⟩ := exec_esign_ok h hs ht hok
  rw [State.signAttempt, hh] at hsig
  obtain ⟨hr0, hr, hs0, hsg⟩ := signAttempt_hardened_range hsig
  have hwide : ∀ v < N256, (BitVec.ofNat 512 v).toNat = v := fun v hv =>
    (BitVec.toNat_ofNat v 512).trans (Nat.mod_eq_of_lt (hv.trans (by decide +kernel)))
  rw [State.commitOk_regs, Regs.setSig_sigR, Regs.setSig_sigS, hwide r hr, hwide sg hsg]
  omega

/-! ## E.VERIFY: the verdict -/

theorem inSigRange_iff (v : Nat) : inSigRange v = true ↔ 1 ≤ v ∧ v ≤ N256 - 1 := by
  rw [inSigRange, Bool.and_eq_true, decide_eq_true_eq, decide_eq_true_eq]

/-- The comparison of x-coordinates modulo n (43_ecdsa.md R276). -/
theorem verifySum_iff (h : Bool) (r : Nat) (X : Point) :
    verifySum h r X = true ↔ xcoord X % N256 = r % N256 ∧ (h = true → X ≠ .identity) := by
  cases h with
  | false => simp [verifySum]
  | true => by_cases hX : X = .identity <;> simp [verifySum, hX]

section
variable {h : Bool} {e r sg : Nat} {pub : Point}

/-- Hardened mode answers 0 when r or s is out of range (43_ecdsa.md R276). -/
theorem verify_out_of_range (hr : ¬ (inSigRange r = true ∧ inSigRange sg = true)) : verify true e r sg pub = .ok false := by
  rw [verify, if_pos]
  rwa [Bool.true_and, Bool.not_eq_true', ← Bool.not_eq_true, Bool.and_eq_true]

theorem verify_notInvertible (hsg : sg % N256 = 0) : verify false e r sg pub = .error .notInvertible := by
  simp [verify, fInv_of_mod_eq_zero prime_N256.one_lt hsg]

/-- Past the range check, with the inverse of s and u1·G at hand, the verdict is left to the public key's part
(43_ecdsa.md R276). -/
theorem verify_eq {sinv : Nat} {P1 : Point} (hr : h = true → inSigRange r = true ∧ inSigRange sg = true)
    (hinv : fInv sg N256 = .ok sinv) (hP1 : wMul secp256k1 genG (fMul e sinv N256) = .ok P1) :
    verify h e r sg pub = (do
      let P2 ← wMul secp256k1 pub (fMul r sinv N256)
      let X ← wAdd secp256k1 P1 P2
      return verifySum h r X) := by
  rw [verify, if_neg, hinv, except_ok_bind]
  · simp only [hP1, except_ok_bind]
  · cases h with
    | false => simp
    | true => simp [hr rfl]

end

/-! ## E.VERIFY: the command -/

/-- The verdict that E.VERIFY commits (43_ecdsa.md R276). -/
def State.verify (s : State) (pa : PIdx) : Except ErrCode Bool :=
  Machine.verify s.inputs.harden s.inputs.hashToInt s.inputs.sigR.toNat s.inputs.sigS.toNat (s.inputs.pt pa)

section
variable {s : State} {pa : PIdx}

theorem exec_everify_committed {v : Bool} (h : s.verify pa = .ok v) :
    ∃ t, exec (.everify pa) s = .next t ∧ Claims.Committed s s.regs v t := by
  rw [State.verify] at h
  exact ⟨_, by rw [exec_everify, execEVerify, h]; rfl, s.commitOk_committed _ _⟩

theorem exec_everify_failed {e : ErrCode} (h : s.verify pa = .error e) :
    ∃ t, exec (.everify pa) s = .next t ∧ Claims.Failed s s.regs e t := by
  rw [State.verify] at h
  exact ⟨_, by rw [exec_everify, execEVerify, h]; rfl, s.commitError_failed e⟩

end

/-- Settles O59: past the range check and the inverse of s only the public key's multiple can fail, since u1·G has a
regular Y. -/
theorem verifyResult : Obligations.VerifyResult := by
  intro s pa e r sg inRange
  have hrange : inRange ↔ inSigRange r = true ∧ inSigRange sg = true := by
    rw [inSigRange_iff, inSigRange_iff, and_assoc]
  refine ⟨fun hh hout => ?_, fun hh hsg => ?_, fun hin hsg => ?_⟩
  · refine exec_everify_committed ?_
    rw [State.verify, hh]
    exact verify_out_of_range fun hr => hout (hrange.2 hr)
  · refine exec_everify_failed ?_
    rw [State.verify, hh]
    exact verify_notInvertible hsg
  · obtain ⟨sinv, hinv, -, hmul⟩ := fInv_prime prime_N256 hsg
    obtain ⟨P1, hP1⟩ := wMul_genG (fMul e sinv N256)
    have hverify := verify_eq (pub := s.inputs.pt pa) (fun hh => hrange.1 (hin hh)) hinv hP1
    refine ⟨_, _, P1, fMul_lt N256_pos, fMul_lt N256_pos, mul_fMul_of_inverse hmul e, mul_fMul_of_inverse hmul r, hP1,
      fun err herr => ?_, fun P2 hP2 => ?_, fun hY => wMul_of_yRegular prime_P256 secp256k1_p_ne_two hY _⟩
    · obtain rfl := wMul_error herr
      exact ⟨rfl, exec_everify_failed (hverify.trans (by rw [herr]; rfl))⟩
    · have hreg := yRegular_of_wMul prime_P256 secp256k1_p_ne_two yRegular_genG hP1
      obtain ⟨X, hX⟩ := wAdd_of_yRegular_left prime_P256 secp256k1_p_ne_two hreg P2
      obtain ⟨t, ht, hc⟩ := exec_everify_committed (hverify.trans (by rw [hP2, except_ok_bind, hX]; rfl))
      exact ⟨X, _, t, hX, ht, hc, verifySum_iff _ _ _⟩

/-- Settles O60: u1 and u2 are 0, so the sum is the Identity, whose x-coordinate reads as 0 in reference mode; in hardened
mode r is out of range. -/
theorem zeroDigestGap : Obligations.ZeroDigestGap := by
  intro s pa he hr hsg
  obtain ⟨hout, -, hquot⟩ := verifyResult s pa
  have hr0 : s.inputs.sigR.toNat % N256 = 0 := by
    rcases hr with h | h
    · rw [h, Nat.zero_mod]
    · rw [h, Nat.mod_self]
  refine ⟨fun hh => ?_, fun hh => hout hh ?_⟩
  · obtain ⟨u1, u2, P1, hu1, hu2, hmul1, hmul2, hP1, -, hX, -⟩ :=
      hquot (fun h => absurd (hh.symm.trans h) (by decide)) (by rw [hsg, Nat.mod_eq_of_lt prime_N256.one_lt]; decide)
    rw [hsg, one_mul, Nat.mod_eq_of_lt hu1, he, Nat.zero_mod] at hmul1
    rw [hsg, one_mul, Nat.mod_eq_of_lt hu2, hr0] at hmul2
    subst hmul1 hmul2
    cases hP1
    obtain ⟨X, b, t, hadd, ht, hc, hb⟩ := hX .identity rfl
    cases hadd
    have hb1 : b = true := hb.2 ⟨by rw [hr0]; exact Nat.zero_mod _, fun h => absurd (hh.symm.trans h) (by decide)⟩
    exact ⟨t, ht, hb1 ▸ hc⟩
  · have := N256_pos
    omega

end Sys2Proof.Machine
end

section
/-! SUPPORT. NOP and the constant loads: the commit of LDC for the modulus that MS names, and the two constants that the
model spells in another form than the statement (44_system.md R310 to R313). -/

namespace Sys2Proof.Machine

/-- A validated user curve makes UP a modulus (30_encoding.md R102). -/
theorem Regs.modulus_up {r : Regs} (h : r.ucv = true) : r.modulus .up = .ok r.up.toNat := if_pos h

/-- LDC commits the modulus that MS names (44_system.md R311). -/
theorem exec_ldc_committed {s : State} {kd : KIdx} {ms : ModSel} {m : Nat} (h : s.inputs.modulus ms = .ok m) :
    ∃ t, exec (.ldc kd ms) s = .next t ∧ Claims.Committed s (s.regs.setK kd m) false t :=
  ⟨_, by rw [exec_ldc, execLdc, h]; rfl, s.commitOk_committed _ _⟩

/-- P256 by its powers of two (00_scope.md R10). -/
theorem P256_eq_powers : P256 = 2 ^ 256 - 2 ^ 32 - 977 := by decide

/-- N25519 by its hexadecimal digits (00_scope.md R11). -/
theorem N25519_eq_hex : N25519 = 0x1000000000000000000000000000000014DEF9DEA2F79CD65812631A5CF5D3ED := by decide

/-- Settles O30: LDC writes the modulus of each MS, and the base points are written in their register forms. -/
theorem constantLoadsAndNop : Obligations.ConstantLoadsAndNop := by
  intro s kd pd
  refine ⟨?nop, ?p256, ?n256, ?p25519, ?n25519, fun hucv => ?up, ?wldg, ?mldg⟩
  case nop => exact ⟨_, (exec_nop s).trans (s.finish_ok _ _), s.commitOk_committed _ _⟩
  case p256 => exact exec_ldc_committed (congrArg Except.ok P256_eq_powers)
  case n256 => exact exec_ldc_committed rfl
  case p25519 => exact exec_ldc_committed rfl
  case n25519 => exact exec_ldc_committed (congrArg Except.ok N25519_eq_hex)
  case up => exact exec_ldc_committed (Regs.modulus_up hucv)
  case wldg => exact ⟨_, (exec_wldg pd s).trans (s.finish_ok _ _), s.commitOk_committed _ _⟩
  case mldg => exact ⟨_, (exec_mldg pd s).trans (s.finish_ok _ _), s.commitOk_committed _ _⟩

end Sys2Proof.Machine
end

section
/-! SUPPORT. The commands that can raise no error once the decode check has passed (60_exceptions.md R337). -/

namespace Sys2Proof.Machine

/-- A modulus that is not reserved exists; UP needs a validated user curve (30_encoding.md R102). -/
theorem Regs.modulus_legal {r : Regs} {ms : ModSel} (hl : ms.legal = true) (hu : ms = .up → r.ucv = true) :
    ∃ m, r.modulus ms = .ok m := by
  cases ms with
  | up => exact ⟨_, Regs.modulus_up (hu rfl)⟩
  | p256 | n256 | p25519 | n25519 => exact ⟨_, rfl⟩
  | rsv5 | rsv6 | rsv7 => cases hl

/-- Both curves exist; the user's needs UCV = 1 (30_encoding.md R103). -/
theorem Regs.curve_selected {r : Regs} {cs : CurveSel} (hu : cs = .user → r.ucv = true) : ∃ c, r.curve cs = .ok c := by
  cases cs with
  | secp256k1 => exact ⟨_, rfl⟩
  | user => exact ⟨_, if_pos (hu rfl)⟩

/-- The MS of a well-formed command is not reserved (30_encoding.md R106). -/
theorem modSel_legal_of_wf {i : Instr} {ms : ModSel} (h : i.wf = true) (hms : i.modSel? = some ms) : ms.legal = true := by
  rwa [Instr.wf, hms] at h

/-- MValid always has a verdict: its only division is by a unit (42_montgomery.md R244). -/
theorem mValid_ok (p : MPoint) (d : Nat) : ∃ v, mValid p d = .ok v := by
  rcases mAffX_cases p with ⟨hz, -⟩ | ⟨hz, x, hx, -⟩
  · exact ⟨_, mValid_of_identity hz⟩
  · exact ⟨_, mValid_of_affine hz hx⟩

/-- With its modulus and its curve at hand, a command of R337 commits with success: what it computes is a total function
of its inputs and of the library draws (60_exceptions.md R337). -/
theorem exec_committed_of_operands {i : Instr} {s : State} (hi : Claims.noErrorBeyondDecode i = true)
    (hmod : ∀ ms, i.modSel? = some ms → ∃ m, s.inputs.modulus ms = .ok m)
    (hcurve : ∀ cs, i.curveSel? = some cs → ∃ c, s.inputs.curve cs = .ok c) :
    ∃ r b t, exec i s = .next t ∧ Claims.Committed s r b t := by
  cases i with
  | nop | wldg _ | mldg _ | h2i _ | fprime _ | madd _ _ _ | mdbl _ _ | mmul _ _ _ =>
    exact ⟨_, _, _, s.finish_ok _ _, s.commitOk_committed _ _⟩
  | ldc kd ms =>
    obtain ⟨m, hm⟩ := hmod ms rfl
    exact ⟨_, _, exec_ldc_committed hm⟩
  | fadd _ _ _ ms | fsub _ _ _ ms | fmul _ _ _ ms | fpow _ _ _ ms | fleg _ _ ms | fsqrt _ _ ms =>
    obtain ⟨m, hm⟩ := hmod ms rfl
    exact ⟨_, _, State.writeKMod_committed hm rfl⟩
  | wneg pd pa cs =>
    obtain ⟨c, hc⟩ := hcurve cs rfl
    exact ⟨_, _, State.writePtCurve_committed hc rfl⟩
  | wvalid pa cs =>
    obtain ⟨c, hc⟩ := hcurve cs rfl
    exact ⟨_, _, exec_wvalid_committed hc⟩
  | mvalid pa =>
    obtain ⟨v, hv⟩ := mValid_ok (s.inputs.mp pa) s.draws
    exact ⟨_, _, exec_mvalid_committed hv⟩
  | _ => cases hi

/-- Settles O11: the decode check provides the modulus and the curve, and nothing else of these commands can fail. -/
theorem noErrorBeyondDecode : Obligations.NoErrorBeyondDecode := by
  intro i s hi hwf hcs hms
  have hmod : ∀ ms, i.modSel? = some ms → ∃ m, s.inputs.modulus ms = .ok m := fun ms h =>
    Regs.modulus_legal (modSel_legal_of_wf hwf h) fun hup => hms (hup ▸ h)
  have hcurve : ∀ cs, i.curveSel? = some cs → ∃ c, s.inputs.curve cs = .ok c := fun cs h =>
    Regs.curve_selected fun huser => hcs (huser ▸ h)
  obtain ⟨r, b, t, ht, -, hcode, -, hdone, hphase, -⟩ := exec_committed_of_operands hi hmod hcurve
  exact ⟨t, ht, hcode, State.busy_eq_false_iff.2 hphase, hdone⟩

end Sys2Proof.Machine
end

section
/-! SUPPORT. The environment's contract decides how a step ends: a next state where the move keeps it, a fault where the
move breaks it, and never a refusal (60_exceptions.md R333, R352; 70_reset_and_hazards.md R370). -/

namespace Sys2Proof.Machine

/-- The contract on a move does not read the script. -/
theorem Event.legalIn_setEvents (e : Event) (s : State) (es : List Event) :
    e.legalIn { s with events := es } = e.legalIn s := by
  cases e with
  | rng id a => cases a <;> rfl
  | _ => rfl

/-- The one answer that breaks the contract is a value at or above the bound of the pending request (60_exceptions.md R352). -/
theorem Event.rng_legalIn_eq_false_iff {s : State} {id : Nat} {a : RngAnswer} : (Event.rng id a).legalIn s = false ↔
    ∃ snap bound n v, s.phase = .busy snap (.pending id bound) n ∧ a = .value v ∧ bound ≤ v := by
  constructor
  · intro h
    cases a with
    | fail => cases h
    | value v =>
      simp only [Event.legalIn] at h
      split at h
      next snap pid bound n hp =>
        obtain ⟨rfl, hv⟩ : id = pid ∧ bound ≤ v := by simpa using h
        exact ⟨snap, bound, n, v, hp, rfl, hv⟩
      all_goals cases h
  · rintro ⟨snap, bound, n, v, hp, rfl, hv⟩
    simp [Event.legalIn, hp, hv]

theorem State.deliver_legal {s : State} {id : Nat} {a : RngAnswer} (h : (Event.rng id a).legalIn s = true) :
    ∃ t, s.deliver id a = .next t := by
  cases hd : s.deliver id a with
  | next t => exact ⟨t, rfl⟩
  | fault f =>
    obtain ⟨-, hout⟩ := State.deliver_fault hd
    exact absurd (h.symm.trans (Event.rng_legalIn_eq_false_iff.2 hout)) (by decide)
  | refused r => exact absurd hd (s.deliver_not_refused id a r)

theorem State.deliver_illegal {s : State} {id : Nat} {a : RngAnswer} (h : (Event.rng id a).legalIn s = false) :
    s.deliver id a = .fault .rngAnswerOutOfRange := by
  obtain ⟨snap, bound, n, v, hp, rfl, hv⟩ := Event.rng_legalIn_eq_false_iff.1 h
  simp [State.deliver, hp, hv]

/-- A move that keeps the contract answers a next state (60_exceptions.md R333). -/
theorem applyEvent_legal {e : Event} {s : State} (h : e.legalIn s = true) : ∃ t, applyEvent e s = .next t := by
  cases e with
  | engine => exact engineTurn_next s
  | host a =>
    have hr : s.inReset = false := by simpa [Event.legalIn] using h
    exact ⟨s.access a, by simp [applyEvent, hr]⟩
  | rng id a => exact State.deliver_legal h
  | rstAssert | rstRelease => exact ⟨_, rfl⟩

/-- A move that breaks the contract is a fault (assumption log 4). -/
theorem applyEvent_illegal {e : Event} {s : State} (h : e.legalIn s = false) : ∃ f, applyEvent e s = .fault f := by
  cases e with
  | host a =>
    have hr : s.inReset = true := by simpa [Event.legalIn] using h
    exact ⟨.hostAccessDuringReset, by simp [applyEvent, hr]⟩
  | rng id a => exact ⟨_, State.deliver_illegal h⟩
  | engine | rstAssert | rstRelease => cases h

theorem step_next_of_contract {s : State} (h : s.contractHolds = true) : s.StepsSafely := by
  cases he : s.events with
  | nil => rw [State.StepsSafely, step_nil he]; exact engineTurn_next s
  | cons e rest =>
    have hl : e.legalIn s = true := by simpa [State.contractHolds, he] using h
    rw [State.StepsSafely, step_cons he]
    exact applyEvent_legal ((e.legalIn_setEvents s rest).trans hl)

theorem step_fault_of_breach {s : State} (h : s.contractHolds = false) : ∃ f, step s = .fault f := by
  cases he : s.events with
  | nil => simp [State.contractHolds, he] at h
  | cons e rest =>
    have hl : e.legalIn s = false := by simpa [State.contractHolds, he] using h
    rw [step_cons he]
    exact applyEvent_illegal ((e.legalIn_setEvents s rest).trans hl)

/-- Settles O15: the contract holds or is broken, and a step that answers or faults is not refused. -/
theorem stepFaultsOnlyOnBrokenContract : Obligations.StepFaultsOnlyOnBrokenContract := by
  refine ⟨fun s r hs => ?_, fun _ => step_next_of_contract, fun _ => step_fault_of_breach⟩
  cases hc : s.contractHolds with
  | true =>
    obtain ⟨t, ht⟩ := step_next_of_contract hc
    cases ht.symm.trans hs
  | false =>
    obtain ⟨f, hf⟩ := step_fault_of_breach hc
    cases hf.symm.trans hs

end Sys2Proof.Machine
end

section
/-! SUPPORT. The interrupt line: the moves that raise IRQ_EN AND DONE (60_exceptions.md R348). -/

namespace Sys2Proof.Machine

theorem State.irq_eq_true_iff (s : State) : s.irq = true ↔ s.irqEn = true ∧ s.done = true := Bool.and_eq_true_iff

/-- A command's turn raises `irq` only where it commits, since IRQ_EN is kept (60_exceptions.md R331, R348). -/
theorem exec_irq {i : Instr} {s t : State} (h : exec i s = .next t) (hs : s.irq = false) (ht : t.irq = true) :
    t.busy = false ∧ t.done = true ∧ s.irqEn = true := by
  obtain ⟨hq, hd⟩ := t.irq_eq_true_iff.1 ht
  cases exec_ends h with
  | commit r b _ _ => exact ⟨rfl, hd, hq⟩
  | error e => exact ⟨rfl, hd, hq⟩
  | consError e _ => exact ⟨rfl, hd, hq⟩
  | request bound n => exact absurd (hs.symm.trans ht) (by decide)
  | wait id bound _ => exact absurd (hs.symm.trans ht) (by decide)

theorem engineTurn_irq {s t : State} (h : engineTurn s = .next t) (hs : s.irq = false) (ht : t.irq = true) :
    s.busy = true ∧ t.busy = false ∧ t.done = true ∧ s.irqEn = true := by
  rcases engineTurn_cases h with rfl | ⟨snap, rng, n, -, hp, -, ⟨i, -, hx⟩ | ⟨e, -, rfl⟩⟩
  · exact absurd (hs.symm.trans ht) (by decide)
  · exact ⟨State.busy_iff.2 ⟨snap, rng, n, hp⟩, exec_irq hx hs ht⟩
  · exact ⟨State.busy_iff.2 ⟨snap, rng, n, hp⟩, rfl, rfl, ((State.irq_eq_true_iff _).1 ht).1⟩

/-- A CTRL write raises `irq` only where it stores the mode bits: a reset and an acceptance leave DONE 0, and a dropped
write changes neither flag (10_state.md R33). -/
theorem State.writeCtrl_irq {s : State} {v : Word} (hs : s.irq = false) (ht : (s.writeCtrl v).irq = true) :
    s.busy = false ∧ s.done = true ∧ s.irqEn = false ∧ ctrlIrqEn v = true := by
  unfold State.writeCtrl at ht
  split_ifs at ht with hsrst hb hstart
  · cases ht
  · exact absurd (hs.symm.trans ht) (by decide)
  · simp [State.irq] at ht
  · obtain ⟨hq, hd⟩ := (State.irq_eq_true_iff _).1 ht
    have hd : s.done = true := hd
    exact ⟨by simpa using hb, hd, by simpa [State.irq, hd] using hs, hq⟩

/-- An operand write reaches neither flag. -/
theorem State.writeIdle_irq (s : State) (tg : Target) (v : Word) : (s.writeIdle tg v).irq = s.irq := by
  unfold State.writeIdle
  split_ifs <;> rfl

/-- Of the registers of the window only CTRL raises `irq` when it is written; a STATUS write can but clear DONE
(10_state.md R34). -/
theorem State.writeWord_irq {s : State} {tg : Target} {v : Word} (hs : s.irq = false) (ht : (s.writeWord tg v).irq = true) :
    tg = .ctrl ∧ s.busy = false ∧ s.done = true ∧ s.irqEn = false ∧ ctrlIrqEn v = true := by
  cases tg with
  | ctrl => exact ⟨rfl, State.writeCtrl_irq hs ht⟩
  | status =>
    have hirq : (s.writeStatus v).irq = (s.irq && !v.getLsbD 1) := (Bool.and_assoc _ _ _).symm
    rw [State.writeWord, hirq, hs] at ht
    cases ht
  | id | reserved => exact absurd (hs.symm.trans ht) (by decide)
  | _ => exact absurd (hs.symm.trans ((s.writeIdle_irq _ v).symm.trans ht)) (by decide)

/-- The one access that reaches CTRL for writing (20_memory.md R83, R87). -/
theorem HostAccess.eq_ctrl_write {a : HostAccess} {m : BitVec 4} {v : Word} (hl : a.legal = true) (hk : a.kind = .write m v)
    (ht : target a.off.toNat = .ctrl) : a = ⟨0x004, 4, .write 0b1111 v⟩ := by
  obtain rfl := HostAccess.strobes_of_legal hl hk
  obtain ⟨off, size, kind⟩ := a
  obtain rfl : kind = .write 0b1111 v := hk
  obtain ⟨⟨rfl, h4⟩, -⟩ : (size = 4 ∧ off.toNat % 4 = 0) ∧ _ := by
    simpa only [HostAccess.legal, Bool.and_eq_true, beq_iff_eq] using hl
  obtain ⟨-, hctrl, -⟩ := target_iff off h4
  obtain rfl : off = 0x004 := BitVec.eq_of_toNat_eq (hctrl.1 ht)
  rfl

/-- A host access raises `irq` only as an idle write of CTRL that sets IRQ_EN while DONE = 1. -/
theorem State.access_irq {s : State} {a : HostAccess} (hs : s.irq = false) (ht : (s.access a).irq = true) :
    s.busy = false ∧ s.done = true ∧ s.irqEn = false ∧
      ∃ v, a = ⟨0x004, 4, .write 0b1111 v⟩ ∧ v.getLsbD 2 = true := by
  unfold State.access at ht
  split_ifs at ht with hl
  · split at ht
    next => exact absurd (hs.symm.trans ht) (by decide)
    next m v hk =>
      obtain ⟨hctrl, hb, hd, hq, hv⟩ := State.writeWord_irq hs ht
      exact ⟨hb, hd, hq, v, HostAccess.eq_ctrl_write hl hk hctrl, hv⟩
  · exact absurd (hs.symm.trans ht) (by decide)

/-- Settles O17: the engine raises `irq` at a commit, the host by IRQ_EN, and no other agent raises it. -/
theorem irqRisesOnlyAtCommitOrEnable : Obligations.IrqRisesOnlyAtCommitOrEnable := by
  refine ⟨fun _ => rfl, fun s t h hs ht => ?_⟩
  cases step_moved h with
  | engine es hx => exact .inl (engineTurn_irq (s := { s with events := es }) hx hs ht)
  | host a es he _ =>
    obtain ⟨hb, hd, hq, v, rfl, hv⟩ := State.access_irq (s := { s with events := es }) hs ht
    exact .inr ⟨hb, hd, hq, v, es, he, hv⟩
  | rng id a es hd =>
    rcases State.deliver_cases hd with rfl | ⟨snap, bound, n, -, -, rfl⟩
    · exact absurd (hs.symm.trans ht) (by decide)
    · exact absurd (hs.symm.trans ht) (by decide)
  | rstAssert es => cases ht
  | rstRelease es => exact absurd (hs.symm.trans ht) (by decide)

end Sys2Proof.Machine
end

section
/-! SUPPORT. The random source: what a drawing command does on an idle and on a failed port, which answers are discarded
and which one is handed over, and that request numbers never fall (60_exceptions.md R352, R353; 70_reset_and_hazards.md
R373). -/

namespace Sys2Proof.Machine

/-! ## The turn of a drawing command -/

section
variable {s : State} {bound : Nat} {body : Nat → Except ErrCode Attempt}

theorem State.drawTurn_idle (hp : s.port = .idle) : s.drawTurn bound body = .next (s.requestDraw bound 0) := by
  simp only [State.drawTurn, hp]

theorem State.drawTurn_fail {b : Nat} (hp : s.port = .answered b .fail) :
    s.drawTurn bound body = .next (s.commitError .rngFail) := by
  simp only [State.drawTurn, hp]

end

/-! ## The arrival of an answer -/

section
variable {s : State} {snap : Regs} {id bound n : Nat} {a : RngAnswer} (hp : s.phase = .busy snap (.pending id bound) n)
include hp

/-- An answer to another request than the pending one is discarded (70_reset_and_hazards.md R373). -/
theorem State.deliver_other {j : Nat} (hj : j ≠ id) : s.deliver j a = .next s := by
  simp only [State.deliver, hp, if_neg hj]

/-- The awaited answer, a failure or a value below the bound, is handed over (60_exceptions.md R352). -/
theorem State.deliver_below (ha : ∀ v, a = .value v → v < bound) :
    s.deliver id a = .next { s with phase := .busy snap (.answered bound a) n } := by
  cases a with
  | value v => exact State.deliver_value hp (ha v rfl)
  | fail => simp only [State.deliver, hp, if_true]

end

/-- Settles O22: the three commands are drawing turns with the bounds N25519 and N256, and the number of an earlier request
is not that of the new one. -/
theorem drawingCommandsRequestAndReportFailure : Obligations.DrawingCommandsRequestAndReportFailure := by
  intro s pd kd ka
  refine ⟨fun hp => ?_, fun bound t id a hreq hid => ?_, fun bound hp => ?_⟩
  · have asks : ∀ bound body, ∃ t, s.drawTurn bound body = .next t ∧ Claims.Requests s bound t := fun bound _ =>
      ⟨_, State.drawTurn_idle hp, s.requestDraw_requested bound 0⟩
    exact ⟨asks _ _, asks _ _, asks _ _⟩
  · obtain ⟨-, -, -, -, ⟨n, hphase⟩, -⟩ := hreq
    exact State.deliver_other hphase hid.ne
  · have fails : ∀ bound body, ∃ t, s.drawTurn bound body = .next t ∧ Claims.Failed s s.regs .rngFail t := fun _ _ =>
      ⟨_, State.drawTurn_fail hp, s.commitError_failed _⟩
    exact ⟨fails _ _, fails _ _, fails _ _⟩

/-! ## The number of the next request -/

theorem exec_requests_le {i : Instr} {s t : State} (h : exec i s = .next t) : s.requests ≤ t.requests := by
  cases exec_ends h with
  | request bound n => exact Nat.le_succ _
  | commit r b _ _ | error e | consError e _ | wait id bound _ => exact le_rfl

theorem engineTurn_requests_le {s t : State} (h : engineTurn s = .next t) : s.requests ≤ t.requests := by
  rcases engineTurn_cases h with rfl | ⟨_, _, _, -, -, -, ⟨i, -, hx⟩ | ⟨e, -, rfl⟩⟩
  · exact le_rfl
  · exact exec_requests_le hx
  · exact le_rfl

/-- The host makes no request, and a soft reset keeps the counter (assumption log 4). -/
theorem State.access_requests (s : State) (a : HostAccess) : (s.access a).requests = s.requests := by
  obtain ⟨t, b, hw, ht⟩ := s.access_cases a
  rw [ht]
  cases hw <;> rfl

theorem step_requests_le {s t : State} (h : step s = .next t) : s.requests ≤ t.requests := by
  cases step_moved h with
  | engine es hx => exact engineTurn_requests_le (s := { s with events := es }) hx
  | host a es _ _ => exact (State.access_requests { s with events := es } a).ge
  | rng id a es hd =>
    rcases State.deliver_cases hd with rfl | ⟨_, _, _, -, -, rfl⟩
    · exact le_rfl
    · exact le_rfl
  | rstAssert es => exact le_rfl
  | rstRelease es => exact le_rfl

/-- Settles O21: on a pending port the engine waits, and of the answers only the awaited one reaches the port. -/
theorem pendingRequestFreezesTheEngine : Obligations.PendingRequestFreezesTheEngine := by
  refine ⟨fun _ _ => step_requests_le, fun s snap id bound n a hp => ⟨fun he => ?_, fun rest he => ?_, fun j rest hj he => ?_,
    fun rest ha he => ?_⟩⟩
  · exact (step_nil he).trans (engineTurn_pending hp)
  · exact (step_cons he).trans (engineTurn_pending (s := { s with events := rest }) hp)
  · exact (step_cons he).trans (State.deliver_other (s := { s with events := rest }) hp hj)
  · exact (step_cons he).trans (State.deliver_below (s := { s with events := rest }) hp ha)

end Sys2Proof.Machine
end

section
/-! SUPPORT. The engine's turn on an accepted word: the command it decodes to, or ILLEGAL_CMD (60_exceptions.md R330,
R356; 30_encoding.md R106). -/

namespace Sys2Proof.Machine

/-- A word that is no command commits ILLEGAL_CMD at the engine's turn (30_encoding.md R106). -/
theorem engineTurn_undecodable {s : State} {snap : Regs} {rng : RngPort} {n : Nat} {e : DecodeReject}
    (hr : s.inReset = false) (hp : s.phase = .busy snap rng n) (hw : ∀ id b, rng ≠ .pending id b)
    (he : snap.command = .error e) : engineTurn s = .next (s.commitError .illegalCmd) := by
  cases rng with
  | pending id b => exact absurd rfl (hw id b)
  | idle | answered _ _ => simp [engineTurn, hr, hp, he]

/-- The engine moves when the script is empty or names its turn (60_exceptions.md R335). -/
theorem step_engine {s u : State}
    (h : (s.events = [] ∧ u = s) ∨ ∃ rest, s.events = .engine :: rest ∧ u = { s with events := rest }) :
    step s = engineTurn u ∧ ∃ es, u = { s with events := es } := by
  rcases h with ⟨he, rfl⟩ | ⟨rest, he, rfl⟩
  · exact ⟨step_nil he, u.events, rfl⟩
  · exact ⟨step_cons he, rest, rfl⟩

/-- Settles O5: the turn on the snapshot's CMD, at a state that differs from the step's only in its script. -/
theorem stepRunsTheAcceptedCommand : Obligations.StepRunsTheAcceptedCommand := by
  intro s u snap rng n hr hp hw hu
  obtain ⟨hstep, es, rfl⟩ := step_engine hu
  rw [hstep]
  refine ⟨fun i hi => ?_, fun e he => ?_⟩
  · exact engineTurn_command (s := { s with events := es }) hr hp hw hi
  · exact ⟨_, engineTurn_undecodable (s := { s with events := es }) hr hp hw he, State.commitError_failed _ _⟩

end Sys2Proof.Machine
end

section
/-! SUPPORT. Reset: the values it leaves, the soft reset by CTRL.SRST and the hard reset that `rst_n` holds
(70_reset_and_hazards.md R370 to R373). -/

namespace Sys2Proof.Machine

/-! ## The reset state -/

/-- Settles O14: the reset state is IDLE, holds no error and no validated curve, and `rst_n` is released. -/
theorem resetMeetsTheInvariant : Obligations.ResetMeetsTheInvariant :=
  .of_idle rfl (fun _ => rfl) .reset (.of_released rfl)

/-- A zeroed buffer reads 0 at every byte, its end and beyond included (10_state.md R42). -/
theorem bufByte_replicate_zero (n j : Nat) : bufByte (Vector.replicate n 0) j = 0 := by
  rw [bufByte, Vector.getElem?_replicate]
  split <;> rfl

theorem bufWord_replicate_zero (n w : Nat) : bufWord (Vector.replicate n 0) w = 0 := by
  simp only [bufWord, bufByte_replicate_zero]
  rfl

theorem Regs.bigReg_reset (b : BigReg) : Regs.reset.bigReg b = 0 := by
  cases b with
  | prX i | prY i | k i => simp [Regs.bigReg, Regs.reset, PointReg.reset]
  | sigR | sigS | ua | ub | up => rfl

/-- Settles O18: the words of the small registers compute, and every register of zeros reads 0 at each of its words. -/
theorem resetLeavesTheStatedValues : Obligations.ResetLeavesTheStatedValues :=
  ⟨rfl, rfl, rfl, rfl, rfl, rfl, rfl, bufWord_replicate_zero 65, bufWord_replicate_zero 64, Regs.bigReg_reset, rfl, rfl⟩

/-! ## Soft reset -/

/-- A CTRL write with SRST = 1 resets in any phase, whatever its other bits (10_state.md R33). -/
theorem State.writeCtrl_srst {s : State} {v : Word} (h : ctrlSrst v = true) : s.writeCtrl v = s.resetRegs := if_pos h

/-- An idle engine awaits no answer, so any that comes is discarded (70_reset_and_hazards.md R373). -/
theorem State.deliver_idle {s : State} {id : Nat} {a : RngAnswer} (hp : s.phase = .idle) : s.deliver id a = .next s := by
  simp only [State.deliver, hp]

/-- Settles O19: the write leaves `resetRegs` with the bus response, an IDLE state that awaits no answer. -/
theorem softResetGivesTheResetState : Obligations.SoftResetGivesTheResetState := by
  intro s v h
  rw [State.access_ctrl, State.writeCtrl_srst h]
  exact ⟨_, rfl, rfl, rfl, rfl, rfl, rfl, rfl, rfl, rfl, rfl, rfl, rfl, fun _ _ => State.deliver_idle rfl⟩

/-! ## Hard reset -/

/-- The engine takes no step while `rst_n` is asserted (70_reset_and_hazards.md R370). -/
theorem engineTurn_inReset {s : State} (h : s.inReset = true) : engineTurn s = .next s := if_pos h

/-- Settles O20: the asserting move is `assertReset`, and the engine's turn is frozen by the pin, not by the IDLE phase. -/
theorem hardResetHoldsTheResetState : Obligations.HardResetHoldsTheResetState := by
  intro s rest he
  refine ⟨_, step_cons he, rfl, rfl, rfl, rfl, rfl, rfl, rfl, rfl, rfl, rfl, rfl, fun u hu => ⟨fun hn => ?_, fun more hm => ?_⟩⟩
  · exact (step_nil hn).trans (engineTurn_inReset hu)
  · exact (step_cons hm).trans (engineTurn_inReset (s := { u with events := more }) hu)

end Sys2Proof.Machine
end
